-- ==== Sys2Proof/Word.lean ====
section
/-! DEFINITION. The widths HSC works with: 40-bit command and output words, 32-bit values, 8-bit symbols, bit sequences. -/

namespace Sys2Proof

/-- A 40-bit command word `{opc[7:0], op[31:0]}` (R60). -/
abbrev CmdWord := BitVec 40

/-- A 40-bit output word `{kind[7:0], value[31:0]}` (R62). -/
abbrev OutWord := BitVec 40

/-- A 32-bit operand, register or output value (R60, R62). -/
abbrev Word := BitVec 32

/-- A symbol, a payload byte or a register index: eight bits (R4 `SYM_W`, R64, R66). -/
abbrev Symbol := BitVec 8

/-- A bit sequence: a code, an accumulator or a logical bit stream, first bit first (`00_scope.md` section 5, R70). -/
abbrev Bits := List Bool

/-- The 256 symbols in ascending order (`N_SYM`, R4). -/
def allSymbols : List Symbol := (List.range 256).map (BitVec.ofNat 8)

end Sys2Proof
end

