-- ==== Sys2Proof/Config.lean ====
section
/-! DEFINITION. The implementation parameters of R4 with their defaults, and the free values the spec leaves unspecified. -/

namespace Sys2Proof

/-- The parameters a model takes as arguments (R4, U32): the counter widths and the greatest code length.
`SYM_W` is fixed at 8. DESIGN CHOICE (log 1): the machine carries them in its state, where no step writes them. -/
structure Params where
  /-- `W_CNT`: width of every frequency counter and of `FA.total`. -/
  wCnt : Nat
  /-- `W_LEN`: width of `PACK.nbits` and `UNPACK.remain`. -/
  wLen : Nat
  /-- `L_MAX`: greatest code length in bits that CT can hold. -/
  lMax : Nat
  deriving DecidableEq, Repr

/-- The constraints of U32: `1 ≤ L_MAX ≤ 255`, `1 ≤ W_CNT ≤ 32`, `1 ≤ W_LEN ≤ 32`. -/
def Params.wf (P : Params) : Bool :=
  (1 ≤ P.lMax && P.lMax ≤ 255) && (1 ≤ P.wCnt && P.wCnt ≤ 32) && (1 ≤ P.wLen && P.wLen ≤ 32)

/-- The default parameters (R4): `W_CNT = 32`, `W_LEN = 32`, `L_MAX = 255`. -/
def Config.params : Params := { wCnt := 32, wLen := 32, lMax := 255 }

/-- `SYM_W` (R4). -/
def Config.symW : Nat := 8

/-- `ID` reads this constant, the bytes `'H','S','C','1'` (R16). -/
def Config.idWord : Word := 0x48534331#32

/-- FREE VALUE (R30, R221, U20; log 5): what `FA.count[s]` holds after the k-th reset. -/
opaque Config.freeCount : Nat → Symbol → BitVec 32

/-- FREE VALUE (R30, R221, U21; log 5): what `CT.valid[s]` holds after the k-th reset. -/
opaque Config.freeValid : Nat → Symbol → Bool

/-- FREE VALUE (R30, R221, U21; log 5): what `CT.len[s]` holds after the k-th reset. -/
opaque Config.freeLen : Nat → Symbol → BitVec 8

/-- FREE VALUE (R30, R221, U21; log 5): the field `CT.code[s]` after the k-th reset, element `i` at bit `i`. -/
opaque Config.freeCode : Nat → Symbol → BitVec 255

end Sys2Proof
end

