-- ==== Sys2Proof/Syntax.lean ====
section
/-! DEFINITION. The sixteen commands of HSC-1, one constructor per row of the opcode map (R67). -/

namespace Sys2Proof

/-- A command with its fields extracted (R61, R64 to R67). -/
inductive Instr where
  /-- `NOP` (R91). -/
  | nop
  /-- `RD_REG idx` (R92). -/
  | rdReg (idx : BitVec 8)
  /-- `CLR_ERR` (R93). -/
  | clrErr
  /-- `FA_CLR` (R101). -/
  | faClr
  /-- `FA_PUSH sym` (R102). -/
  | faPush (sym : Symbol)
  /-- `FA_RD sym` (R103). -/
  | faRd (sym : Symbol)
  /-- `CT_CLR` (R111). -/
  | ctClr
  /-- `CT_BEGIN sym` (R112). -/
  | ctBegin (sym : Symbol)
  /-- `CT_BIT b` (R113). -/
  | ctBit (b : Bool)
  /-- `CT_END` (R114). -/
  | ctEnd
  /-- `ENC_START` (R126). -/
  | encStart
  /-- `ENC_PUSH sym` (R127). -/
  | encPush (sym : Symbol)
  /-- `ENC_FLUSH` (R129). -/
  | encFlush
  /-- `DEC_START n` (R141): `n` is a length in bits. -/
  | decStart (n : Word)
  /-- `DEC_PUSH byte` (R142). -/
  | decPush (byte : Symbol)
  /-- `DEC_END` (R145). -/
  | decEnd
  deriving DecidableEq, Repr

end Sys2Proof
end

