-- ==== Sys2Proof/WellFormed.lean ====
section
/-! DEFINITION. Which commands have an encoding. The operand types already bound every field but one: the length of
`DEC_START`, whose bits above `W_LEN` must be zero (R65). -/

namespace Sys2Proof

/-- `i` can be written as a command word under the parameters `P` (R61, R65). -/
def WellFormed (P : Params) : Instr → Bool
  | .decStart n => n.toNat < 2 ^ P.wLen
  | .nop => true
  | .rdReg _ => true
  | .clrErr => true
  | .faClr => true
  | .faPush _ => true
  | .faRd _ => true
  | .ctClr => true
  | .ctBegin _ => true
  | .ctBit _ => true
  | .ctEnd => true
  | .encStart => true
  | .encPush _ => true
  | .encFlush => true
  | .decPush _ => true
  | .decEnd => true

end Sys2Proof
end

