-- ==== Sys2Proof/Decode.lean ====
section
/-! DEFINITION. The command decoder (R60, R61, R64 to R68), total on every 40-bit word and rejecting by name; the encoder
written from the same table; and the opcode map as data (R67). -/

namespace Sys2Proof

/-- Why a word is no command (R68). Both are `ILLEGAL_CMD` to the machine. -/
inductive DecodeError where
  /-- The opcode is none of the sixteen. -/
  | undefinedOpcode (opc : BitVec 8)
  /-- A must-be-zero operand bit of a defined opcode is 1. -/
  | reservedBits (opc : BitVec 8)
  deriving DecidableEq, Repr

/-- `opc = cmd[39:32]` (R60). -/
def opcodeOf (w : CmdWord) : BitVec 8 := w.extractLsb' 32 8

/-- `op = cmd[31:0]` (R60). -/
def operandOf (w : CmdWord) : Word := w.extractLsb' 0 32

/-- Format N (R61): no field, `op[31:0]` must be zero. -/
def formatN (w : CmdWord) (i : Instr) : Except DecodeError Instr :=
  if operandOf w = 0#32 then .ok i else .error (.reservedBits (opcodeOf w))

/-- Formats S and R (R61, R64, R66): the field is `op[7:0]`, `op[31:8]` must be zero. -/
def formatS (w : CmdWord) (mk : Symbol → Instr) : Except DecodeError Instr :=
  if (operandOf w).extractLsb' 8 24 = 0#24 then .ok (mk ((operandOf w).extractLsb' 0 8))
  else .error (.reservedBits (opcodeOf w))

/-- Format B (R61, R65): the field is `op[0]`, `op[31:1]` must be zero. -/
def formatB (w : CmdWord) (mk : Bool → Instr) : Except DecodeError Instr :=
  if (operandOf w).extractLsb' 1 31 = 0#31 then .ok (mk ((operandOf w).getLsbD 0))
  else .error (.reservedBits (opcodeOf w))

/-- Format W (R61, R65): the field is `op[W_LEN-1:0]`, the bits above it must be zero. -/
def formatW (P : Params) (w : CmdWord) (mk : Word → Instr) : Except DecodeError Instr :=
  if (operandOf w).toNat < 2 ^ P.wLen then .ok (mk (operandOf w)) else .error (.reservedBits (opcodeOf w))

/-- The opcode map (R67). Every word is one of the sixteen commands or illegal (R68). -/
def decode (P : Params) (w : CmdWord) : Except DecodeError Instr :=
  match opcodeOf w with
  | 0x00#8 => formatN w .nop
  | 0x01#8 => formatS w .rdReg
  | 0x02#8 => formatN w .clrErr
  | 0x10#8 => formatN w .faClr
  | 0x11#8 => formatS w .faPush
  | 0x12#8 => formatS w .faRd
  | 0x20#8 => formatN w .ctClr
  | 0x21#8 => formatS w .ctBegin
  | 0x22#8 => formatB w .ctBit
  | 0x23#8 => formatN w .ctEnd
  | 0x30#8 => formatN w .encStart
  | 0x31#8 => formatS w .encPush
  | 0x32#8 => formatN w .encFlush
  | 0x40#8 => formatW P w .decStart
  | 0x41#8 => formatS w .decPush
  | 0x42#8 => formatN w .decEnd
  | opc => .error (.undefinedOpcode opc)

/-- The word `{opc, op}` (R60). -/
def cmdWord (opc : BitVec 8) (op : Word) : CmdWord := opc ++ op

/-- The command word of an instruction (R61, R67, R75). -/
def encode : Instr → CmdWord
  | .nop => cmdWord 0x00#8 0#32
  | .rdReg idx => cmdWord 0x01#8 (idx.setWidth 32)
  | .clrErr => cmdWord 0x02#8 0#32
  | .faClr => cmdWord 0x10#8 0#32
  | .faPush sym => cmdWord 0x11#8 (sym.setWidth 32)
  | .faRd sym => cmdWord 0x12#8 (sym.setWidth 32)
  | .ctClr => cmdWord 0x20#8 0#32
  | .ctBegin sym => cmdWord 0x21#8 (sym.setWidth 32)
  | .ctBit b => cmdWord 0x22#8 ((BitVec.ofBool b).setWidth 32)
  | .ctEnd => cmdWord 0x23#8 0#32
  | .encStart => cmdWord 0x30#8 0#32
  | .encPush sym => cmdWord 0x31#8 (sym.setWidth 32)
  | .encFlush => cmdWord 0x32#8 0#32
  | .decStart n => cmdWord 0x40#8 n
  | .decPush byte => cmdWord 0x41#8 (byte.setWidth 32)
  | .decEnd => cmdWord 0x42#8 0#32

/-- What the decoder reads from a word of the opcode table, under the default parameters (R4): the 40-bit word whose low
`nbits` bits are `w`'s and whose other bits are 0. There is no byte order (R45, D36): bit `i` of the table is `cmd[i]`. -/
def decodeTableWord (nbits w : Nat) : Option Instr :=
  (decode Config.params (BitVec.ofNat 40 (w % 2 ^ nbits))).toOption

/-! ### The opcode map as data (R67) -/

/-- One row of the opcode map: a word `w` is that command when `w & mask = match` (R67). -/
structure OpRow where
  mnemonic : String
  matchBits : CmdWord
  maskBits : CmdWord
  deriving DecidableEq, Repr

/-- The sixteen rows with `match = opc << 32` and the masks of R67, at the default `W_LEN = 32`. -/
def opcodeRows : List OpRow :=
  [ { mnemonic := "NOP",       matchBits := 0x0000000000#40, maskBits := 0xFFFFFFFFFF#40 },
    { mnemonic := "RD_REG",    matchBits := 0x0100000000#40, maskBits := 0xFFFFFFFF00#40 },
    { mnemonic := "CLR_ERR",   matchBits := 0x0200000000#40, maskBits := 0xFFFFFFFFFF#40 },
    { mnemonic := "FA_CLR",    matchBits := 0x1000000000#40, maskBits := 0xFFFFFFFFFF#40 },
    { mnemonic := "FA_PUSH",   matchBits := 0x1100000000#40, maskBits := 0xFFFFFFFF00#40 },
    { mnemonic := "FA_RD",     matchBits := 0x1200000000#40, maskBits := 0xFFFFFFFF00#40 },
    { mnemonic := "CT_CLR",    matchBits := 0x2000000000#40, maskBits := 0xFFFFFFFFFF#40 },
    { mnemonic := "CT_BEGIN",  matchBits := 0x2100000000#40, maskBits := 0xFFFFFFFF00#40 },
    { mnemonic := "CT_BIT",    matchBits := 0x2200000000#40, maskBits := 0xFFFFFFFFFE#40 },
    { mnemonic := "CT_END",    matchBits := 0x2300000000#40, maskBits := 0xFFFFFFFFFF#40 },
    { mnemonic := "ENC_START", matchBits := 0x3000000000#40, maskBits := 0xFFFFFFFFFF#40 },
    { mnemonic := "ENC_PUSH",  matchBits := 0x3100000000#40, maskBits := 0xFFFFFFFF00#40 },
    { mnemonic := "ENC_FLUSH", matchBits := 0x3200000000#40, maskBits := 0xFFFFFFFFFF#40 },
    { mnemonic := "DEC_START", matchBits := 0x4000000000#40, maskBits := 0xFF00000000#40 },
    { mnemonic := "DEC_PUSH",  matchBits := 0x4100000000#40, maskBits := 0xFFFFFFFF00#40 },
    { mnemonic := "DEC_END",   matchBits := 0x4200000000#40, maskBits := 0xFFFFFFFFFF#40 } ]

/-- `w` is the command of row `r` (R67). -/
def OpRow.matchesWord (r : OpRow) (w : CmdWord) : Bool := w &&& r.maskBits == r.matchBits

/-- The mnemonic of a command, as the opcode map spells it (R67). -/
def mnemonicOf : Instr → String
  | .nop => "NOP"
  | .rdReg _ => "RD_REG"
  | .clrErr => "CLR_ERR"
  | .faClr => "FA_CLR"
  | .faPush _ => "FA_PUSH"
  | .faRd _ => "FA_RD"
  | .ctClr => "CT_CLR"
  | .ctBegin _ => "CT_BEGIN"
  | .ctBit _ => "CT_BIT"
  | .ctEnd => "CT_END"
  | .encStart => "ENC_START"
  | .encPush _ => "ENC_PUSH"
  | .encFlush => "ENC_FLUSH"
  | .decStart _ => "DEC_START"
  | .decPush _ => "DEC_PUSH"
  | .decEnd => "DEC_END"

/-! ### Pseudo-commands (R76) -/

/-- `CT_ENTRY sym, "b0...bk"` expands to `CT_BEGIN sym`, one `CT_BIT` per bit, `CT_END` (R76). -/
def ctEntry (sym : Symbol) (code : Bits) : List Instr := .ctBegin sym :: code.map .ctBit ++ [.ctEnd]

/-- `FA_TEXT` (R76). -/
def faText (text : List Symbol) : List Instr := text.map .faPush

/-- `ENC_TEXT` (R76). -/
def encText (text : List Symbol) : List Instr := text.map .encPush

/-- `DEC_BYTES` (R76). -/
def decBytes (bytes : List Symbol) : List Instr := bytes.map .decPush

end Sys2Proof
end

