-- ==== Sys2Proof/Machine/State.lean ====
section
/-! DEFINITION. Everything HSC holds (`10_state.md`), the two ports as the host drives them (R63), and the state after reset
(R30, R220, R221). -/

namespace Sys2Proof.Machine

/-- The machine's stops. HSC has none: it never halts (R6), and each of its eleven faults is an in-band event after which
the next command runs as usual (R190, R202). No constructor, so nothing raises one (log 7: safe). -/
inductive Fault where
  deriving DecidableEq, Repr

/-- Reasons to give an instruction no meaning. -/
inductive Refusal where
  /-- Raised only by `exec`'s arm of an instruction that has no meaning yet; safe. No arm of this model uses it. -/
  | notModelled (mnemonic : String)
  deriving DecidableEq, Repr

/-- The eleven in-band faults (R190). -/
inductive FaultKind where
  /-- 1: the word matches no opcode row, or `RD_REG idx > 8` (R191). -/
  | illegalCmd
  /-- 2: a command not legal in the sequencing state (R192). -/
  | seq
  /-- 3: `FA.total` already at its maximum (R193). -/
  | faOvf
  /-- 4: the symbol already has a code (R194). -/
  | dupSymbol
  /-- 5: no `CT_BIT` since `CT_BEGIN` (R195). -/
  | codeEmpty
  /-- 6: the code would exceed `L_MAX` bits (R196). -/
  | codeTooLong
  /-- 7: the new code collides with a valid one (R197). -/
  | prefixCollision
  /-- 8: the symbol has no code (R198). -/
  | unknownSymbol
  /-- 9: the bit count would exceed its width (R199). -/
  | lenOvf
  /-- 10: all declared bits consumed, the last ones match no code (R200). -/
  | incompleteCode
  /-- 11: fewer bits delivered than declared (R201). -/
  | payloadShort
  deriving DecidableEq, Repr

/-- The six kinds of output word (R62). -/
inductive OutKind where
  | data
  | byte
  | len
  | sym
  | done
  | err
  deriving DecidableEq, Repr

/-- A session flag: `ENC.state` or `DEC.state` (R22, R26). -/
inductive Session where
  | idle
  | active
  deriving DecidableEq, Repr

/-- FA, the frequency analyzer (R17). -/
structure FA where
  /-- `FA.count[s]`; a `W_CNT`-bit counter in a 32-bit field (log 12). -/
  count : Vector (BitVec 32) 256
  total : BitVec 32
  distinct : BitVec 9
  init : Bool
  deriving DecidableEq, Repr

/-- One element of the CT array: the triple `(CT.valid[s], CT.len[s], CT.code[s])` (R19, R41). -/
structure CtEntry where
  valid : Bool
  len : BitVec 8
  /-- The stored bits, first bit sent first; those at index `len` and beyond are read by nothing (R19, log 8). -/
  code : Bits
  deriving DecidableEq, Repr

/-- CT, the code table with its load staging registers (R19, R21). -/
structure CT where
  entry : Vector CtEntry 256
  n : BitVec 9
  init : Bool
  ldActive : Bool
  ldSym : Symbol
  ldCode : Bits
  deriving DecidableEq, Repr

/-- ENC, the symbol encoder (R22). -/
structure Enc where
  state : Session
  deriving DecidableEq, Repr

/-- PACK, the bit-stream packer (R23). -/
structure Pack where
  acc : BitVec 8
  fill : BitVec 3
  nbits : BitVec 32
  deriving DecidableEq, Repr

/-- UNPACK, the bit-stream unpacker (R25). -/
structure Unpack where
  remain : BitVec 32
  deriving DecidableEq, Repr

/-- DEC, the symbol decoder (R26). -/
structure Dec where
  state : Session
  acc : Bits
  dead : Bool
  deriving DecidableEq, Repr

/-- One thing the host does to HSC (R63, R220): offer a command word, take the oldest output word, or pulse reset. -/
inductive HostEvent where
  | cmd (w : CmdWord)
  | take
  | reset
  deriving DecidableEq, Repr

/-- The two ports (R63): what the host will do next (log 2), the words computed but not yet delivered (R220), and the words
the host has taken (the observation of R6, log 3); each list oldest first. -/
structure Port where
  inbox : List HostEvent
  outQ : List OutWord
  delivered : List OutWord
  deriving DecidableEq, Repr

/-- The whole machine. `params` is configuration that no step writes (R4, R28, log 1) and `resets` the argument of the free
values (log 5); everything else is the state of `10_state.md` and the ports. -/
structure State where
  params : Params
  err : Word
  fa : FA
  ct : CT
  enc : Enc
  pack : Pack
  unpack : Unpack
  dec : Dec
  port : Port
  resets : Nat
  deriving DecidableEq, Repr

/-- A 256-element array given element by element. -/
def tabulate {α : Type} (f : Symbol → α) : Vector α 256 :=
  ⟨(allSymbols.map f).toArray, by simp [allSymbols]⟩

/-- The unspecified contents of `FA.count[]` after reset number `k`: any `W_CNT`-bit values (R30, R221, log 5). -/
def resetCount (P : Params) (k : Nat) : Vector (BitVec 32) 256 :=
  tabulate fun s => BitVec.ofNat 32 ((Config.freeCount k s).toNat % 2 ^ P.wCnt)

/-- The unspecified contents of the CT array after reset number `k`: any triples, the code an `L_MAX`-bit field
(R19, R30, R221, log 5). -/
def resetEntry (P : Params) (k : Nat) : Vector CtEntry 256 :=
  tabulate fun s =>
    { valid := Config.freeValid k s
      len := Config.freeLen k s
      code := (List.range P.lMax).map fun i => (Config.freeCode k s).getLsbD i }

/-- Every element at its value after reset number `k` (R30), with the given parameters and ports. -/
def State.afterReset (P : Params) (k : Nat) (port : Port) : State :=
  { params := P
    err := 0
    fa := { count := resetCount P k, total := 0, distinct := 0, init := false }
    ct := { entry := resetEntry P k, n := 0, init := false, ldActive := false, ldSym := 0, ldCode := [] }
    enc := { state := .idle }
    pack := { acc := 0, fill := 0, nbits := 0 }
    unpack := { remain := 0 }
    dec := { state := .idle, acc := [], dead := false }
    port := port
    resets := k }

/-- The machine right after reset (R30, R220, R224) at the default parameters, with nothing offered and nothing pending. -/
def State.reset : State := State.afterReset Config.params 0 { inbox := [], outQ := [], delivered := [] }

end Sys2Proof.Machine
end

