-- ==== Sys2Proof/Machine/Flags.lean ====
section
/-! DEFINITION. The status computations: fault codes and the sticky `ERR` flags (R14, R190), the `STATUS` view (R15), the
`PARAMS` constant (R13, R16). -/

namespace Sys2Proof.Machine

/-- The code of a fault: the value of its `ERR` word and its bit number in `ERR` (R190). -/
def FaultKind.code : FaultKind → Nat
  | .illegalCmd => 1
  | .seq => 2
  | .faOvf => 3
  | .dupSymbol => 4
  | .codeEmpty => 5
  | .codeTooLong => 6
  | .prefixCollision => 7
  | .unknownSymbol => 8
  | .lenOvf => 9
  | .incompleteCode => 10
  | .payloadShort => 11

/-- The eleven faults in code order (R190). -/
def allFaults : List FaultKind :=
  [.illegalCmd, .seq, .faOvf, .dupSymbol, .codeEmpty, .codeTooLong, .prefixCollision, .unknownSymbol, .lenOvf,
    .incompleteCode, .payloadShort]

/-- The mask of one fault's sticky flag (R14). -/
def FaultKind.mask (f : FaultKind) : Word := 1#32 <<< f.code

/-- `ERR[code(F)] <- 1`, all other flags as they were (R14, R202). -/
def setErrFlag (f : FaultKind) (s : State) : State := { s with err := s.err ||| f.mask }

/-- The flag bits of `ERR`: bits 11..1 (R14). -/
def errFlagMask : Word := 0x00000FFE#32

/-- What register `ERR` reads: bit 0 and bits 31:12 always read 0 (R14, log 13). -/
def errReg (s : State) : Word := s.err &&& errFlagMask

/-- Bit `i` of a 32-bit word, 1 when `b` (R15). -/
def bitAt (i : Nat) (b : Bool) : Word := (BitVec.ofBool b).setWidth 32 <<< i

/-- A session flag as the bit it shows in `STATUS` (R15, R22, R26). -/
def Session.isActive : Session → Bool
  | .idle => false
  | .active => true

/-- `STATUS`: the sequencing flags, bits 31:5 zero (R15). -/
def statusReg (s : State) : Word :=
  bitAt 0 s.enc.state.isActive ||| bitAt 1 s.dec.state.isActive ||| bitAt 2 s.fa.init ||| bitAt 3 s.ct.init |||
    bitAt 4 s.ct.ldActive

/-- `PARAMS`: `{SYM_W[7:0], W_LEN[7:0], W_CNT[7:0], L_MAX[7:0]}` (R13, R16). -/
def paramsReg (P : Params) : Word :=
  BitVec.ofNat 8 Config.symW ++ BitVec.ofNat 8 P.wLen ++ BitVec.ofNat 8 P.wCnt ++ BitVec.ofNat 8 P.lMax

end Sys2Proof.Machine
end

