-- ==== Sys2Proof/Machine/Operands.lean ====
section
/-! DEFINITION. How a command's operand reaches state: the two arrays indexed by symbol (R40, R41), the register map
(R13), the bits of a byte (R44, R45) and the code of a symbol (R19, R130). -/

namespace Sys2Proof.Machine

/-- `MemRead` of one element (R41). Every symbol indexes an element (R49). -/
def readAt {α : Type} (t : Vector α 256) (s : Symbol) : α := t[s.toNat]'s.isLt

/-- `MemWrite` of one element (R41). -/
def writeAt {α : Type} (t : Vector α 256) (s : Symbol) (v : α) : Vector α 256 := t.set s.toNat v s.isLt

/-- Every element of an array changed alike. -/
def mapTable {α β : Type} (f : α → β) (t : Vector α 256) : Vector β 256 := ⟨(t.toList.map f).toArray, by simp⟩

/-- `CT.code[s]`: the sequence of the first `CT.len[s]` stored bits (R19, log 8). -/
def CtEntry.bits (e : CtEntry) : Bits := e.code.take e.len.toNat

/-- `ENC_lookup` (R130): the code of a symbol, or none when it is unknown. -/
def codeOf (ct : CT) (sym : Symbol) : Option Bits :=
  if (readAt ct.entry sym).valid then some (readAt ct.entry sym).bits else none

/-- The register map `reg[idx]` (R13); none where no register exists (R43, R92). -/
def regAt (idx : BitVec 8) (s : State) : Option Word :=
  match idx with
  | 0#8 => some Config.idWord
  | 1#8 => some (errReg s)
  | 2#8 => some (statusReg s)
  | 3#8 => some s.fa.total
  | 4#8 => some (s.fa.distinct.setWidth 32)
  | 5#8 => some (s.ct.n.setWidth 32)
  | 6#8 => some s.pack.nbits
  | 7#8 => some s.unpack.remain
  | 8#8 => some (paramsReg s.params)
  | _ => none

/-- `v[i] <- b` (`00_scope.md` section 5). -/
def setBit (v : BitVec 8) (i : Nat) (b : Bool) : BitVec 8 :=
  if b then v ||| (1#8 <<< i) else v &&& ~~~(1#8 <<< i)

/-- The bits of a byte in stream order, most significant first: element `k` is bit `7 - k` (R45). -/
def byteBits (B : BitVec 8) : Bits := (List.range 8).map fun k => B.getLsbD (7 - k)

/-- `prefix(α, β)`, equality included (`00_scope.md` section 5). -/
def isPrefix (α β : Bits) : Bool := List.isPrefixOf α β

end Sys2Proof.Machine
end

