-- ==== Sys2Proof/Machine/Ops.lean ====
section
/-! DEFINITION. The operations the commands share: emitting an output word (R62), raising a fault (R202) and acknowledging
faults (R93, R206), counting a symbol (R102), the collision test and the table entry (R114, R115), `PACK_absorb` (R128),
UNPACK and `DEC_step` (R143, R144), and the port events (R63, R220). -/

namespace Sys2Proof.Machine

/-- What a meaning answers. -/
abbrev Result := Host.Outcome State Fault Refusal

/-! ### Output and faults -/

/-- The kind byte `out[39:32]` (R62). -/
def OutKind.code : OutKind → BitVec 8
  | .data => 0x01#8
  | .byte => 0x02#8
  | .len => 0x03#8
  | .sym => 0x04#8
  | .done => 0x05#8
  | .err => 0x0F#8

/-- The output word `{KIND, value}` (R62). -/
def outWord (k : OutKind) (v : Word) : OutWord := k.code ++ v

/-- The `ERR` word of a fault: `value[7:0]` is its code (R62, R190). -/
def errWord (f : FaultKind) : OutWord := outWord .err (BitVec.ofNat 32 f.code)

/-- `emit(KIND, v)`: append one word to the output, in order (R51, R62). -/
def emit (k : OutKind) (v : Word) (s : State) : State :=
  { s with port := { s.port with outQ := s.port.outQ ++ [outWord k v] } }

/-- `raise F`, the whole of fault entry (R202): the sticky flag, the `ERR` word, and the end of the command. The assignments a
rule writes on the line of its `raise` (R205) are already in `s`. -/
def raise (f : FaultKind) (s : State) : Result :=
  .next (emit .err (BitVec.ofNat 32 f.code) (setErrFlag f s))

/-- What stands for a return from a fault (R206): there is no return instruction, the host clears the record (R93). -/
def clearErr (s : State) : State := { s with err := 0 }

/-- `require c else F` (`00_scope.md` section 5). -/
def require (c : Bool) (f : FaultKind) (s : State) (k : Result) : Result := if c then k else raise f s

/-! ### Frequency analyzer -/

/-- Empty the histogram (R101). -/
def clearHistogram (s : State) : State :=
  { s with fa := { count := tabulate fun _ => 0, total := 0, distinct := 0, init := true } }

/-- Count one occurrence of a symbol (R102). -/
def countSymbol (sym : Symbol) (s : State) : State :=
  { s with fa :=
    { s.fa with
      count := writeAt s.fa.count sym (readAt s.fa.count sym + 1)
      total := s.fa.total + 1
      distinct := if readAt s.fa.count sym = 0 then s.fa.distinct + 1 else s.fa.distinct } }

/-! ### Code table -/

/-- `CT.valid[s] <- 0` for every symbol; `CT.len[]` and `CT.code[]` are not written (R111). -/
def invalidateAll (t : Vector CtEntry 256) : Vector CtEntry 256 :=
  mapTable (fun e => { e with valid := false }) t

/-- Two codes break the table's invariant together: one is a prefix of the other, or they are equal (R115, C5). -/
def clash (a b : Bits) : Bool := isPrefix a b || isPrefix b a

/-- `collides(c)`: some valid code clashes with `c` (R115). -/
def collides (c : Bits) (ct : CT) : Bool := ct.entry.toList.any fun e => e.valid && clash e.bits c

/-- Install the code of a symbol (R114). -/
def installEntry (sym : Symbol) (code : Bits) (s : State) : State :=
  { s with ct :=
    { s.ct with
      entry := writeAt s.ct.entry sym { valid := true, len := BitVec.ofNat 8 code.length, code := code }
      n := s.ct.n + 1 } }

/-- `CT.ld_active <- 0` (R113, R114). -/
def endLoad (s : State) : State := { s with ct := { s.ct with ldActive := false } }

/-! ### Encoder and packer -/

/-- `ENC.state <- IDLE` (R127, R129). -/
def endEncode (s : State) : State := { s with enc := { state := .idle } }

/-- `PACK_absorb(b)` (R128): the bit goes to position `7 - PACK.fill`; the eighth bit of a byte emits it. -/
def packAbsorb (s : State) (b : Bool) : State :=
  let acc := setBit s.pack.acc (7 - s.pack.fill.toNat) b
  let nbits := s.pack.nbits + 1
  if s.pack.fill = 7#3 then
    emit .byte (acc.setWidth 32) { s with pack := { acc := 0, fill := 0, nbits := nbits } }
  else { s with pack := { acc := acc, fill := s.pack.fill + 1, nbits := nbits } }

/-- The bits of one code, absorbed in order (R127). -/
def packCode (code : Bits) (s : State) : State := code.foldl packAbsorb s

/-! ### Unpacker and decoder -/

/-- `DEC.state <- IDLE` (R145). -/
def endDecode (s : State) : State := { s with dec := { s.dec with state := .idle } }

/-- The symbol whose code is exactly `acc`, if there is one (R144). A table holds no two equal codes (R20 c); in a state that
no run reaches, the lowest such symbol (log 11). -/
def matchSym (ct : CT) (acc : Bits) : Option Symbol :=
  (ct.entry.toList.findIdx? fun e => e.valid && e.bits == acc).map (BitVec.ofNat 8)

/-- `DEC_step(b)` (R144): take one bit, and possibly produce a symbol. -/
def decStep (lMax : Nat) (ct : CT) (d : Dec) (b : Bool) : Option Symbol × Dec :=
  if d.dead then (none, d)
  else
    let acc := d.acc ++ [b]
    match matchSym ct acc with
    | some s => (some s, { d with acc := [] })
    | none => (none, { d with acc := acc, dead := if acc.length = lMax then true else d.dead })

/-- One bit from UNPACK to DEC (R142, R143): count it, walk it, emit the symbol it completes. -/
def deliverBit (s : State) (b : Bool) : State :=
  let r := decStep s.params.lMax s.ct s.dec b
  let s1 := { s with unpack := { remain := s.unpack.remain - 1 }, dec := r.2 }
  match r.1 with
  | some sym => emit .sym (sym.setWidth 32) s1
  | none => s1

/-- How many bits of the next byte UNPACK delivers: `min(8, UNPACK.remain)` (R142, R143). -/
def bitsTaken (s : State) : Nat := min 8 s.unpack.remain.toNat

/-- The delivered bits of one byte, most significant first; the others are dropped unexamined (R143, R149). -/
def deliverByte (B : BitVec 8) (s : State) : State := ((byteBits B).take (bitsTaken s)).foldl deliverBit s

/-! ### Port events -/

/-- The host takes the oldest computed word (R51, R63); with none pending nothing is delivered. -/
def takeWord (s : State) : State :=
  match s.port.outQ with
  | [] => s
  | w :: rest => { s with port := { s.port with outQ := rest, delivered := s.port.delivered ++ [w] } }

/-- Reset (R220, R222): every element at its value of R30, pending words discarded, the unspecified arrays fresh (log 5).
The host's own script and record are not HSC's state and stay (log 2, log 3). -/
def resetMachine (s : State) : State :=
  State.afterReset s.params (s.resets + 1)
    { inbox := s.port.inbox, outQ := [], delivered := s.port.delivered }

end Sys2Proof.Machine
end

