-- ==== Sys2Proof/Machine/CodeTable.lean ====
section
/-! DEFINITION. The code table commands CT_CLR, CT_BEGIN, CT_BIT and CT_END (`42_code_table.md`). -/

namespace Sys2Proof.Machine

/-- `CT_CLR` empties the code table and abandons a load; refused while a session is active (R111). -/
def execCtClr (s : State) : Result :=
  require (s.enc.state = .idle && s.dec.state = .idle) .seq s <|
    .next { s with ct :=
      { s.ct with entry := invalidateAll s.ct.entry, n := 0, ldActive := false, init := true } }

/-- `CT_BEGIN sym` starts loading the code of one symbol (R112). -/
def execCtBegin (sym : Symbol) (s : State) : Result :=
  require (s.ct.init && !s.ct.ldActive && s.enc.state = .idle && s.dec.state = .idle) .seq s <|
    if (readAt s.ct.entry sym).valid then raise .dupSymbol s
    else .next { s with ct := { s.ct with ldActive := true, ldSym := sym, ldCode := [] } }

/-- `CT_BIT b` appends one bit; the bit past `L_MAX` abandons the load (R113). -/
def execCtBit (b : Bool) (s : State) : Result :=
  require s.ct.ldActive .seq s <|
    if s.ct.ldCode.length = s.params.lMax then raise .codeTooLong (endLoad s)
    else .next { s with ct := { s.ct with ldCode := s.ct.ldCode ++ [b] } }

/-- `CT_END` checks the loaded code and installs it; the load ends in every outcome (R114). -/
def execCtEnd (s : State) : Result :=
  require s.ct.ldActive .seq s <|
    if s.ct.ldCode.length = 0 then raise .codeEmpty (endLoad s)
    else if collides s.ct.ldCode s.ct then raise .prefixCollision (endLoad s)
    else .next (installEntry s.ct.ldSym s.ct.ldCode (endLoad s))

end Sys2Proof.Machine
end

