-- ==== Sys2Proof/Machine/EncoderPacker.lean ====
section
/-! DEFINITION. The encoder and packer commands ENC_START, ENC_PUSH and ENC_FLUSH (`43_encoder_packer.md`). -/

namespace Sys2Proof.Machine

/-- `ENC_START` begins an encode session and empties PACK (R126). -/
def execEncStart (s : State) : Result :=
  require (s.enc.state = .idle && s.ct.init && !s.ct.ldActive) .seq s <|
    .next { s with pack := { acc := 0, fill := 0, nbits := 0 }, enc := { state := .active } }

/-- `ENC_PUSH sym` encodes one symbol (R127). Both data faults are tested before any bit is absorbed, and end the session. -/
def execEncPush (sym : Symbol) (s : State) : Result :=
  require (s.enc.state = .active) .seq s <|
    match codeOf s.ct sym with
    | none => raise .unknownSymbol (endEncode s)
    | some code =>
      if s.pack.nbits.toNat + (readAt s.ct.entry sym).len.toNat > 2 ^ s.params.wLen - 1 then
        raise .lenOvf (endEncode s)
      else .next (packCode code s)

/-- `ENC_FLUSH` pads and emits the last byte, reports the exact bit length and ends the session (R129). -/
def execEncFlush (s : State) : Result :=
  require (s.enc.state = .active) .seq s <|
    let s1 :=
      if s.pack.fill ≠ 0 then
        { emit .byte (s.pack.acc.setWidth 32) s with pack := { s.pack with acc := 0, fill := 0 } }
      else s
    .next (endEncode (emit .len s1.pack.nbits s1))

end Sys2Proof.Machine
end

