-- ==== Sys2Proof/Machine/FrequencyAnalyzer.lean ====
section
/-! DEFINITION. The frequency analyzer commands FA_CLR, FA_PUSH and FA_RD (`41_frequency_analyzer.md`). -/

namespace Sys2Proof.Machine

/-- `FA_CLR` empties the histogram; legal in every state (R101). -/
def execFaClr (s : State) : Result := .next (clearHistogram s)

/-- `FA_PUSH sym` counts one occurrence; `FA_OVF` when the total is at its maximum (R102). -/
def execFaPush (sym : Symbol) (s : State) : Result :=
  require s.fa.init .seq s <|
    if s.fa.total.toNat = 2 ^ s.params.wCnt - 1 then raise .faOvf s else .next (countSymbol sym s)

/-- `FA_RD sym` reads one counter (R103). -/
def execFaRd (sym : Symbol) (s : State) : Result :=
  require s.fa.init .seq s <| .next (emit .data (readAt s.fa.count sym) s)

end Sys2Proof.Machine
end

