-- ==== Sys2Proof/Machine/System.lean ====
section
/-! DEFINITION. The system commands NOP, RD_REG and CLR_ERR (`40_system_commands.md`). -/

namespace Sys2Proof.Machine

/-- `NOP` does nothing (R91). -/
def execNop (s : State) : Result := .next s

/-- `RD_REG idx` (R92): one `DATA` word with the register's value, or `ILLEGAL_CMD` where no register exists. -/
def execRdReg (idx : BitVec 8) (s : State) : Result :=
  match regAt idx s with
  | some v => .next (emit .data v s)
  | none => raise .illegalCmd s

/-- `CLR_ERR` clears the sticky fault flags and nothing else (R93). -/
def execClrErr (s : State) : Result := .next (clearErr s)

end Sys2Proof.Machine
end

