-- ==== Sys2Proof/Machine/UnpackerDecoder.lean ====
section
/-! DEFINITION. The unpacker and decoder commands DEC_START, DEC_PUSH and DEC_END (`44_unpacker_decoder.md`). -/

namespace Sys2Proof.Machine

/-- `DEC_START n` begins a decode session of `n` bits (R141). -/
def execDecStart (n : Word) (s : State) : Result :=
  require (s.dec.state = .idle && s.ct.init && !s.ct.ldActive) .seq s <|
    .next { s with unpack := { remain := n }, dec := { state := .active, acc := [], dead := false } }

/-- `DEC_PUSH byte` feeds one payload byte; it raises no data fault (R142). -/
def execDecPush (byte : Symbol) (s : State) : Result :=
  require (s.dec.state = .active) .seq s <| .next (deliverByte byte s)

/-- `DEC_END` ends the session and gives the verdict (R145). -/
def execDecEnd (s : State) : Result :=
  require (s.dec.state = .active) .seq s <|
    if s.unpack.remain ≠ 0 then raise .payloadShort (endDecode s)
    else if s.dec.dead || s.dec.acc.length ≠ 0 then raise .incompleteCode (endDecode s)
    else .next (emit .done 0 (endDecode s))

end Sys2Proof.Machine
end

