-- ==== Sys2Proof/Machine/Dispatch.lean ====
section
/-! DEFINITION. One arm per command: its meaning (R67). -/

namespace Sys2Proof.Machine

def exec (i : Instr) (s : State) : Host.Outcome State Fault Refusal :=
  match i with
  | .nop => Sys2Proof.Machine.execNop s
  | .rdReg idx => Sys2Proof.Machine.execRdReg idx s
  | .clrErr => Sys2Proof.Machine.execClrErr s
  | .faClr => Sys2Proof.Machine.execFaClr s
  | .faPush sym => Sys2Proof.Machine.execFaPush sym s
  | .faRd sym => Sys2Proof.Machine.execFaRd sym s
  | .ctClr => Sys2Proof.Machine.execCtClr s
  | .ctBegin sym => Sys2Proof.Machine.execCtBegin sym s
  | .ctBit b => Sys2Proof.Machine.execCtBit b s
  | .ctEnd => Sys2Proof.Machine.execCtEnd s
  | .encStart => Sys2Proof.Machine.execEncStart s
  | .encPush sym => Sys2Proof.Machine.execEncPush sym s
  | .encFlush => Sys2Proof.Machine.execEncFlush s
  | .decStart n => Sys2Proof.Machine.execDecStart n s
  | .decPush byte => Sys2Proof.Machine.execDecPush byte s
  | .decEnd => Sys2Proof.Machine.execDecEnd s

end Sys2Proof.Machine
end

