-- ==== Sys2Proof/Machine/Accept.lean ====
section
/-! DEFINITION. Accepting what the host does at the ports: the common prologue of every command (R90), and the step of one
host event (R5, R63, R220). -/

namespace Sys2Proof.Machine

/-- A command word is accepted (R5, R90): a word that matches no row of the opcode map raises `ILLEGAL_CMD` and does nothing
else; any other word runs its command. -/
def acceptWord (w : CmdWord) (s : State) : Result :=
  match decode s.params w with
  | .error _ => raise .illegalCmd s
  | .ok i => exec i s

/-- The rest of the host's script, after its first event. -/
def withInbox (rest : List HostEvent) (s : State) : State := { s with port := { s.port with inbox := rest } }

/-- One step. With nothing offered HSC is idle and holds its state (R216); otherwise it does what the host's next event asks:
accept a word, deliver a word, or reset (R63, R220). -/
def stepEvent (s : State) : Result :=
  match s.port.inbox with
  | [] => .next s
  | .cmd w :: rest => acceptWord w (withInbox rest s)
  | .take :: rest => .next (takeWord (withInbox rest s))
  | .reset :: rest => .next (resetMachine (withInbox rest s))

/-- The host offers the word `w` ahead of everything else it was going to do (log 4). -/
def offerFirst (w : CmdWord) (s : State) : State := withInbox (.cmd w :: s.port.inbox) s

end Sys2Proof.Machine
end

