-- ==== Sys2Proof/Machine/Step.lean ====
section
/-! DEFINITION. The step function of HSC (R5), and where the next command word comes from. -/

namespace Sys2Proof.Machine

/-- One step of the machine (R5, R63, R216, R220). -/
def step (s : State) : Host.Outcome State Fault Refusal := stepEvent s

/-- `s` with the command word `w` offered at the command port, so that the next step accepts exactly it: its low `nbits` bits
are `w`'s, the others are 0 (log 4). -/
def State.withFetchWord (s : State) (nbits w : Nat) : State := offerFirst (BitVec.ofNat 40 (w % 2 ^ nbits)) s

end Sys2Proof.Machine
end

