-- ==== Sys2Proof/Machine/Stream.lean ====
section
/-! DEFINITION. The data HSC processes, as the spec defines it apart from the machine: the logical bit stream and the packed
payload of a text (R74, R44, R46), the unpacked stream (R45, R143), the decode loop with an unbounded accumulator (R147), the
prefix-tree walk (R148), and runs of commands (R6). -/

namespace Sys2Proof.Machine

/-- The logical bit stream of a text under a table (R74 step 1); none when some symbol has no code. -/
def streamOf (ct : CT) : List Symbol → Option Bits
  | [] => some []
  | s :: rest =>
    match codeOf ct s, streamOf ct rest with
    | some c, some β => some (c ++ β)
    | _, _ => none

/-- Payload byte `j` of a stream (R74 step 2): bit `7 - k` is `β[8j + k]`, and 0 past the end. Read as a number, most
significant bit first. -/
def payloadByte (β : Bits) (j : Nat) : BitVec 8 :=
  (List.range 8).foldl (fun v k => v + v + if β.getD (8 * j + k) false then 1 else 0) 0

/-- The payload: the `ceil(n/8)` bytes of a stream (R46, R74). -/
def payload (β : Bits) : List (BitVec 8) := (List.range ((β.length + 7) / 8)).map (payloadByte β)

/-- The stream UNPACK delivers from payload bytes, cut after `n` bits (R45, R143). -/
def unpackStream (n : Nat) (bytes : List (BitVec 8)) : Bits := (bytes.flatMap byteBits).take n

/-- D0's decode loop, whose accumulator is unbounded (R147): the symbols emitted and the bits left over. -/
def decodeLoop (ct : CT) : Bits → Bits → List Symbol × Bits
  | acc, [] => ([], acc)
  | acc, b :: β =>
    match matchSym ct (acc ++ [b]) with
    | some s => (s :: (decodeLoop ct [] β).1, (decodeLoop ct [] β).2)
    | none => decodeLoop ct (acc ++ [b]) β

/-- HSC's own decode of a stream: `DEC_step` on each bit (R144). -/
def decodeSteps (lMax : Nat) (ct : CT) : Dec → Bits → List Symbol × Dec
  | d, [] => ([], d)
  | d, b :: β =>
    match decStep lMax ct d b with
    | (some s, d1) => (s :: (decodeSteps lMax ct d1 β).1, (decodeSteps lMax ct d1 β).2)
    | (none, d1) => decodeSteps lMax ct d1 β

/-! ### The prefix-tree reading (R148) -/

/-- `p` is a node of the current table's tree: a prefix of a valid code (R148). -/
def isNode (ct : CT) (p : Bits) : Bool := ct.entry.toList.any fun e => e.valid && isPrefix p e.bits

/-- Where the walker is: at a node, or outside the tree (R148). -/
inductive Walker where
  | inside (node : Bits)
  | outside
  deriving DecidableEq, Repr

/-- One bit of the walk (R148): to the child, emitting the label of a terminal node and returning to the root. -/
def walkStep (ct : CT) (w : Walker) (b : Bool) : Option Symbol × Walker :=
  match w with
  | .outside => (none, .outside)
  | .inside p =>
    match matchSym ct (p ++ [b]) with
    | some s => (some s, .inside [])
    | none => if isNode ct (p ++ [b]) then (none, .inside (p ++ [b])) else (none, .outside)

/-- The walk along a stream: the symbols emitted and where the walker ends (R148). -/
def walkStream (ct : CT) : Walker → Bits → List Symbol × Walker
  | w, [] => ([], w)
  | w, b :: β =>
    match walkStep ct w b with
    | (some s, w1) => (s :: (walkStream ct w1 β).1, (walkStream ct w1 β).2)
    | (none, w1) => walkStream ct w1 β

/-! ### Runs (R6) -/

/-- Commands one after the other, each to completion (R5, R6). -/
def execAll : List Instr → State → Result
  | [], s => .next s
  | i :: rest, s =>
    match exec i s with
    | .next t => execAll rest t
    | .fault r => .fault r
    | .refused r => .refused r

/-- The commands of an encode session over a text (R125). -/
def encodeSession (text : List Symbol) : List Instr := .encStart :: encText text ++ [.encFlush]

/-- The commands of a decode session (R140): the declared length, the payload bytes, the verdict. -/
def decodeSession (n : Word) (bytes : List (BitVec 8)) : List Instr := .decStart n :: decBytes bytes ++ [.decEnd]

/-- The commands of a table load (R110): `CT_CLR`, then one `CT_ENTRY` per entry. -/
def tableLoad (entries : List (Symbol × Bits)) : List Instr :=
  .ctClr :: entries.flatMap fun e => ctEntry e.1 e.2

/-- The `BYTE` words of payload bytes (R62). -/
def byteWords (bytes : List (BitVec 8)) : List OutWord := bytes.map fun b => outWord .byte (b.setWidth 32)

/-- The `SYM` words of a text (R62). -/
def symWords (text : List Symbol) : List OutWord := text.map fun s => outWord .sym (s.setWidth 32)

end Sys2Proof.Machine
end

