-- ==== Sys2Proof/Machine/HostTree.lean ====
section
/-! DEFINITION. The host's software before the block: priority queue, tree builder and code generator (`48_host_contract.md`
R161 to R166). Not hardware: these are functions beside the machine, and no step calls them. -/

namespace Sys2Proof.HostSide

open Sys2Proof.Machine

/-- The error kinds of the drivers (R179, R209), with names for the two cases D0 has none for. -/
inductive HostError where
  | emptyTree
  | prefixCollision
  | headerMalformed
  | unknownSymbol
  | incompleteCode
  /-- `FA_OVF` or `LEN_OVF`: the input is too long for the parameters (R179). -/
  | inputTooLong
  /-- `ILLEGAL_CMD` or `SEQ`: a driver bug (R179). -/
  | driverBug
  deriving DecidableEq, Repr

/-- A tree node: a leaf, or an internal node owning two children (R162). -/
inductive Tree where
  | leaf (sym : Symbol) (weight : Nat)
  | node (weight : Nat) (left right : Tree)
  deriving DecidableEq, Repr

/-- The weight of a node (R162). -/
def Tree.weight : Tree → Nat
  | .leaf _ w => w
  | .node w _ _ => w

/-- The leaves of a tree, left to right. -/
def Tree.leaves : Tree → List (Symbol × Nat)
  | .leaf s w => [(s, w)]
  | .node _ l r => l.leaves ++ r.leaves

/-- The host's open choices (U1, U2, D30 to D33; log 16): which of the least items the queue yields, the seeding order, which
extracted node is the left child, the order of the header entries. Any functions: a choice that is no legal choice is
ignored in favour of the reference host's. -/
structure Policy where
  pick : List Nat → Nat
  seed : List (Symbol × Nat) → List (Symbol × Nat)
  firstIsLeft : Tree → Tree → Bool
  order : List (Symbol × Bits) → List (Symbol × Bits)

/-- The index of the first least element. -/
def firstMin : List Nat → Nat
  | [] => 0
  | [_] => 0
  | w :: v :: rest => if w ≤ (v :: rest).getD (firstMin (v :: rest)) 0 then 0 else firstMin (v :: rest) + 1

/-- The reference host (R164, R165, R172): first in first out among equal weights, ascending seeding, first extracted node to
the left, ascending header order. -/
def referencePolicy : Policy :=
  { pick := firstMin
    seed := fun t => t
    firstIsLeft := fun _ _ => true
    order := List.insertionSort fun a b => a.1.toNat ≤ b.1.toNat }

/-- The index a policy picks, when it is that of a least element; the first least one otherwise. -/
def pickIndex (π : Policy) (ps : List Nat) : Nat :=
  if π.pick ps < ps.length && ps.all fun p => ps.getD (π.pick ps) 0 ≤ p then π.pick ps else firstMin ps

/-- A reordering by a policy, when it is a permutation. -/
def reorder {α : Type} [DecidableEq α] (f : List α → List α) (l : List α) : List α :=
  if (f l).isPerm l then f l else l

/-- A priority queue in insertion order (R161). -/
abbrev Queue := List (Nat × Tree)

/-- `isEmpty() -> bool` (R161). -/
def Queue.isEmpty (q : Queue) : Bool := List.isEmpty q

/-- `insert(item, priority)` (R161). -/
def Queue.insert (q : Queue) (t : Tree) (priority : Nat) : Queue := q ++ [(priority, t)]

/-- `extractMin() -> item`: remove and return an item of least priority; none if empty (R161). -/
def Queue.extractMin (π : Policy) (q : Queue) : Option (Tree × Queue) :=
  let i := pickIndex π (q.map Prod.fst)
  match q[i]? with
  | none => none
  | some item => some (item.2, q.eraseIdx i)

/-- Merge two nodes: the first extracted goes left unless the policy says otherwise (R162, R165). -/
def mergeNodes (π : Policy) (a b : Tree) : Tree :=
  if π.firstIsLeft a b then .node (a.weight + b.weight) a b else .node (a.weight + b.weight) b a

/-- Extract two, merge, reinsert, until one node remains (R162). -/
def mergeLoop (π : Policy) : Nat → Queue → Option Tree
  | 0, q => (q.extractMin π).map Prod.fst
  | k + 1, q =>
    match q.extractMin π with
    | none => none
    | some (a, q1) =>
      match q1.extractMin π with
      | none => some a
      | some (b, q2) => mergeLoop π k (q2.insert (mergeNodes π a b) (a.weight + b.weight))

/-- `build(table) -> TreeNode` (R162); none for an empty table, which the driver never builds. -/
def build (π : Policy) (table : List (Symbol × Nat)) : Option Tree :=
  mergeLoop π table.length ((reorder π.seed table).map fun e => (e.2, Tree.leaf e.1 e.2))

/-- The paths to the leaves: a left edge appends bit 0, a right edge bit 1 (R166). -/
def Tree.paths : Tree → Bits → List (Symbol × Bits)
  | .leaf s _, p => [(s, p)]
  | .node _ l r, p => l.paths (p ++ [false]) ++ r.paths (p ++ [true])

/-- No code of the list is a prefix of another, equal codes included (R115, R166). -/
def prefixFree : List Bits → Bool
  | [] => true
  | c :: rest => rest.all (fun d => !clash c d) && prefixFree rest

/-- `generate(root) -> CodeTable` (R166): path codes, `"0"` for a root that is a leaf, and the prefix check. -/
def generate : Option Tree → Except HostError (List (Symbol × Bits))
  | none => .error .emptyTree
  | some (.leaf s _) => .ok [(s, [false])]
  | some (.node w l r) =>
    let codes := (Tree.node w l r).paths []
    if prefixFree (codes.map Prod.snd) then .ok codes else .error .prefixCollision

end Sys2Proof.HostSide
end

