-- ==== Sys2Proof/Machine/HostArtifact.lean ====
section
/-! DEFINITION. The persisted artifact: its text header written and read (`48_host_contract.md` R170 to R176). Not hardware. -/

namespace Sys2Proof.HostSide

open Sys2Proof.Machine

/-- A byte of the artifact. -/
abbrev Byte := BitVec 8

/-- `\n` (R170, K1). -/
def newline : Byte := 0x0A#8

/-- `:` (R170, K2). -/
def colon : Byte := 0x3A#8

/-- The bytes of `END_HEADER` (R170). -/
def terminator : List Byte := [0x45#8, 0x4E#8, 0x44#8, 0x5F#8, 0x48#8, 0x45#8, 0x41#8, 0x44#8, 0x45#8, 0x52#8]

/-- The digit byte of a number below ten (K2). -/
def digitByte (d : Nat) : Byte := BitVec.ofNat 8 (0x30 + d)

/-- Shortest decimal form, `0` for zero (R171). -/
def decimal (n : Nat) : List Byte :=
  if n = 0 then [digitByte 0] else ((Nat.digits 10 n).reverse).map digitByte

/-- A code as its bit characters (R170). -/
def bitChars (code : Bits) : List Byte := code.map fun b => if b then digitByte 1 else digitByte 0

/-- One entry line `<symbolCodePoint>:<bitstringCode>\n` (R170). -/
def entryLine (e : Symbol × Bits) : List Byte := decimal e.1.toNat ++ colon :: bitChars e.2 ++ [newline]

/-- The header (R170, R172). -/
def writeHeader (entries : List (Symbol × Bits)) (n : Nat) : List Byte :=
  decimal entries.length ++ newline :: entries.flatMap entryLine ++ terminator ++ newline :: decimal n ++ [newline]

/-- The artifact: header, then payload bytes (R170). -/
def writeArtifact (entries : List (Symbol × Bits)) (n : Nat) (bytes : List Byte) : List Byte :=
  writeHeader entries n ++ bytes

/-- The empty artifact, exactly `0\nEND_HEADER\n0\n` (R176). -/
def emptyArtifact : List Byte :=
  [0x30#8, 0x0A#8, 0x45#8, 0x4E#8, 0x44#8, 0x5F#8, 0x48#8, 0x45#8, 0x41#8, 0x44#8, 0x45#8, 0x52#8, 0x0A#8, 0x30#8, 0x0A#8]

/-! ### Reading -/

/-- What a header holds, and the payload after it (R173). -/
structure Parsed where
  entries : List (Symbol × Bits)
  bitLength : Nat
  payload : List Byte
  deriving DecidableEq, Repr

/-- Split at the first occurrence of a byte, which is dropped. -/
def splitAtByte (b : Byte) : List Byte → Option (List Byte × List Byte)
  | [] => none
  | c :: rest => if c = b then some ([], rest) else (splitAtByte b rest).map fun p => (c :: p.1, p.2)

/-- One ASCII digit (R171). -/
def digitValue (c : Byte) : Option Nat := if 0x30 ≤ c.toNat ∧ c.toNat ≤ 0x39 then some (c.toNat - 0x30) else none

/-- Digits read left to right onto a value. -/
def readDigits : Nat → List Byte → Option Nat
  | n, [] => some n
  | n, c :: rest =>
    match digitValue c with
    | some d => readDigits (10 * n + d) rest
    | none => none

/-- One or more ASCII digits and nothing else (R171, D34). -/
def readDecimal : List Byte → Option Nat
  | [] => none
  | c :: rest => readDigits 0 (c :: rest)

/-- The bit characters of a code; anything but `'0'` and `'1'` is malformed (R174). -/
def readBits : List Byte → Option Bits
  | [] => some []
  | c :: rest =>
    match readBits rest with
    | none => none
    | some β => if c = digitByte 0 then some (false :: β) else if c = digitByte 1 then some (true :: β) else none

/-- An entry line split at its first colon; the code point is at most 255 (R171, R173, C6). -/
def readEntry (line : List Byte) : Option (Symbol × Bits) :=
  match splitAtByte colon line with
  | none => none
  | some (point, code) =>
    match readDecimal point, readBits code with
    | some v, some β => if v < 256 then some (BitVec.ofNat 8 v, β) else none
    | _, _ => none

/-- That many entry lines, and what follows them (R173). -/
def readEntries : Nat → List Byte → Option (List (Symbol × Bits) × List Byte)
  | 0, bytes => some ([], bytes)
  | k + 1, bytes =>
    match splitAtByte newline bytes with
    | none => none
    | some (line, rest) =>
      match readEntry line, readEntries k rest with
      | some e, some (es, tail) => some (e :: es, tail)
      | _, _ => none

/-- Parse the header in its fixed order (R173); none is `HeaderMalformedError` (R174). -/
def parseHeader (P : Params) (bytes : List Byte) : Option Parsed :=
  match splitAtByte newline bytes with
  | none => none
  | some (sizeLine, rest) =>
    match readDecimal sizeLine with
    | none => none
    | some size =>
      if 256 < size then none
      else
        match readEntries size rest with
        | none => none
        | some (entries, rest1) =>
          match splitAtByte newline rest1 with
          | none => none
          | some (line, rest2) =>
            if line ≠ terminator then none
            else
              match splitAtByte newline rest2 with
              | none => none
              | some (lenLine, tail) =>
                match readDecimal lenLine with
                | none => none
                | some n =>
                  if n < 2 ^ P.wLen then some { entries := entries, bitLength := n, payload := tail } else none

end Sys2Proof.HostSide
end

