-- ==== Sys2Proof/Machine/HostDriver.lean ====
section
/-! DEFINITION. The host's compress and decompress drivers as HSC commands (`48_host_contract.md` R177 to R179). Not hardware:
they offer command words, step the machine and take its output words. -/

namespace Sys2Proof.HostSide

open Sys2Proof.Machine

/-- Offer one command, let HSC execute it, and take every word it computed (R63, R235, log 19). -/
def issue (i : Instr) (s : State) : List OutWord × State :=
  match step (offerFirst (encode i) s) with
  | .next t => (t.port.outQ, { t with port := { t.port with outQ := [], delivered := t.port.delivered ++ t.port.outQ } })
  | .fault _ => ([], s)
  | .refused _ => ([], s)

/-- The kind byte of an output word (R62). -/
def wordKind (w : OutWord) : BitVec 8 := w.extractLsb' 32 8

/-- The value of an output word (R62). -/
def wordValue (w : OutWord) : Word := w.extractLsb' 0 32

/-- The values of the words of one kind, in order. -/
def valuesOf (k : OutKind) (ws : List OutWord) : List Word :=
  (ws.filter fun w => wordKind w == k.code).map wordValue

/-- How an `ERR` code surfaces during compress (R179; log 19). -/
def compressError (code : Word) : HostError :=
  if code = 8 then .unknownSymbol
  else if code = 7 then .prefixCollision
  else if code = 3 ∨ code = 9 then .inputTooLong
  else .driverBug

/-- How an `ERR` code surfaces during decompress (R179; log 19). -/
def decompressError (code : Word) : HostError :=
  if code = 4 ∨ code = 5 ∨ code = 6 ∨ code = 7 then .headerMalformed
  else if code = 10 ∨ code = 11 then .incompleteCode
  else .driverBug

/-- Issue commands in order; any `ERR` word aborts the call (R177, R178, R232). -/
def issueAll (err : Word → HostError) : List Instr → State → Except HostError (List OutWord) × State
  | [], s => (.ok [], s)
  | i :: rest, s =>
    let r := issue i s
    match valuesOf .err r.1 with
    | code :: _ => (.error (err code), r.2)
    | [] =>
      match issueAll err rest r.2 with
      | (.ok ws, t) => (.ok (r.1 ++ ws), t)
      | (.error e, t) => (.error e, t)

/-- The FrequencyTable read out of FA (R104, R177): the positive counts in ascending symbol order. -/
def tableOf (counts : List Word) : List (Symbol × Nat) :=
  ((allSymbols.zip counts).filter fun e => e.2 ≠ 0).map fun e => (e.1, e.2.toNat)

/-- Compress, once the frequency table is known (R177): codes, table load, encode session, artifact. -/
def compressWith (π : Policy) (table : List (Symbol × Nat)) (text : List Symbol) (s : State) :
    Except HostError (List Byte) × State :=
  match generate (build π table) with
  | .error e => (.error e, s)
  | .ok codes =>
    let entries := reorder π.order codes
    match issueAll compressError (tableLoad entries) s with
    | (.error e, t) => (.error e, t)
    | (.ok _, t) =>
      match issueAll compressError (encodeSession text) t with
      | (.error e, u) => (.error e, u)
      | (.ok ws, u) =>
        (.ok (writeArtifact entries ((valuesOf .len ws).headD 0).toNat ((valuesOf .byte ws).map (BitVec.setWidth 8))), u)

/-- Compress (R177). -/
def compress (π : Policy) (text : List Symbol) (s : State) : Except HostError (List Byte) × State :=
  match issueAll compressError (.faClr :: faText text ++ [.rdReg 3#8]) s with
  | (.error e, t) => (.error e, t)
  | (.ok ws, t) =>
    if (valuesOf .data ws).headD 0 = 0 then (.ok emptyArtifact, t)
    else
      match issueAll compressError (allSymbols.map .faRd) t with
      | (.error e, u) => (.error e, u)
      | (.ok counts, u) => compressWith π (tableOf (valuesOf .data counts)) text u

/-- Decompress (R178): the text of the `SYM` words when the verdict is `DONE`; on any `ERR` word nothing of the session is
kept (R153, R232). -/
def decompress (bytes : List Byte) (s : State) : Except HostError (List Symbol) × State :=
  match parseHeader s.params bytes with
  | none => (.error .headerMalformed, s)
  | some h =>
    match issueAll decompressError (tableLoad h.entries) s with
    | (.error e, t) => (.error e, t)
    | (.ok _, t) =>
      if h.bitLength = 0 then (.ok [], t)
      else
        match issueAll decompressError (decodeSession (BitVec.ofNat 32 h.bitLength) h.payload) t with
        | (.error e, u) => (.error e, u)
        | (.ok ws, u) => (.ok ((valuesOf .sym ws).map (BitVec.setWidth 8)), u)

end Sys2Proof.HostSide
end

