-- ==== Sys2Proof/Safety.lean ====
section
/-! DEFINITION. What the spec says of the whole machine, written apart from the meanings: the legality table (R208), the
order of faults (R203), the side effects of each fault (R205), and the invariants of the state (R14, R18, R20, R21, R24). -/

namespace Sys2Proof.Machine

/-- The legality table (R208): the state in which a command does not raise `SEQ`. -/
def Legal (s : State) : Instr → Prop
  | .nop => True
  | .rdReg _ => True
  | .clrErr => True
  | .faClr => True
  | .faPush _ => s.fa.init = true
  | .faRd _ => s.fa.init = true
  | .ctClr => s.enc.state = .idle ∧ s.dec.state = .idle
  | .ctBegin _ => s.ct.init = true ∧ s.ct.ldActive = false ∧ s.enc.state = .idle ∧ s.dec.state = .idle
  | .ctBit _ => s.ct.ldActive = true
  | .ctEnd => s.ct.ldActive = true
  | .encStart => s.enc.state = .idle ∧ s.ct.init = true ∧ s.ct.ldActive = false
  | .encPush _ => s.enc.state = .active
  | .encFlush => s.enc.state = .active
  | .decStart _ => s.dec.state = .idle ∧ s.ct.init = true ∧ s.ct.ldActive = false
  | .decPush _ => s.dec.state = .active
  | .decEnd => s.dec.state = .active

/-- `collides(c)` as R115 words it: some valid symbol's code is a prefix of `c`, or `c` of it. -/
def Collides (ct : CT) (c : Bits) : Prop :=
  ∃ t : Symbol, (readAt ct.entry t).valid = true ∧
    ((readAt ct.entry t).bits <+: c ∨ c <+: (readAt ct.entry t).bits)

/-- When each fault's cause holds for a command in a state (the "cause" column of R190), whatever other causes hold. -/
def Cause (s : State) : Instr → FaultKind → Prop
  | .rdReg idx, .illegalCmd => 8 < idx.toNat
  | .faPush _, .faOvf => s.fa.total.toNat = 2 ^ s.params.wCnt - 1
  | .ctBegin sym, .dupSymbol => (readAt s.ct.entry sym).valid = true
  | .ctBit _, .codeTooLong => s.ct.ldCode.length = s.params.lMax
  | .ctEnd, .codeEmpty => s.ct.ldCode = []
  | .ctEnd, .prefixCollision => Collides s.ct s.ct.ldCode
  | .encPush sym, .unknownSymbol => (readAt s.ct.entry sym).valid = false
  | .encPush sym, .lenOvf => 2 ^ s.params.wLen - 1 < s.pack.nbits.toNat + (readAt s.ct.entry sym).len.toNat
  | .decEnd, .payloadShort => s.unpack.remain ≠ 0
  | .decEnd, .incompleteCode => s.dec.dead = true ∨ s.dec.acc ≠ []
  | i, .seq => ¬ Legal s i
  | _, _ => False

/-- The order in which R203 looks at the faults: `ILLEGAL_CMD`, `SEQ`, then the data faults in the order the commands test
them (`CODE_EMPTY` before `PREFIX_COLLISION`, `UNKNOWN_SYMBOL` before `LEN_OVF`, `PAYLOAD_SHORT` before
`INCOMPLETE_CODE`). -/
def FaultKind.priority : FaultKind → Nat
  | .illegalCmd => 0
  | .seq => 1
  | .faOvf => 2
  | .dupSymbol => 3
  | .codeEmpty => 4
  | .codeTooLong => 5
  | .prefixCollision => 6
  | .unknownSymbol => 7
  | .lenOvf => 8
  | .payloadShort => 9
  | .incompleteCode => 10

/-- The additional state change of each fault (the table of R205). -/
def sideEffect : FaultKind → State → State
  | .illegalCmd, s => s
  | .seq, s => s
  | .faOvf, s => s
  | .dupSymbol, s => s
  | .codeEmpty, s => endLoad s
  | .codeTooLong, s => endLoad s
  | .prefixCollision, s => endLoad s
  | .unknownSymbol, s => endEncode s
  | .lenOvf, s => endEncode s
  | .incompleteCode, s => endDecode s
  | .payloadShort, s => endDecode s

/-- A state with words appended to its output, in order (R51). -/
def withOutput (ws : List OutWord) (s : State) : State :=
  { s with port := { s.port with outQ := s.port.outQ ++ ws } }

/-- The state a fault leaves (R202): the additional change of R205, `ERR[code] <- 1`, and exactly one `ERR` word. -/
def raised (f : FaultKind) (s : State) : State :=
  withOutput [outWord .err (BitVec.ofNat 32 f.code)]
    { sideEffect f s with err := s.err ||| (1#32 <<< f.code) }

/-- The units of the opcode map (R67). -/
inductive CmdUnit where
  | system
  | fa
  | ct
  | enc
  | dec
  deriving DecidableEq, Repr

/-- The unit of a command (R67). -/
def unitOf : Instr → CmdUnit
  | .nop => .system
  | .rdReg _ => .system
  | .clrErr => .system
  | .faClr => .fa
  | .faPush _ => .fa
  | .faRd _ => .fa
  | .ctClr => .ct
  | .ctBegin _ => .ct
  | .ctBit _ => .ct
  | .ctEnd => .ct
  | .encStart => .enc
  | .encPush _ => .enc
  | .encFlush => .enc
  | .decStart _ => .dec
  | .decPush _ => .dec
  | .decEnd => .dec

/-! ### Invariants -/

/-- The invariants of FA (R18): (a), (b), and the bound of (c). -/
structure FaInv (P : Params) (fa : FA) : Prop where
  total_eq : fa.total.toNat = (fa.count.toList.map BitVec.toNat).sum
  distinct_eq : fa.distinct.toNat = fa.count.toList.countP (· ≠ 0#32)
  total_lt : fa.total.toNat < 2 ^ P.wCnt

/-- The invariants of CT (R20): (a), (b) with the code as long as its length says (R19), (c). -/
structure CtInv (P : Params) (ct : CT) : Prop where
  n_eq : ct.n.toNat = ct.entry.toList.countP (·.valid)
  len_pos : ∀ s, (readAt ct.entry s).valid = true → 1 ≤ (readAt ct.entry s).len.toNat
  len_le : ∀ s, (readAt ct.entry s).valid = true → (readAt ct.entry s).len.toNat ≤ P.lMax
  code_len : ∀ s, (readAt ct.entry s).valid = true → (readAt ct.entry s).code.length = (readAt ct.entry s).len.toNat
  prefix_free : ∀ s t, s ≠ t → (readAt ct.entry s).valid = true → (readAt ct.entry t).valid = true →
    ¬ (readAt ct.entry s).bits <+: (readAt ct.entry t).bits

/-- A load in progress (R21): CT is initialised, both sessions are idle, the bits received fit, and the symbol has no code
yet (R112). -/
structure LoadInv (s : State) : Prop where
  init : s.ct.init = true
  enc_idle : s.enc.state = .idle
  dec_idle : s.dec.state = .idle
  length_le : s.ct.ldCode.length ≤ s.params.lMax
  unassigned : (readAt s.ct.entry s.ct.ldSym).valid = false

/-- The invariants of PACK while a session is active (R24 a, b). -/
structure PackInv (p : Pack) : Prop where
  fill_eq : p.fill.toNat = p.nbits.toNat % 8
  low_zero : ∀ i, i + p.fill.toNat < 8 → p.acc.getLsbD i = false

/-- The accumulator of DEC (R26, R146): at most `L_MAX` bits, and `DEC.dead` exactly when it is that long. -/
structure DecInv (P : Params) (d : Dec) : Prop where
  length_le : d.acc.length ≤ P.lMax
  dead_iff : d.dead = true ↔ d.acc.length = P.lMax

/-- The six kinds of output word with the bits each leaves zero (R62). -/
def OutWordOk (w : OutWord) : Prop :=
  (∃ v : Word, w = outWord .data v) ∨
  (∃ b : BitVec 8, w = outWord .byte (b.setWidth 32)) ∨
  (∃ v : Word, w = outWord .len v) ∨
  (∃ b : BitVec 8, w = outWord .sym (b.setWidth 32)) ∨
  w = outWord .done 0 ∨
  (∃ f : FaultKind, w = errWord f)

/-- What every step keeps: the parameters are legal (U32), `ERR`'s other bits are 0 (R14), the units' invariants (R18, R20,
R21, R24, R146), a session has its table (R126, R141), the counters fit (R131, R146), and only words of R62 are pending. -/
structure Inv (s : State) : Prop where
  params : s.params.wf = true
  err : s.err &&& ~~~errFlagMask = 0
  fa : s.fa.init = true → FaInv s.params s.fa
  ct : s.ct.init = true → CtInv s.params s.ct
  load : s.ct.ldActive = true → LoadInv s
  enc_table : s.enc.state = .active → s.ct.init = true
  dec_table : s.dec.state = .active → s.ct.init = true
  pack : s.enc.state = .active → PackInv s.pack
  nbits_lt : s.pack.nbits.toNat < 2 ^ s.params.wLen
  remain_lt : s.unpack.remain.toNat < 2 ^ s.params.wLen
  dec : DecInv s.params s.dec
  pending : ∀ w ∈ s.port.outQ, OutWordOk w
  delivered : ∀ w ∈ s.port.delivered, OutWordOk w

end Sys2Proof.Machine
end

