-- ==== Sys2Proof/Certificates/Slice0/Obligations.lean ====
section
/-! DEFINITION. The statements for the provers. Each follows numbered rules of spec/, named in its docstring. -/

open Sys2Proof Sys2Proof.Machine Sys2Proof.HostSide

/-! ### Encoding -/

/-- R60, R61, R65, R67: decoding the word of a well-formed command gives it back, every operand at every value. -/
def Obligations.DecodeOfEncode : Prop :=
  ∀ (P : Params) (i : Instr), WellFormed P i = true → decode P (encode i) = .ok i

/-- R60, R61, R67: a word that decodes is the word of the command it decodes to, so no bit of a word is ignored. -/
def Obligations.EncodeOfDecode : Prop :=
  ∀ (P : Params) (w : CmdWord) (i : Instr), decode P w = .ok i → encode i = w ∧ WellFormed P i = true

/-- R67, R68 at the default parameters: a word decodes exactly when it matches a row of the opcode map, the row is the
command's, and no word matches two rows. -/
def Obligations.DecodeFollowsOpcodeMap : Prop :=
  ∀ w : CmdWord,
    (∀ i, decode Config.params w = .ok i → ∃ r ∈ opcodeRows, r.mnemonic = mnemonicOf i ∧ w &&& r.maskBits = r.matchBits) ∧
    (∀ r ∈ opcodeRows, w &&& r.maskBits = r.matchBits →
      ∃ i, decode Config.params w = .ok i ∧ mnemonicOf i = r.mnemonic) ∧
    (∀ r ∈ opcodeRows, ∀ r' ∈ opcodeRows, w &&& r.maskBits = r.matchBits → w &&& r'.maskBits = r'.matchBits → r = r')

/-- The sample words of `95_test_vectors.md` section 2.1 (R60, R61, R67), and words of it that are no command (R68). -/
def Obligations.SampleWordsDecode : Prop :=
  decode Config.params 0x0000000000#40 = .ok .nop ∧
  decode Config.params 0x0100000008#40 = .ok (.rdReg 8#8) ∧
  decode Config.params 0x1100000041#40 = .ok (.faPush 65#8) ∧
  decode Config.params 0x2200000001#40 = .ok (.ctBit true) ∧
  decode Config.params 0x2200000000#40 = .ok (.ctBit false) ∧
  decode Config.params 0x3200000000#40 = .ok .encFlush ∧
  decode Config.params 0x400000000E#40 = .ok (.decStart 14#32) ∧
  decode Config.params 0x41000000AF#40 = .ok (.decPush 0xAF#8) ∧
  decode Config.params 0x0500000000#40 = .error (.undefinedOpcode 0x05#8) ∧
  decode Config.params 0x1100000100#40 = .error (.reservedBits 0x11#8) ∧
  decode Config.params 0x0280000000#40 = .error (.reservedBits 0x02#8)

/-! ### The step and the ports -/

/-- R90: the common prologue. A word that is no command raises `ILLEGAL_CMD` and changes nothing else; any other word runs
its command's rule. Which of the two depends on the word (and the parameters) alone. -/
def Obligations.PrologueOfEveryCommand : Prop :=
  ∀ (s : State) (w : CmdWord) (rest : List HostEvent), s.port.inbox = .cmd w :: rest →
    (∀ e, decode s.params w = .error e →
      step s = .next { s with
        err := s.err ||| 0x00000002#32
        port := { s.port with inbox := rest, outQ := s.port.outQ ++ [0x0F00000001#40] } }) ∧
    (∀ i, decode s.params w = .ok i → step s = exec i { s with port := { s.port with inbox := rest } })

/-- R5, R60: a step runs the command of the word offered first, and `withFetchWord` offers it. -/
def Obligations.StepRunsDecodedCommand : Prop :=
  ∀ (s : State) (i : Instr), WellFormed s.params i = true →
    (∀ rest, s.port.inbox = .cmd (encode i) :: rest →
      step s = exec i { s with port := { s.port with inbox := rest } }) ∧
    step (s.withFetchWord 40 (encode i).toNat) = exec i s

/-- R5, R6: a step is total, and HSC never halts: every command in every state, and every host event, gives a next state. -/
def Obligations.EveryStepCompletes : Prop :=
  (∀ (s : State) (i : Instr), ∃ t, exec i s = .next t) ∧ (∀ s : State, ∃ t, step s = .next t)

/-- R216, R63: with nothing offered HSC holds its state; taking a word delivers the oldest pending one and changes nothing
else; with none pending nothing is delivered. -/
def Obligations.IdleAndDelivery : Prop :=
  ∀ s : State,
    (s.port.inbox = [] → step s = .next s) ∧
    (∀ rest w ws, s.port.inbox = .take :: rest → s.port.outQ = w :: ws →
      step s = .next { s with port := { inbox := rest, outQ := ws, delivered := s.port.delivered ++ [w] } }) ∧
    (∀ rest, s.port.inbox = .take :: rest → s.port.outQ = [] →
      step s = .next { s with port := { s.port with inbox := rest } })

/-- R30, R220, R222: a reset, in any state, gives every element its value of R30 and leaves no word pending. That the host's
script and record, the parameters and the reset counter are handled as here is the model's own (log 1, log 2, log 3, log 5). -/
def Obligations.ResetRestoresEveryElement : Prop :=
  ∀ (s : State) (rest : List HostEvent), s.port.inbox = .reset :: rest →
    ∃ t, step s = .next t ∧
      t.err = 0 ∧ t.fa.init = false ∧ t.fa.total = 0 ∧ t.fa.distinct = 0 ∧
      t.ct.init = false ∧ t.ct.n = 0 ∧ t.ct.ldActive = false ∧ t.ct.ldSym = 0 ∧ t.ct.ldCode = [] ∧
      t.enc.state = .idle ∧ t.pack.acc = 0 ∧ t.pack.fill = 0 ∧ t.pack.nbits = 0 ∧
      t.dec.state = .idle ∧ t.unpack.remain = 0 ∧ t.dec.acc = [] ∧ t.dec.dead = false ∧
      t.port.outQ = [] ∧ t.port.inbox = rest ∧ t.port.delivered = s.port.delivered ∧ t.params = s.params

/-- R224: immediately after reset the nine registers read their reset values. -/
def Obligations.RegistersAfterReset : Prop :=
  ∀ (idx : BitVec 8) (v : Word),
    (idx, v) ∈ [(0#8, 0x48534331#32), (1#8, 0#32), (2#8, 0#32), (3#8, 0#32), (4#8, 0#32), (5#8, 0#32), (6#8, 0#32),
      (7#8, 0#32), (8#8, 0x082020FF#32)] →
    exec (.rdReg idx) State.reset = .next (withOutput [outWord .data v] State.reset)

/-- R221: before `FA_CLR` and `CT_CLR` no behaviour depends on the unspecified arrays: with any other contents each command
gives the same result. -/
def Obligations.UnspecifiedArraysAreUnread : Prop :=
  ∀ (i : Instr) (s t : State),
    (s.fa.init = false → ∀ c, exec i s = .next t →
      exec i { s with fa := { s.fa with count := c } } =
        .next (if i = .faClr then t else { t with fa := { t.fa with count := c } })) ∧
    (s.ct.init = false → s.ct.ldActive = false → s.enc.state = .idle → s.dec.state = .idle → i ≠ .ctClr →
      ∀ e, exec i s = .next t →
        exec i { s with ct := { s.ct with entry := e } } = .next { t with ct := { t.ct with entry := e } })

/-- R51: no output word is dropped, duplicated or reordered: a step that is not a reset only appends to the sequence of all
words delivered and pending, whatever the host does at the output port. -/
def Obligations.OutputOrderIsKept : Prop :=
  ∀ (s t : State), (∀ rest, s.port.inbox ≠ .reset :: rest) → step s = .next t →
    ∃ ws, t.port.delivered ++ t.port.outQ = s.port.delivered ++ s.port.outQ ++ ws ∧
      ((∀ w rest, s.port.inbox ≠ .cmd w :: rest) → ws = [])

/-! ### The sixteen commands, each rule whole -/

/-- R91: `NOP` does nothing. -/
def Obligations.NopDoesNothing : Prop :=
  (∀ s, exec .nop s = .next s) ∧ encode .nop = 0x0000000000#40 ∧
  ∀ (s : State) (op : Word), op ≠ 0#32 → step (offerFirst (cmdWord 0x00#8 op) s) = .next (raised .illegalCmd s)

/-- R92 with the map of R13, the flags of R14 and R15, and the constants of R16: `RD_REG` emits the register and changes
nothing; an index above 8 raises `ILLEGAL_CMD`. -/
def Obligations.RdRegReadsTheMap : Prop :=
  (∀ s : State,
    exec (.rdReg 0#8) s = .next (withOutput [outWord .data 0x48534331#32] s) ∧
    (∃ v : Word, exec (.rdReg 1#8) s = .next (withOutput [outWord .data v] s) ∧
      ∀ k < 32, v.getLsbD k = (decide (1 ≤ k ∧ k ≤ 11) && s.err.getLsbD k)) ∧
    (∃ v : Word, exec (.rdReg 2#8) s = .next (withOutput [outWord .data v] s) ∧
      v.getLsbD 0 = decide (s.enc.state = .active) ∧ v.getLsbD 1 = decide (s.dec.state = .active) ∧
      v.getLsbD 2 = s.fa.init ∧ v.getLsbD 3 = s.ct.init ∧ v.getLsbD 4 = s.ct.ldActive ∧
      ∀ k, 5 ≤ k → v.getLsbD k = false) ∧
    exec (.rdReg 3#8) s = .next (withOutput [outWord .data s.fa.total] s) ∧
    exec (.rdReg 4#8) s = .next (withOutput [outWord .data (BitVec.ofNat 32 s.fa.distinct.toNat)] s) ∧
    exec (.rdReg 5#8) s = .next (withOutput [outWord .data (BitVec.ofNat 32 s.ct.n.toNat)] s) ∧
    exec (.rdReg 6#8) s = .next (withOutput [outWord .data s.pack.nbits] s) ∧
    exec (.rdReg 7#8) s = .next (withOutput [outWord .data s.unpack.remain] s) ∧
    (s.params.wf = true → exec (.rdReg 8#8) s = .next (withOutput [outWord .data
      (BitVec.ofNat 32 (8 * 2 ^ 24 + s.params.wLen * 2 ^ 16 + s.params.wCnt * 2 ^ 8 + s.params.lMax))] s)) ∧
    (∀ idx : BitVec 8, 8 < idx.toNat → exec (.rdReg idx) s = .next (raised .illegalCmd s))) ∧
  (∀ idx : BitVec 8, (encode (.rdReg idx)).toNat = 0x0100000000 + idx.toNat) ∧
  (∀ (s : State) (op : Word), op >>> 8 ≠ 0#32 → step (offerFirst (cmdWord 0x01#8 op) s) = .next (raised .illegalCmd s))

/-- R93: `CLR_ERR` clears the sticky flags and changes nothing else. -/
def Obligations.ClrErrClearsTheFlags : Prop :=
  (∀ s, exec .clrErr s = .next { s with err := 0 }) ∧ encode .clrErr = 0x0200000000#40 ∧
  ∀ (s : State) (op : Word), op ≠ 0#32 → step (offerFirst (cmdWord 0x02#8 op) s) = .next (raised .illegalCmd s)

/-- R101: `FA_CLR` empties the histogram, in every state, and is the only command that sets `FA.init`. -/
def Obligations.FaClrEmptiesTheHistogram : Prop :=
  (∀ s, ∃ t, exec .faClr s = .next t ∧ (∀ sym, readAt t.fa.count sym = 0) ∧ t.fa.total = 0 ∧ t.fa.distinct = 0 ∧
    t.fa.init = true ∧ { t with fa := s.fa } = s) ∧
  encode .faClr = 0x1000000000#40 ∧
  (∀ (i : Instr) (s t : State), exec i s = .next t → s.fa.init = false → t.fa.init = true → i = .faClr) ∧
  ∀ (s : State) (op : Word), op ≠ 0#32 → step (offerFirst (cmdWord 0x10#8 op) s) = .next (raised .illegalCmd s)

/-- R102: `FA_PUSH` counts one occurrence of its symbol; `SEQ` before `FA_CLR`, `FA_OVF` at the maximum. -/
def Obligations.FaPushCountsOneSymbol : Prop :=
  (∀ (s : State) (sym : Symbol),
    (s.fa.init = false → exec (.faPush sym) s = .next (raised .seq s)) ∧
    (s.fa.init = true → s.fa.total.toNat = 2 ^ s.params.wCnt - 1 → exec (.faPush sym) s = .next (raised .faOvf s)) ∧
    (s.fa.init = true → s.fa.total.toNat ≠ 2 ^ s.params.wCnt - 1 →
      ∃ t, exec (.faPush sym) s = .next t ∧
        readAt t.fa.count sym = readAt s.fa.count sym + 1 ∧
        (∀ r, r ≠ sym → readAt t.fa.count r = readAt s.fa.count r) ∧
        t.fa.total = s.fa.total + 1 ∧
        (readAt s.fa.count sym = 0 → t.fa.distinct = s.fa.distinct + 1) ∧
        (readAt s.fa.count sym ≠ 0 → t.fa.distinct = s.fa.distinct) ∧
        t.fa.init = true ∧ { t with fa := s.fa } = s)) ∧
  (∀ sym : Symbol, (encode (.faPush sym)).toNat = 0x1100000000 + sym.toNat) ∧
  ∀ (s : State) (op : Word), op >>> 8 ≠ 0#32 → step (offerFirst (cmdWord 0x11#8 op) s) = .next (raised .illegalCmd s)

/-- R103: `FA_RD` emits one counter and changes nothing; `SEQ` before `FA_CLR`. -/
def Obligations.FaRdReadsOneCounter : Prop :=
  (∀ (s : State) (sym : Symbol),
    (s.fa.init = false → exec (.faRd sym) s = .next (raised .seq s)) ∧
    (s.fa.init = true → exec (.faRd sym) s = .next (withOutput [outWord .data (readAt s.fa.count sym)] s))) ∧
  (∀ sym : Symbol, (encode (.faRd sym)).toNat = 0x1200000000 + sym.toNat) ∧
  ∀ (s : State) (op : Word), op >>> 8 ≠ 0#32 → step (offerFirst (cmdWord 0x12#8 op) s) = .next (raised .illegalCmd s)

/-- R111: `CT_CLR` empties the table and abandons a load; lengths and codes are not written; `SEQ` during a session.
It is the only command that sets `CT.init`. -/
def Obligations.CtClrEmptiesTheTable : Prop :=
  (∀ s : State,
    (s.enc.state = .active ∨ s.dec.state = .active → exec .ctClr s = .next (raised .seq s)) ∧
    (s.enc.state = .idle → s.dec.state = .idle →
      ∃ t, exec .ctClr s = .next t ∧
        (∀ r, readAt t.ct.entry r = { readAt s.ct.entry r with valid := false }) ∧
        t.ct.n = 0 ∧ t.ct.ldActive = false ∧ t.ct.init = true ∧
        t.ct.ldSym = s.ct.ldSym ∧ t.ct.ldCode = s.ct.ldCode ∧ { t with ct := s.ct } = s)) ∧
  encode .ctClr = 0x2000000000#40 ∧
  (∀ (i : Instr) (s t : State), exec i s = .next t → s.ct.init = false → t.ct.init = true → i = .ctClr) ∧
  ∀ (s : State) (op : Word), op ≠ 0#32 → step (offerFirst (cmdWord 0x20#8 op) s) = .next (raised .illegalCmd s)

/-- R112: `CT_BEGIN` starts a load with no bits; `SEQ` as its rule says, `DUP_SYMBOL` when the symbol has a code. No command but
`CT_CLR` removes or overwrites an entry; its premise `LoadInv` is part of the invariant every step keeps. -/
def Obligations.CtBeginStartsALoad : Prop :=
  (∀ (s : State) (sym : Symbol),
    (s.ct.init = false ∨ s.ct.ldActive = true ∨ s.enc.state = .active ∨ s.dec.state = .active →
      exec (.ctBegin sym) s = .next (raised .seq s)) ∧
    (s.ct.init = true → s.ct.ldActive = false → s.enc.state = .idle → s.dec.state = .idle →
      ((readAt s.ct.entry sym).valid = true → exec (.ctBegin sym) s = .next (raised .dupSymbol s)) ∧
      ((readAt s.ct.entry sym).valid = false → exec (.ctBegin sym) s =
        .next { s with ct := { s.ct with ldActive := true, ldSym := sym, ldCode := [] } }))) ∧
  (∀ (i : Instr) (s t : State) (r : Symbol), (s.ct.ldActive = true → LoadInv s) → exec i s = .next t → i ≠ .ctClr →
    (readAt s.ct.entry r).valid = true → readAt t.ct.entry r = readAt s.ct.entry r) ∧
  (∀ sym : Symbol, (encode (.ctBegin sym)).toNat = 0x2100000000 + sym.toNat) ∧
  ∀ (s : State) (op : Word), op >>> 8 ≠ 0#32 → step (offerFirst (cmdWord 0x21#8 op) s) = .next (raised .illegalCmd s)

/-- R113: `CT_BIT` appends one bit at the end of the code being loaded; the bit past `L_MAX` abandons the load. -/
def Obligations.CtBitAppendsOneBit : Prop :=
  (∀ (s : State) (b : Bool),
    (s.ct.ldActive = false → exec (.ctBit b) s = .next (raised .seq s)) ∧
    (s.ct.ldActive = true → s.ct.ldCode.length = s.params.lMax →
      exec (.ctBit b) s = .next (raised .codeTooLong { s with ct := { s.ct with ldActive := false } })) ∧
    (s.ct.ldActive = true → s.ct.ldCode.length ≠ s.params.lMax →
      exec (.ctBit b) s = .next { s with ct := { s.ct with ldCode := s.ct.ldCode ++ [b] } })) ∧
  (∀ b : Bool, (encode (.ctBit b)).toNat = 0x2200000000 + b.toNat) ∧
  ∀ (s : State) (op : Word), op >>> 1 ≠ 0#32 → step (offerFirst (cmdWord 0x22#8 op) s) = .next (raised .illegalCmd s)

/-- R114 with the test of R115: `CT_END` installs the loaded code, or refuses it; the load ends in every outcome.
In states that meet the invariant `CT.n` does not pass 256. -/
def Obligations.CtEndInstallsTheCode : Prop :=
  (∀ s : State,
    (s.ct.ldActive = false → exec .ctEnd s = .next (raised .seq s)) ∧
    (s.ct.ldActive = true → s.ct.ldCode = [] →
      exec .ctEnd s = .next (raised .codeEmpty { s with ct := { s.ct with ldActive := false } })) ∧
    (s.ct.ldActive = true → s.ct.ldCode ≠ [] → Collides s.ct s.ct.ldCode →
      exec .ctEnd s = .next (raised .prefixCollision { s with ct := { s.ct with ldActive := false } })) ∧
    (s.ct.ldActive = true → s.ct.ldCode ≠ [] → ¬ Collides s.ct s.ct.ldCode →
      ∃ t, exec .ctEnd s = .next t ∧
        readAt t.ct.entry s.ct.ldSym =
          { valid := true, len := BitVec.ofNat 8 s.ct.ldCode.length, code := s.ct.ldCode } ∧
        (∀ r, r ≠ s.ct.ldSym → readAt t.ct.entry r = readAt s.ct.entry r) ∧
        t.ct.n = s.ct.n + 1 ∧ t.ct.ldActive = false ∧ t.ct.init = s.ct.init ∧ t.ct.ldSym = s.ct.ldSym ∧
        t.ct.ldCode = s.ct.ldCode ∧ { t with ct := s.ct } = s)) ∧
  encode .ctEnd = 0x2300000000#40 ∧
  (∀ s t : State, Inv s → s.ct.ldActive = true → exec .ctEnd s = .next t → t.ct.n.toNat ≤ 256) ∧
  ∀ (s : State) (op : Word), op ≠ 0#32 → step (offerFirst (cmdWord 0x23#8 op) s) = .next (raised .illegalCmd s)

/-- R126: `ENC_START` begins a session and empties PACK. -/
def Obligations.EncStartOpensASession : Prop :=
  (∀ s : State,
    (s.enc.state = .active ∨ s.ct.init = false ∨ s.ct.ldActive = true → exec .encStart s = .next (raised .seq s)) ∧
    (s.enc.state = .idle → s.ct.init = true → s.ct.ldActive = false → exec .encStart s =
      .next { s with pack := { acc := 0, fill := 0, nbits := 0 }, enc := { state := .active } })) ∧
  encode .encStart = 0x3000000000#40 ∧
  ∀ (s : State) (op : Word), op ≠ 0#32 → step (offerFirst (cmdWord 0x30#8 op) s) = .next (raised .illegalCmd s)

/-- R127 with R128: `ENC_PUSH` appends the symbol's code to the stream. Where PACK holds what R24 says, the pending bits
followed by the code are packed most significant bit first: whole bytes are emitted, at most 32, the rest is held, and
`PACK.nbits` grows by the code's length. The premise `PackInv` is the invariant of R24, kept by every step (StepKeepsInvariant). -/
def Obligations.EncPushPacksOneCode : Prop :=
  (∀ (s : State) (sym : Symbol),
    (s.enc.state = .idle → exec (.encPush sym) s = .next (raised .seq s)) ∧
    (s.enc.state = .active → (readAt s.ct.entry sym).valid = false →
      exec (.encPush sym) s = .next (raised .unknownSymbol { s with enc := { state := .idle } })) ∧
    (s.enc.state = .active → (readAt s.ct.entry sym).valid = true →
      2 ^ s.params.wLen - 1 < s.pack.nbits.toNat + (readAt s.ct.entry sym).len.toNat →
      exec (.encPush sym) s = .next (raised .lenOvf { s with enc := { state := .idle } })) ∧
    (∀ β, s.enc.state = .active → (readAt s.ct.entry sym).valid = true →
      s.pack.nbits.toNat + (readAt s.ct.entry sym).len.toNat ≤ 2 ^ s.params.wLen - 1 → PackInv s.pack →
      β = (byteBits s.pack.acc).take s.pack.fill.toNat ++ (readAt s.ct.entry sym).bits →
      β.length / 8 ≤ 32 ∧ exec (.encPush sym) s = .next
        (withOutput (byteWords ((payload β).take (β.length / 8)))
          { s with pack :=
            { acc := payloadByte β (β.length / 8)
              fill := BitVec.ofNat 3 (β.length % 8)
              nbits := s.pack.nbits + BitVec.ofNat 32 (readAt s.ct.entry sym).bits.length } }))) ∧
  (∀ sym : Symbol, (encode (.encPush sym)).toNat = 0x3100000000 + sym.toNat) ∧
  ∀ (s : State) (op : Word), op >>> 8 ≠ 0#32 → step (offerFirst (cmdWord 0x31#8 op) s) = .next (raised .illegalCmd s)

/-- R129: `ENC_FLUSH` emits the padded last byte if one is pending, then the exact bit length, and ends the session;
from then on PACK keeps its values until the next `ENC_START`. -/
def Obligations.EncFlushReportsTheLength : Prop :=
  (∀ s : State,
    (s.enc.state = .idle → exec .encFlush s = .next (raised .seq s)) ∧
    (s.enc.state = .active → s.pack.fill ≠ 0 → exec .encFlush s = .next
      (withOutput [outWord .byte (s.pack.acc.setWidth 32), outWord .len s.pack.nbits]
        { s with pack := { acc := 0, fill := 0, nbits := s.pack.nbits }, enc := { state := .idle } })) ∧
    (s.enc.state = .active → s.pack.fill = 0 → exec .encFlush s = .next
      (withOutput [outWord .len s.pack.nbits] { s with enc := { state := .idle } }))) ∧
  encode .encFlush = 0x3200000000#40 ∧
  (∀ (i : Instr) (s t : State), s.enc.state = .idle → i ≠ .encStart → exec i s = .next t →
    t.enc = s.enc ∧ t.pack = s.pack) ∧
  ∀ (s : State) (op : Word), op ≠ 0#32 → step (offerFirst (cmdWord 0x32#8 op) s) = .next (raised .illegalCmd s)

/-- R141: `DEC_START` begins a session of the declared length; every operand value is accepted at `W_LEN = 32`. -/
def Obligations.DecStartOpensASession : Prop :=
  (∀ (s : State) (n : Word),
    (s.dec.state = .active ∨ s.ct.init = false ∨ s.ct.ldActive = true →
      exec (.decStart n) s = .next (raised .seq s)) ∧
    (s.dec.state = .idle → s.ct.init = true → s.ct.ldActive = false → exec (.decStart n) s =
      .next { s with unpack := { remain := n }, dec := { state := .active, acc := [], dead := false } })) ∧
  (∀ n : Word, (encode (.decStart n)).toNat = 0x4000000000 + n.toNat ∧
    decode Config.params (cmdWord 0x40#8 n) = .ok (.decStart n))

/-- R142, R143: `DEC_PUSH` delivers the first `min(8, UNPACK.remain)` bits of the byte, most significant first, to DEC one
after the other (R144, DecStepTakesOneBit), and emits the symbols they complete, at most 8. -/
def Obligations.DecPushDeliversBits : Prop :=
  (∀ (s : State) (B : Symbol) (k : Nat) (bits : Bits),
    (s.dec.state = .idle → exec (.decPush B) s = .next (raised .seq s)) ∧
    (s.dec.state = .active → k = min 8 s.unpack.remain.toNat → bits.length = k →
      (∀ j < k, bits[j]? = some (B.getLsbD (7 - j))) →
      (decodeSteps s.params.lMax s.ct s.dec bits).1.length ≤ 8 ∧ exec (.decPush B) s = .next
        (withOutput (symWords (decodeSteps s.params.lMax s.ct s.dec bits).1)
          { s with
            unpack := { remain := s.unpack.remain - BitVec.ofNat 32 k }
            dec := (decodeSteps s.params.lMax s.ct s.dec bits).2 }))) ∧
  (∀ B : Symbol, (encode (.decPush B)).toNat = 0x4100000000 + B.toNat) ∧
  ∀ (s : State) (op : Word), op >>> 8 ≠ 0#32 → step (offerFirst (cmdWord 0x41#8 op) s) = .next (raised .illegalCmd s)

/-- R144: `DEC_step` takes one bit and possibly produces the symbol whose code the accumulator now equals. The premise is
the table invariant R20, which makes that symbol unique. -/
def Obligations.DecStepTakesOneBit : Prop :=
  ∀ (P : Params) (ct : CT) (d : Dec) (b : Bool), CtInv P ct →
    (d.dead = true → decStep P.lMax ct d b = (none, d)) ∧
    (∀ s, d.dead = false → (readAt ct.entry s).valid = true → (readAt ct.entry s).bits = d.acc ++ [b] →
      decStep P.lMax ct d b = (some s, { d with acc := [] })) ∧
    (d.dead = false → (∀ s, (readAt ct.entry s).valid = true → (readAt ct.entry s).bits ≠ d.acc ++ [b]) →
      decStep P.lMax ct d b =
        (none, { d with acc := d.acc ++ [b], dead := decide (d.acc.length + 1 = P.lMax) }))

/-- R145: `DEC_END` ends the session and gives the verdict, `PAYLOAD_SHORT` tested first; from then on
UNPACK and DEC keep their values until the next `DEC_START`. -/
def Obligations.DecEndGivesTheVerdict : Prop :=
  (∀ s : State,
    (s.dec.state = .idle → exec .decEnd s = .next (raised .seq s)) ∧
    (s.dec.state = .active → s.unpack.remain ≠ 0 →
      exec .decEnd s = .next (raised .payloadShort { s with dec := { s.dec with state := .idle } })) ∧
    (s.dec.state = .active → s.unpack.remain = 0 → (s.dec.dead = true ∨ s.dec.acc ≠ []) →
      exec .decEnd s = .next (raised .incompleteCode { s with dec := { s.dec with state := .idle } })) ∧
    (s.dec.state = .active → s.unpack.remain = 0 → s.dec.dead = false → s.dec.acc = [] →
      exec .decEnd s = .next (withOutput [outWord .done 0] { s with dec := { s.dec with state := .idle } }))) ∧
  encode .decEnd = 0x4200000000#40 ∧
  (∀ (i : Instr) (s t : State), s.dec.state = .idle → (∀ n, i ≠ .decStart n) → exec i s = .next t →
    t.dec = s.dec ∧ t.unpack = s.unpack) ∧
  ∀ (s : State) (op : Word), op ≠ 0#32 → step (offerFirst (cmdWord 0x42#8 op) s) = .next (raised .illegalCmd s)

/-! ### Faults and sequencing -/

/-- R115: the collision test is the pairwise definition, equality included. -/
def Obligations.CollisionTestIsPairwise : Prop :=
  ∀ (ct : CT) (c : Bits), collides c ct = true ↔ Collides ct c

/-- R202, R203, R205: of the causes that hold, the first in the order of R203 is raised, and the state it leaves is exactly
that of R202 with the additional change of R205. -/
def Obligations.FirstCauseIsRaised : Prop :=
  ∀ (s : State) (i : Instr) (F : FaultKind), Cause s i F → (∀ G, Cause s i G → F.priority ≤ G.priority) →
    exec i s = .next (raised F s)

/-- R190, R202: where no cause holds the command raises nothing: no flag is set and no `ERR` word is emitted. -/
def Obligations.NoCauseNoFault : Prop :=
  ∀ (s : State) (i : Instr), (∀ F, ¬ Cause s i F) →
    ∃ t ws, exec i s = .next t ∧ t.port.outQ = s.port.outQ ++ ws ∧
      (∀ w ∈ ws, w.extractLsb' 32 8 ≠ OutKind.err.code) ∧
      t.err = if i = .clrErr then 0 else s.err

/-- R192, R208: a command whose condition in the legality table is false raises `SEQ` and does nothing else. -/
def Obligations.IllegalSequencingRaisesSeq : Prop :=
  ∀ (s : State) (i : Instr), ¬ Legal s i →
    exec i s = .next { s with
      err := s.err ||| 0x00000004#32
      port := { s.port with outQ := s.port.outQ ++ [0x0F00000002#40] } }

/-- R208: all the ways the sequencing flags change. -/
def Obligations.SequencingFlagTransitions : Prop :=
  ∀ (s t : State) (i : Instr), exec i s = .next t →
    (t.fa.init = true ↔ s.fa.init = true ∨ i = .faClr) ∧
    (t.ct.init = true ↔ s.ct.init = true ∨ (i = .ctClr ∧ Legal s i)) ∧
    (s.ct.ldActive = false → t.ct.ldActive = true → ∃ sym, i = .ctBegin sym) ∧
    (s.ct.ldActive = true → t.ct.ldActive = false →
      i = .ctEnd ∨ Cause s i .codeTooLong ∨ i = .ctClr) ∧
    (s.enc.state = .idle → t.enc.state = .active → i = .encStart) ∧
    (s.enc.state = .active → t.enc.state = .idle →
      i = .encFlush ∨ Cause s i .unknownSymbol ∨ Cause s i .lenOvf) ∧
    (s.dec.state = .idle → t.dec.state = .active → ∃ n, i = .decStart n) ∧
    (s.dec.state = .active → t.dec.state = .idle → i = .decEnd)

/-- R14: `ERR` is a record, not a mode. Whatever it holds, every command but the read of `ERR` itself does the same to
everything else. -/
def Obligations.ErrIsNotAMode : Prop :=
  ∀ (i : Instr) (s t : State) (e : Word), i ≠ .rdReg 1#8 → exec i s = .next t →
    ∃ e', exec i { s with err := e } = .next { t with err := e' }

/-- R14: the flags are sticky: no command but `CLR_ERR` clears one. -/
def Obligations.FlagsAreSticky : Prop :=
  ∀ (i : Instr) (s t : State) (k : Nat), exec i s = .next t → i ≠ .clrErr → s.err.getLsbD k = true →
    t.err.getLsbD k = true

/-- R100: no command outside FA reads or writes FA's state (`RD_REG` reads its registers), and no FA command reads or writes
another unit's. -/
def Obligations.FaIsIndependent : Prop :=
  ∀ (i : Instr) (s t : State), exec i s = .next t →
    (unitOf i ≠ .fa → (∀ idx, i ≠ .rdReg idx) → ∀ f, exec i { s with fa := f } = .next { t with fa := f }) ∧
    (unitOf i = .fa → ∀ ct enc pack unpack dec,
      exec i { s with ct := ct, enc := enc, pack := pack, unpack := unpack, dec := dec } =
        .next { t with ct := ct, enc := enc, pack := pack, unpack := unpack, dec := dec })

/-- R10, R50, R205: what each unit's commands leave unchanged, in every outcome, faults included. FA commands touch FA only,
CT commands CT only, ENC commands ENC and PACK only, DEC commands UNPACK and DEC only; every command may touch `ERR` and append
output, and nothing else. -/
def Obligations.UnitFrames : Prop :=
  ∀ (i : Instr) (s t : State), exec i s = .next t →
    (unitOf i ≠ .fa → t.fa = s.fa) ∧
    (unitOf i ≠ .ct → t.ct = s.ct) ∧
    (unitOf i ≠ .enc → t.enc = s.enc ∧ t.pack = s.pack) ∧
    (unitOf i ≠ .dec → t.unpack = s.unpack ∧ t.dec = s.dec) ∧
    t.params = s.params ∧ t.resets = s.resets ∧ t.port.inbox = s.port.inbox ∧ t.port.delivered = s.port.delivered ∧
    ∃ ws, t.port.outQ = s.port.outQ ++ ws

/-- R53: the code table cannot change while a session is active, whatever the host does short of a reset. -/
def Obligations.TableFrozenDuringSession : Prop :=
  ∀ (s t : State), Inv s → (s.enc.state = .active ∨ s.dec.state = .active) →
    (∀ rest, s.port.inbox ≠ .reset :: rest) → step s = .next t → t.ct = s.ct

/-! ### Invariants -/

/-- The state after reset meets the invariant. -/
def Obligations.InvariantAtReset : Prop := Inv State.reset

/-- R14, R18, R20, R21, R24, R62, R131, R146: every step keeps the invariant, whatever the host does. -/
def Obligations.StepKeepsInvariant : Prop :=
  ∀ s t : State, Inv s → step s = .next t → Inv t

/-- R105, R131, R146: no counter wraps: where the commands go on, their counters change by exact natural-number arithmetic. -/
def Obligations.CountersNeverWrap : Prop :=
  ∀ (s t : State), Inv s →
    (∀ sym, exec (.faPush sym) s = .next t → ¬ (∃ F, Cause s (.faPush sym) F) →
      t.fa.total.toNat = s.fa.total.toNat + 1 ∧
      (readAt t.fa.count sym).toNat = (readAt s.fa.count sym).toNat + 1 ∧ t.fa.distinct.toNat ≤ 256) ∧
    (∀ sym, exec (.encPush sym) s = .next t → ¬ (∃ F, Cause s (.encPush sym) F) →
      t.pack.nbits.toNat = s.pack.nbits.toNat + (readAt s.ct.entry sym).len.toNat ∧
      t.pack.nbits.toNat ≤ 2 ^ s.params.wLen - 1) ∧
    (∀ B, exec (.decPush B) s = .next t → Legal s (.decPush B) →
      t.unpack.remain.toNat = s.unpack.remain.toNat - min 8 s.unpack.remain.toNat)

/-- R47: one `ENC_PUSH` emits at most 32 words, one `DEC_PUSH` at most 8, every other command at most 2. -/
def Obligations.OutputWordsPerCommand : Prop :=
  ∀ (s t : State) (i : Instr), Inv s → exec i s = .next t →
    ∃ ws, t.port.outQ = s.port.outQ ++ ws ∧
      ((∃ sym, i = .encPush sym) → ws.length ≤ 32) ∧
      ((∃ B, i = .decPush B) → ws.length ≤ 8) ∧
      ((∀ sym, i ≠ .encPush sym) → (∀ B, i ≠ .decPush B) → ws.length ≤ 2)

/-! ### Streams and sessions -/

/-- R44, R45, R46, R74: the payload of a stream holds its bits most significant first, zero-padded, in `ceil(n/8)` bytes, and
unpacking it to the exact length gives the stream back. -/
def Obligations.PayloadBitOrder : Prop :=
  ∀ β : Bits,
    (payload β).length = (β.length + 7) / 8 ∧
    (∀ j k, k < 8 → j < (payload β).length →
      ((payload β).getD j 0).getLsbD (7 - k) = β.getD (8 * j + k) false) ∧
    unpackStream β.length (payload β) = β

/-- R100, R104, R106: `FA_CLR` and one `FA_PUSH` per symbol count exactly the text, in any order of its symbols. -/
def Obligations.HistogramOfText : Prop :=
  ∀ (s : State) (text : List Symbol), s.params.wf = true → text.length ≤ 2 ^ s.params.wCnt - 1 →
    ∃ t, execAll (.faClr :: faText text) s = .next t ∧
      (∀ sym, (readAt t.fa.count sym).toNat = text.count sym) ∧
      t.fa.total.toNat = text.length ∧ t.fa.distinct.toNat = text.dedup.length ∧ t.fa.init = true ∧
      { t with fa := s.fa } = s

/-- R133: the exact bit length is the sum of count times code length, when FA holds the histogram of the text and every
symbol of it has a code. -/
def Obligations.LengthFromHistogram : Prop :=
  ∀ (s t : State) (text : List Symbol) (β : Bits), Inv s → s.ct.init = true →
    text.length ≤ 2 ^ s.params.wCnt - 1 → execAll (.faClr :: faText text) s = .next t → streamOf t.ct text = some β →
    β.length =
      (allSymbols.map fun r => (readAt t.fa.count r).toNat * (readAt t.ct.entry r).len.toNat).sum

/-- R110, R114: loading entries with distinct symbols and codes that fit and do not clash gives exactly that table, with no
output. -/
def Obligations.TableLoadInstallsEntries : Prop :=
  ∀ (s : State) (entries : List (Symbol × Bits)), Inv s → Legal s .ctClr →
    (entries.map Prod.fst).Nodup → (∀ e ∈ entries, 1 ≤ e.2.length ∧ e.2.length ≤ s.params.lMax) →
    entries.Pairwise (fun a b => ¬ a.2 <+: b.2 ∧ ¬ b.2 <+: a.2) →
    ∃ t, execAll (tableLoad entries) s = .next t ∧
      (∀ sym c, codeOf t.ct sym = some c ↔ (sym, c) ∈ entries) ∧
      t.ct.n.toNat = entries.length ∧ t.ct.init = true ∧ t.ct.ldActive = false ∧ { t with ct := s.ct } = s

/-- R116: the table after a load depends only on the set of entries, not on their order, provided none faults (a load that
faults emits an `ERR` word). -/
def Obligations.LoadOrderIsIrrelevant : Prop :=
  ∀ (s t : State) (l l' : List (Symbol × Bits)), Inv s → Legal s .ctClr → l.Perm l' →
    execAll (tableLoad l) s = .next t → t.port.outQ = s.port.outQ →
    ∃ t', execAll (tableLoad l') s = .next t' ∧ t'.port.outQ = s.port.outQ ∧ t'.ct.entry = t.ct.entry ∧
      t'.ct.n = t.ct.n

/-- R132: the session law. An encode session none of whose commands faults emits exactly the payload of the text and its exact
bit length, which is the sum of the code lengths; after the pushes of any text the whole bytes of its stream so far are out. -/
def Obligations.EncodeSessionLaw : Prop :=
  ∀ (s : State) (text : List Symbol) (β : Bits), Inv s → Legal s .encStart → streamOf s.ct text = some β →
    β.length ≤ 2 ^ s.params.wLen - 1 →
    β.length = (text.map fun x => (readAt s.ct.entry x).len.toNat).sum ∧
    (∃ t, execAll (.encStart :: encText text) s = .next t ∧
      t.port.outQ = s.port.outQ ++ byteWords ((payload β).take (β.length / 8))) ∧
    execAll (encodeSession text) s = .next
      (withOutput (byteWords (payload β) ++ [outWord .len (BitVec.ofNat 32 β.length)])
        { s with pack := { acc := 0, fill := 0, nbits := BitVec.ofNat 32 β.length } })

/-- R152: the round trip at the level of HSC. The bytes and length of an encode session, fed to a decode session under the same
table, give the text back and the verdict `DONE`. -/
def Obligations.SessionRoundTrip : Prop :=
  ∀ (s : State) (text : List Symbol) (β : Bits), Inv s → Legal s .encStart → Legal s (.decStart 0) →
    streamOf s.ct text = some β → β.length ≤ 2 ^ s.params.wLen - 1 →
    ∃ t bytes n, execAll (encodeSession text) s = .next t ∧
      t.port.outQ = s.port.outQ ++ byteWords bytes ++ [outWord .len n] ∧
      execAll (decodeSession n bytes) t = .next
        (withOutput (symWords text ++ [outWord .done 0])
          { t with unpack := { remain := 0 }, dec := { state := .idle, acc := [], dead := false } })

/-- R147: the bounded accumulator with `DEC.dead` emits what D0's unbounded loop emits and fails exactly when it does. -/
def Obligations.BoundedAccumulatorIsExact : Prop :=
  ∀ (P : Params) (ct : CT) (β : Bits) (x : Session), P.wf = true → CtInv P ct →
    (decodeSteps P.lMax ct { state := x, acc := [], dead := false } β).1 = (decodeLoop ct [] β).1 ∧
    ((decodeSteps P.lMax ct { state := x, acc := [], dead := false } β).2.dead = true ∨
        (decodeSteps P.lMax ct { state := x, acc := [], dead := false } β).2.acc ≠ [] ↔
      (decodeLoop ct [] β).2 ≠ [])

/-- R148: the walk of the table's prefix tree emits what `DEC_step` emits and gives the same verdict, for every table and
stream. -/
def Obligations.TreeWalkIsDecStep : Prop :=
  ∀ (P : Params) (ct : CT) (β : Bits) (x : Session), P.wf = true → CtInv P ct →
    (walkStream ct (.inside []) β).1 = (decodeSteps P.lMax ct { state := x, acc := [], dead := false } β).1 ∧
    ((walkStream ct (.inside []) β).2 = .inside [] ↔
      (decodeSteps P.lMax ct { state := x, acc := [], dead := false } β).2.dead = false ∧
      (decodeSteps P.lMax ct { state := x, acc := [], dead := false } β).2.acc = [])

/-- R149: padding bits and extra bytes are dropped unexamined: two bytes that agree on the bits still due do the same, and once
none is due a byte does nothing at all. -/
def Obligations.UnpackIgnoresTheRest : Prop :=
  ∀ (s : State) (B B' : Symbol),
    ((∀ j < min 8 s.unpack.remain.toNat, B.getLsbD (7 - j) = B'.getLsbD (7 - j)) →
      exec (.decPush B) s = exec (.decPush B') s) ∧
    (s.dec.state = .active → s.unpack.remain = 0 → exec (.decPush B) s = .next s)

/-- R134, R150: the empty encode session emits `LEN 0` and no byte; a decode session of length zero ends `DONE` with no symbol,
whatever bytes are pushed. -/
def Obligations.EmptySessions : Prop :=
  ∀ (s : State) (bytes : List (BitVec 8)),
    (Legal s .encStart → execAll [.encStart, .encFlush] s = .next
      (withOutput [outWord .len 0] { s with pack := { acc := 0, fill := 0, nbits := 0 } })) ∧
    (Legal s (.decStart 0) → execAll (decodeSession 0 bytes) s = .next
      (withOutput [outWord .done 0]
        { s with unpack := { remain := 0 }, dec := { state := .idle, acc := [], dead := false } }))

/-! ### The host's software -/

/-- R162, R163: the built tree has one leaf per table entry, and its root weighs the sum of the counts; every non-empty table
has a tree. -/
def Obligations.BuildKeepsWeights : Prop :=
  ∀ (π : Policy) (table : List (Symbol × Nat)),
    (table ≠ [] → ∃ root, build π table = some root) ∧
    (∀ root, build π table = some root →
      root.leaves.Perm table ∧ root.weight = (table.map Prod.snd).sum)

/-- R166, R180: a generated table is prefix-free for every deterministic choice of the host, so generation never fails on a
built tree; each symbol of the frequency table gets one code, of at most 255 bits. -/
def Obligations.GeneratedTableIsLoadable : Prop :=
  ∀ (π : Policy) (table : List (Symbol × Nat)) (root : Tree), (table.map Prod.fst).Nodup → build π table = some root →
    ∃ codes, generate (some root) = .ok codes ∧ (codes.map Prod.fst).Perm (table.map Prod.fst) ∧
      codes.Pairwise (fun a b => ¬ a.2 <+: b.2 ∧ ¬ b.2 <+: a.2) ∧
      (∀ c ∈ codes, 1 ≤ c.2.length ∧ c.2.length ≤ 255)

/-- R170 to R173: parsing a written artifact gives back its entries, its exact bit length and its payload. -/
def Obligations.HeaderRoundTrip : Prop :=
  ∀ (P : Params) (entries : List (Symbol × Bits)) (n : Nat) (bytes : List Byte), entries.length ≤ 256 → n < 2 ^ P.wLen →
    parseHeader P (writeArtifact entries n bytes) = some { entries := entries, bitLength := n, payload := bytes }

/-- R176: compressing the empty text gives the fixed 15-byte artifact, and decompressing that gives the empty text. -/
def Obligations.EmptyArtifactBothWays : Prop :=
  emptyArtifact = [0x30#8, 0x0A#8] ++ terminator ++ [0x0A#8, 0x30#8, 0x0A#8] ∧ emptyArtifact.length = 15 ∧
  ∀ (π : Policy) (s : State), Inv s → s.port.outQ = [] →
    (∃ t, compress π [] s = (.ok emptyArtifact, t)) ∧
    (Legal s .ctClr → ∃ t, decompress emptyArtifact s = (.ok [], t))

/-- R180: the round trip of the whole pipeline. From a state with both sessions idle and no word pending, whatever
deterministic choices the host makes, an artifact that compress writes decompresses to the text; and compress writes one whenever
the text is short enough for the counters. -/
def Obligations.PipelineRoundTrip : Prop :=
  ∀ (π : Policy) (text : List Symbol) (s : State), Inv s → Legal s .ctClr → s.port.outQ = [] →
    (∀ bytes t, compress π text s = (.ok bytes, t) → ∃ u, decompress bytes t = (.ok text, u)) ∧
    (s.params.lMax = 255 → text.length ≤ 2 ^ s.params.wCnt - 1 → 255 * text.length ≤ 2 ^ s.params.wLen - 1 →
      ∃ bytes t, compress π text s = (.ok bytes, t))
end

