-- ==== Sys2Proof/Laws/Arrays.lean ====
section
/-! SUPPORT. The 256-element arrays: reading after writing, reading a tabulated or mapped array, and equality by elements. -/

namespace Sys2Proof.Machine

variable {α β : Type}

@[simp] theorem readAt_writeAt_same (t : Vector α 256) (s : Symbol) (v : α) : readAt (writeAt t s v) s = v := by
  simp [readAt, writeAt]

theorem readAt_writeAt_of_ne (t : Vector α 256) {s r : Symbol} (v : α) (h : r ≠ s) :
    readAt (writeAt t s v) r = readAt t r := by
  have : s.toNat ≠ r.toNat := fun e => h (BitVec.eq_of_toNat_eq e.symm)
  simp [readAt, writeAt, this]

theorem readAt_writeAt (t : Vector α 256) (s r : Symbol) (v : α) :
    readAt (writeAt t s v) r = if r = s then v else readAt t r := by
  by_cases h : r = s
  · subst h; simp
  · simp [h, readAt_writeAt_of_ne]

theorem getElem_eq_readAt (t : Vector α 256) (i : Nat) (h : i < 256) : t[i] = readAt t (BitVec.ofNat 8 i) := by
  have : i % 256 = i := Nat.mod_eq_of_lt h
  simp [readAt, this]

/-- Two arrays with the same elements are the same array. -/
theorem array_ext {t u : Vector α 256} (h : ∀ s, readAt t s = readAt u s) : t = u := by
  apply Vector.ext
  intro i hi
  rw [getElem_eq_readAt t i hi, getElem_eq_readAt u i hi, h]

@[simp] theorem readAt_mapTable (f : α → β) (t : Vector α 256) (s : Symbol) :
    readAt (mapTable f t) s = f (readAt t s) := by
  simp [readAt, mapTable]

@[simp] theorem readAt_tabulate (f : Symbol → α) (s : Symbol) : readAt (tabulate f) s = f s := by
  simp [readAt, tabulate, allSymbols]

theorem mem_toList_iff_readAt (t : Vector α 256) (v : α) : v ∈ t.toList ↔ ∃ s, readAt t s = v := by
  constructor
  · intro h
    obtain ⟨i, hi, rfl⟩ := List.getElem_of_mem h
    simp only [Vector.length_toList] at hi
    exact ⟨BitVec.ofNat 8 i, by rw [Vector.getElem_toList, ← getElem_eq_readAt t i hi]⟩
  · rintro ⟨s, rfl⟩
    exact Vector.mem_toList_iff.2 (Vector.getElem_mem _)

theorem toList_writeAt (t : Vector α 256) (s : Symbol) (v : α) : (writeAt t s v).toList = t.toList.set s.toNat v := by
  simp [writeAt, Vector.toList_set]

/-- What one write does to a sum over the array. -/
theorem sum_writeAt (f : α → Nat) (t : Vector α 256) (s : Symbol) (v : α) :
    ((writeAt t s v).toList.map f).sum + f (readAt t s) = (t.toList.map f).sum + f v := by
  have key : ∀ (l : List α) (i : Nat) (h : i < l.length), ((l.set i v).map f).sum + f l[i] = (l.map f).sum + f v := by
    intro l
    induction l with
    | nil => intro i h; simp at h
    | cons a l ih =>
      intro i h
      cases i with
      | zero => simp; omega
      | succ i =>
        have := ih i (by simpa using h)
        simp only [List.set_cons_succ, List.map_cons, List.sum_cons, List.getElem_cons_succ]
        omega
  have h : s.toNat < t.toList.length := by simpa using s.isLt
  have := key t.toList s.toNat h
  rw [toList_writeAt]
  simpa [readAt] using this

/-- What one write does to a count over the array. -/
theorem countP_writeAt (p : α → Bool) (t : Vector α 256) (s : Symbol) (v : α) :
    (writeAt t s v).toList.countP p + (if p (readAt t s) then 1 else 0) = t.toList.countP p + (if p v then 1 else 0) := by
  have key : ∀ l : List α, l.countP p = (l.map fun a => if p a then 1 else 0).sum := by
    intro l
    induction l with
    | nil => rfl
    | cons a l ih => by_cases h : p a <;> simp [h, ih, Nat.add_comm]
  rw [key, key]
  exact sum_writeAt (fun a => if p a then 1 else 0) t s v

theorem sum_tabulate_zero (f : α → Nat) (v : α) (h : f v = 0) : ((tabulate fun _ => v).toList.map f).sum = 0 := by
  apply List.sum_eq_zero
  intro n hn
  obtain ⟨a, ha, rfl⟩ := List.mem_map.1 hn
  obtain ⟨s, rfl⟩ := (mem_toList_iff_readAt _ _).1 ha
  simp [h]

theorem countP_eq_zero_of_readAt (p : α → Bool) (t : Vector α 256) (h : ∀ s, p (readAt t s) = false) :
    t.toList.countP p = 0 := by
  rw [List.countP_eq_zero]
  intro a ha
  obtain ⟨s, rfl⟩ := (mem_toList_iff_readAt _ _).1 ha
  simp [h]

theorem countP_le (p : α → Bool) (t : Vector α 256) : t.toList.countP p ≤ 256 := by
  simpa using List.countP_le_length (p := p) (l := t.toList)

/-- If some element fails the predicate, fewer than 256 meet it. -/
theorem countP_lt_of_readAt (p : α → Bool) (t : Vector α 256) (s : Symbol) (h : p (readAt t s) = false) :
    t.toList.countP p < 256 := by
  rcases Nat.lt_or_ge (t.toList.countP p) 256 with h1 | h1
  · exact h1
  · have h2 : t.toList.countP p = t.toList.length := by
      have := countP_le p t
      simp only [Vector.length_toList]; omega
    have := List.countP_eq_length.1 h2 _ ((mem_toList_iff_readAt t _).2 ⟨s, rfl⟩)
    simp [h] at this

end Sys2Proof.Machine
end

