-- ==== Sys2Proof/Laws/Encoding.lean ====
section
/-! SUPPORT. The fields of a command word: taking apart what was put together, and what each format's success says. -/

namespace Sys2Proof

@[simp] theorem opcodeOf_cmdWord (o : BitVec 8) (p : Word) : opcodeOf (cmdWord o p) = o := by
  simp only [opcodeOf, cmdWord]
  rw [BitVec.extractLsb'_append_eq_left]

@[simp] theorem operandOf_cmdWord (o : BitVec 8) (p : Word) : operandOf (cmdWord o p) = p := by
  simp only [operandOf, cmdWord]
  rw [BitVec.extractLsb'_append_eq_right]

/-- A word is its opcode and its operand. -/
theorem cmdWord_eta (w : CmdWord) : cmdWord (opcodeOf w) (operandOf w) = w := by
  apply BitVec.eq_of_getLsbD_eq
  intro i hi
  simp only [cmdWord, opcodeOf, operandOf, BitVec.getLsbD_append, BitVec.getLsbD_extractLsb']
  by_cases h : i < 32
  · simp [h]
  · have e : 32 + (i - 32) = i := by omega
    simp only [h, decide_false, e]
    simp; omega

theorem cmdWord_inj {o o' : BitVec 8} {p p' : Word} : cmdWord o p = cmdWord o' p' ↔ o = o' ∧ p = p' := by
  constructor
  · intro h
    exact ⟨by simpa using congrArg opcodeOf h, by simpa using congrArg operandOf h⟩
  · rintro ⟨rfl, rfl⟩; rfl

theorem cmdWord_toNat (o : BitVec 8) (p : Word) : (cmdWord o p).toNat = o.toNat * 2 ^ 32 + p.toNat := by
  simp only [cmdWord, BitVec.toNat_append]
  rw [← Nat.shiftLeft_add_eq_or_of_lt p.isLt, Nat.shiftLeft_eq]

/-- Masking works on the opcode and the operand apart. -/
theorem cmdWord_and (o mo : BitVec 8) (p mp : Word) : cmdWord o p &&& cmdWord mo mp = cmdWord (o &&& mo) (p &&& mp) := by
  apply BitVec.eq_of_getLsbD_eq
  intro i hi
  simp only [cmdWord, BitVec.getLsbD_and, BitVec.getLsbD_append]
  split <;> rfl

/-! ### The operand of formats S, R and B (R61) -/

theorem symOperand_high (x : Symbol) : BitVec.extractLsb' 8 24 (x.setWidth 32) = 0#24 := by
  apply BitVec.eq_of_getLsbD_eq; intro i hi; simp

theorem symOperand_low (x : Symbol) : BitVec.extractLsb' 0 8 (x.setWidth 32) = x := by
  apply BitVec.eq_of_getLsbD_eq; intro i hi; simp [hi]; omega

theorem bitOperand_high (b : Bool) : BitVec.extractLsb' 1 31 ((BitVec.ofBool b).setWidth 32) = 0#31 := by
  cases b <;> decide

theorem bitOperand_low (b : Bool) : ((BitVec.ofBool b).setWidth 32).getLsbD 0 = b := by cases b <;> decide

theorem symOperand_of_high {p : Word} (h : BitVec.extractLsb' 8 24 p = 0#24) :
    (BitVec.extractLsb' 0 8 p).setWidth 32 = p := by
  apply BitVec.eq_of_getLsbD_eq
  intro i hi
  by_cases h8 : i < 8
  · simp [h8, hi]
  · have hb := congrArg (fun v => v.getLsbD (i - 8)) h
    have e : 8 + (i - 8) = i := by omega
    simp only [BitVec.getLsbD_extractLsb', e, BitVec.getLsbD_zero] at hb
    have hb' : p.getLsbD i = false := by simpa [show i - 8 < 24 by omega] using hb
    rw [BitVec.getLsbD_eq_getElem hi] at hb'
    simp [h8, hi, hb']

theorem bitOperand_of_high {p : Word} (h : BitVec.extractLsb' 1 31 p = 0#31) :
    (BitVec.ofBool (p.getLsbD 0)).setWidth 32 = p := by
  apply BitVec.eq_of_getLsbD_eq
  intro i hi
  by_cases h0 : i = 0
  · subst h0; simp
  · have hb := congrArg (fun v => v.getLsbD (i - 1)) h
    have e : 1 + (i - 1) = i := by omega
    simp only [BitVec.getLsbD_extractLsb', e, BitVec.getLsbD_zero] at hb
    have hb' : p.getLsbD i = false := by simpa [show i - 1 < 31 by omega] using hb
    rw [hb']; simp; omega

/-! ### What a format's success says -/

theorem formatN_ok {w : CmdWord} {i j : Instr} (h : formatN w i = .ok j) : j = i ∧ operandOf w = 0#32 := by
  unfold formatN at h; split at h <;> simp_all

theorem formatS_ok {w : CmdWord} {mk : Symbol → Instr} {j : Instr} (h : formatS w mk = .ok j) :
    ∃ x, j = mk x ∧ operandOf w = x.setWidth 32 := by
  unfold formatS at h
  split at h
  · rename_i h0
    exact ⟨_, by simpa using h.symm, (symOperand_of_high h0).symm⟩
  · simp at h

theorem formatB_ok {w : CmdWord} {mk : Bool → Instr} {j : Instr} (h : formatB w mk = .ok j) :
    ∃ b, j = mk b ∧ operandOf w = (BitVec.ofBool b).setWidth 32 := by
  unfold formatB at h
  split at h
  · rename_i h0
    exact ⟨_, by simpa using h.symm, (bitOperand_of_high h0).symm⟩
  · simp at h

theorem formatW_ok {P : Params} {w : CmdWord} {mk : Word → Instr} {j : Instr} (h : formatW P w mk = .ok j) :
    j = mk (operandOf w) ∧ (operandOf w).toNat < 2 ^ P.wLen := by
  unfold formatW at h; split at h <;> simp_all

end Sys2Proof
end

