-- ==== Sys2Proof/Laws/State.lean ====
section
/-! SUPPORT. One lemma per field per update: what each shared operation leaves in each field of State. All true by rfl. -/

namespace Sys2Proof.Machine

@[simp] theorem emit_params (k : OutKind) (v : Word) (s : State) : (emit k v s).params = s.params := rfl
@[simp] theorem emit_err (k : OutKind) (v : Word) (s : State) : (emit k v s).err = s.err := rfl
@[simp] theorem emit_fa (k : OutKind) (v : Word) (s : State) : (emit k v s).fa = s.fa := rfl
@[simp] theorem emit_ct (k : OutKind) (v : Word) (s : State) : (emit k v s).ct = s.ct := rfl
@[simp] theorem emit_enc (k : OutKind) (v : Word) (s : State) : (emit k v s).enc = s.enc := rfl
@[simp] theorem emit_pack (k : OutKind) (v : Word) (s : State) : (emit k v s).pack = s.pack := rfl
@[simp] theorem emit_unpack (k : OutKind) (v : Word) (s : State) : (emit k v s).unpack = s.unpack := rfl
@[simp] theorem emit_dec (k : OutKind) (v : Word) (s : State) : (emit k v s).dec = s.dec := rfl
@[simp] theorem emit_port (k : OutKind) (v : Word) (s : State) : (emit k v s).port = { s.port with outQ := s.port.outQ ++ [outWord k v] } := rfl
@[simp] theorem emit_resets (k : OutKind) (v : Word) (s : State) : (emit k v s).resets = s.resets := rfl

@[simp] theorem setErrFlag_params (f : FaultKind) (s : State) : (setErrFlag f s).params = s.params := rfl
@[simp] theorem setErrFlag_err (f : FaultKind) (s : State) : (setErrFlag f s).err = s.err ||| f.mask := rfl
@[simp] theorem setErrFlag_fa (f : FaultKind) (s : State) : (setErrFlag f s).fa = s.fa := rfl
@[simp] theorem setErrFlag_ct (f : FaultKind) (s : State) : (setErrFlag f s).ct = s.ct := rfl
@[simp] theorem setErrFlag_enc (f : FaultKind) (s : State) : (setErrFlag f s).enc = s.enc := rfl
@[simp] theorem setErrFlag_pack (f : FaultKind) (s : State) : (setErrFlag f s).pack = s.pack := rfl
@[simp] theorem setErrFlag_unpack (f : FaultKind) (s : State) : (setErrFlag f s).unpack = s.unpack := rfl
@[simp] theorem setErrFlag_dec (f : FaultKind) (s : State) : (setErrFlag f s).dec = s.dec := rfl
@[simp] theorem setErrFlag_port (f : FaultKind) (s : State) : (setErrFlag f s).port = s.port := rfl
@[simp] theorem setErrFlag_resets (f : FaultKind) (s : State) : (setErrFlag f s).resets = s.resets := rfl

@[simp] theorem clearErr_params (s : State) : (clearErr s).params = s.params := rfl
@[simp] theorem clearErr_err (s : State) : (clearErr s).err = 0 := rfl
@[simp] theorem clearErr_fa (s : State) : (clearErr s).fa = s.fa := rfl
@[simp] theorem clearErr_ct (s : State) : (clearErr s).ct = s.ct := rfl
@[simp] theorem clearErr_enc (s : State) : (clearErr s).enc = s.enc := rfl
@[simp] theorem clearErr_pack (s : State) : (clearErr s).pack = s.pack := rfl
@[simp] theorem clearErr_unpack (s : State) : (clearErr s).unpack = s.unpack := rfl
@[simp] theorem clearErr_dec (s : State) : (clearErr s).dec = s.dec := rfl
@[simp] theorem clearErr_port (s : State) : (clearErr s).port = s.port := rfl
@[simp] theorem clearErr_resets (s : State) : (clearErr s).resets = s.resets := rfl

@[simp] theorem clearHistogram_params (s : State) : (clearHistogram s).params = s.params := rfl
@[simp] theorem clearHistogram_err (s : State) : (clearHistogram s).err = s.err := rfl
@[simp] theorem clearHistogram_fa (s : State) : (clearHistogram s).fa = { count := tabulate fun _ => 0, total := 0, distinct := 0, init := true } := rfl
@[simp] theorem clearHistogram_ct (s : State) : (clearHistogram s).ct = s.ct := rfl
@[simp] theorem clearHistogram_enc (s : State) : (clearHistogram s).enc = s.enc := rfl
@[simp] theorem clearHistogram_pack (s : State) : (clearHistogram s).pack = s.pack := rfl
@[simp] theorem clearHistogram_unpack (s : State) : (clearHistogram s).unpack = s.unpack := rfl
@[simp] theorem clearHistogram_dec (s : State) : (clearHistogram s).dec = s.dec := rfl
@[simp] theorem clearHistogram_port (s : State) : (clearHistogram s).port = s.port := rfl
@[simp] theorem clearHistogram_resets (s : State) : (clearHistogram s).resets = s.resets := rfl

@[simp] theorem countSymbol_params (sym : Symbol) (s : State) : (countSymbol sym s).params = s.params := rfl
@[simp] theorem countSymbol_err (sym : Symbol) (s : State) : (countSymbol sym s).err = s.err := rfl
@[simp] theorem countSymbol_ct (sym : Symbol) (s : State) : (countSymbol sym s).ct = s.ct := rfl
@[simp] theorem countSymbol_enc (sym : Symbol) (s : State) : (countSymbol sym s).enc = s.enc := rfl
@[simp] theorem countSymbol_pack (sym : Symbol) (s : State) : (countSymbol sym s).pack = s.pack := rfl
@[simp] theorem countSymbol_unpack (sym : Symbol) (s : State) : (countSymbol sym s).unpack = s.unpack := rfl
@[simp] theorem countSymbol_dec (sym : Symbol) (s : State) : (countSymbol sym s).dec = s.dec := rfl
@[simp] theorem countSymbol_port (sym : Symbol) (s : State) : (countSymbol sym s).port = s.port := rfl
@[simp] theorem countSymbol_resets (sym : Symbol) (s : State) : (countSymbol sym s).resets = s.resets := rfl

@[simp] theorem installEntry_params (sym : Symbol) (code : Bits) (s : State) : (installEntry sym code s).params = s.params := rfl
@[simp] theorem installEntry_err (sym : Symbol) (code : Bits) (s : State) : (installEntry sym code s).err = s.err := rfl
@[simp] theorem installEntry_fa (sym : Symbol) (code : Bits) (s : State) : (installEntry sym code s).fa = s.fa := rfl
@[simp] theorem installEntry_enc (sym : Symbol) (code : Bits) (s : State) : (installEntry sym code s).enc = s.enc := rfl
@[simp] theorem installEntry_pack (sym : Symbol) (code : Bits) (s : State) : (installEntry sym code s).pack = s.pack := rfl
@[simp] theorem installEntry_unpack (sym : Symbol) (code : Bits) (s : State) : (installEntry sym code s).unpack = s.unpack := rfl
@[simp] theorem installEntry_dec (sym : Symbol) (code : Bits) (s : State) : (installEntry sym code s).dec = s.dec := rfl
@[simp] theorem installEntry_port (sym : Symbol) (code : Bits) (s : State) : (installEntry sym code s).port = s.port := rfl
@[simp] theorem installEntry_resets (sym : Symbol) (code : Bits) (s : State) : (installEntry sym code s).resets = s.resets := rfl

@[simp] theorem endLoad_params (s : State) : (endLoad s).params = s.params := rfl
@[simp] theorem endLoad_err (s : State) : (endLoad s).err = s.err := rfl
@[simp] theorem endLoad_fa (s : State) : (endLoad s).fa = s.fa := rfl
@[simp] theorem endLoad_ct (s : State) : (endLoad s).ct = { s.ct with ldActive := false } := rfl
@[simp] theorem endLoad_enc (s : State) : (endLoad s).enc = s.enc := rfl
@[simp] theorem endLoad_pack (s : State) : (endLoad s).pack = s.pack := rfl
@[simp] theorem endLoad_unpack (s : State) : (endLoad s).unpack = s.unpack := rfl
@[simp] theorem endLoad_dec (s : State) : (endLoad s).dec = s.dec := rfl
@[simp] theorem endLoad_port (s : State) : (endLoad s).port = s.port := rfl
@[simp] theorem endLoad_resets (s : State) : (endLoad s).resets = s.resets := rfl

@[simp] theorem endEncode_params (s : State) : (endEncode s).params = s.params := rfl
@[simp] theorem endEncode_err (s : State) : (endEncode s).err = s.err := rfl
@[simp] theorem endEncode_fa (s : State) : (endEncode s).fa = s.fa := rfl
@[simp] theorem endEncode_ct (s : State) : (endEncode s).ct = s.ct := rfl
@[simp] theorem endEncode_enc (s : State) : (endEncode s).enc = { state := .idle } := rfl
@[simp] theorem endEncode_pack (s : State) : (endEncode s).pack = s.pack := rfl
@[simp] theorem endEncode_unpack (s : State) : (endEncode s).unpack = s.unpack := rfl
@[simp] theorem endEncode_dec (s : State) : (endEncode s).dec = s.dec := rfl
@[simp] theorem endEncode_port (s : State) : (endEncode s).port = s.port := rfl
@[simp] theorem endEncode_resets (s : State) : (endEncode s).resets = s.resets := rfl

@[simp] theorem endDecode_params (s : State) : (endDecode s).params = s.params := rfl
@[simp] theorem endDecode_err (s : State) : (endDecode s).err = s.err := rfl
@[simp] theorem endDecode_fa (s : State) : (endDecode s).fa = s.fa := rfl
@[simp] theorem endDecode_ct (s : State) : (endDecode s).ct = s.ct := rfl
@[simp] theorem endDecode_enc (s : State) : (endDecode s).enc = s.enc := rfl
@[simp] theorem endDecode_pack (s : State) : (endDecode s).pack = s.pack := rfl
@[simp] theorem endDecode_unpack (s : State) : (endDecode s).unpack = s.unpack := rfl
@[simp] theorem endDecode_dec (s : State) : (endDecode s).dec = { s.dec with state := .idle } := rfl
@[simp] theorem endDecode_port (s : State) : (endDecode s).port = s.port := rfl
@[simp] theorem endDecode_resets (s : State) : (endDecode s).resets = s.resets := rfl

@[simp] theorem withInbox_params (rest : List HostEvent) (s : State) : (withInbox rest s).params = s.params := rfl
@[simp] theorem withInbox_err (rest : List HostEvent) (s : State) : (withInbox rest s).err = s.err := rfl
@[simp] theorem withInbox_fa (rest : List HostEvent) (s : State) : (withInbox rest s).fa = s.fa := rfl
@[simp] theorem withInbox_ct (rest : List HostEvent) (s : State) : (withInbox rest s).ct = s.ct := rfl
@[simp] theorem withInbox_enc (rest : List HostEvent) (s : State) : (withInbox rest s).enc = s.enc := rfl
@[simp] theorem withInbox_pack (rest : List HostEvent) (s : State) : (withInbox rest s).pack = s.pack := rfl
@[simp] theorem withInbox_unpack (rest : List HostEvent) (s : State) : (withInbox rest s).unpack = s.unpack := rfl
@[simp] theorem withInbox_dec (rest : List HostEvent) (s : State) : (withInbox rest s).dec = s.dec := rfl
@[simp] theorem withInbox_port (rest : List HostEvent) (s : State) : (withInbox rest s).port = { s.port with inbox := rest } := rfl
@[simp] theorem withInbox_resets (rest : List HostEvent) (s : State) : (withInbox rest s).resets = s.resets := rfl

@[simp] theorem countSymbol_count (sym : Symbol) (s : State) :
    (countSymbol sym s).fa.count = writeAt s.fa.count sym (readAt s.fa.count sym + 1) := rfl
@[simp] theorem countSymbol_total (sym : Symbol) (s : State) : (countSymbol sym s).fa.total = s.fa.total + 1 := rfl
@[simp] theorem countSymbol_init (sym : Symbol) (s : State) : (countSymbol sym s).fa.init = s.fa.init := rfl
@[simp] theorem countSymbol_distinct (sym : Symbol) (s : State) : (countSymbol sym s).fa.distinct =
    if readAt s.fa.count sym = 0 then s.fa.distinct + 1 else s.fa.distinct := rfl

@[simp] theorem installEntry_entry (sym : Symbol) (code : Bits) (s : State) : (installEntry sym code s).ct.entry =
    writeAt s.ct.entry sym { valid := true, len := BitVec.ofNat 8 code.length, code := code } := rfl
@[simp] theorem installEntry_n (sym : Symbol) (code : Bits) (s : State) : (installEntry sym code s).ct.n = s.ct.n + 1 := rfl
@[simp] theorem installEntry_init (sym : Symbol) (code : Bits) (s : State) : (installEntry sym code s).ct.init = s.ct.init := rfl
@[simp] theorem installEntry_ldActive (sym : Symbol) (code : Bits) (s : State) : (installEntry sym code s).ct.ldActive = s.ct.ldActive := rfl
@[simp] theorem installEntry_ldSym (sym : Symbol) (code : Bits) (s : State) : (installEntry sym code s).ct.ldSym = s.ct.ldSym := rfl
@[simp] theorem installEntry_ldCode (sym : Symbol) (code : Bits) (s : State) : (installEntry sym code s).ct.ldCode = s.ct.ldCode := rfl

end Sys2Proof.Machine
end

