-- ==== Sys2Proof/Laws/Ops.lean ====
section
/-! SUPPORT. What each shared operation can do, said once: raising a fault, requiring a condition, the collision test, the
match of a code, one absorbed bit, one delivered bit. -/

namespace Sys2Proof.Machine

/-! ### Faults -/

theorem raise_eq (f : FaultKind) (s : State) : raise f s =
    .next { s with err := s.err ||| f.mask, port := { s.port with outQ := s.port.outQ ++ [errWord f] } } := rfl

@[simp] theorem require_true (f : FaultKind) (s : State) (k : Result) : require true f s k = k := rfl

@[simp] theorem require_false (f : FaultKind) (s : State) (k : Result) : require false f s k = raise f s := rfl

/-- A `require` either goes on or raises. -/
theorem require_cases (c : Bool) (f : FaultKind) (s : State) (k : Result) :
    (c = true ∧ require c f s k = k) ∨ (c = false ∧ require c f s k = raise f s) := by
  cases c <;> simp

@[simp] theorem isActive_eq_true (x : Session) : x.isActive = true ↔ x = .active := by cases x <;> simp [Session.isActive]

theorem session_ne_active {x : Session} : x ≠ .active ↔ x = .idle := by cases x <;> simp

theorem session_ne_idle {x : Session} : x ≠ .idle ↔ x = .active := by cases x <;> simp

/-! ### Codes -/

theorem isPrefix_iff (a b : Bits) : isPrefix a b = true ↔ a <+: b := by simp [isPrefix]

theorem codeOf_eq_some {ct : CT} {sym : Symbol} {c : Bits} :
    codeOf ct sym = some c ↔ (readAt ct.entry sym).valid = true ∧ (readAt ct.entry sym).bits = c := by
  unfold codeOf; split <;> simp_all

theorem codeOf_eq_none {ct : CT} {sym : Symbol} : codeOf ct sym = none ↔ (readAt ct.entry sym).valid = false := by
  unfold codeOf; split <;> simp_all

/-- A match is a valid symbol with exactly that code. -/
theorem matchSym_some {ct : CT} {acc : Bits} {s : Symbol} (h : matchSym ct acc = some s) :
    (readAt ct.entry s).valid = true ∧ (readAt ct.entry s).bits = acc := by
  unfold matchSym at h
  rw [Option.map_eq_some_iff] at h
  obtain ⟨i, hi, rfl⟩ := h
  obtain ⟨hlt, hp, -⟩ := List.findIdx?_eq_some_iff_getElem.1 hi
  simp only [Vector.length_toList] at hlt
  rw [Vector.getElem_toList, getElem_eq_readAt _ _ hlt] at hp
  simpa using hp

/-- With no match, no valid symbol has that code. -/
theorem matchSym_none {ct : CT} {acc : Bits} :
    matchSym ct acc = none ↔ ∀ s, (readAt ct.entry s).valid = true → (readAt ct.entry s).bits ≠ acc := by
  unfold matchSym
  rw [Option.map_eq_none_iff, List.findIdx?_eq_none_iff]
  constructor
  · intro h s hv he
    have := h _ ((mem_toList_iff_readAt _ _).2 ⟨s, rfl⟩)
    simp [hv, he] at this
  · intro h e he
    obtain ⟨s, rfl⟩ := (mem_toList_iff_readAt _ _).1 he
    by_cases hv : (readAt ct.entry s).valid = true
    · simp [hv, h s hv]
    · simp [hv]

/-- In a table without equal codes, the match of a valid symbol's code is that symbol. -/
theorem matchSym_eq_of_code {P : Params} {ct : CT} (hct : CtInv P ct) {s : Symbol}
    (hv : (readAt ct.entry s).valid = true) : matchSym ct (readAt ct.entry s).bits = some s := by
  cases h : matchSym ct (readAt ct.entry s).bits with
  | none => exact absurd rfl (matchSym_none.1 h s hv)
  | some t =>
    obtain ⟨hvt, hbt⟩ := matchSym_some h
    by_contra hne
    have hts : t ≠ s := fun e => hne (by rw [e])
    exact hct.prefix_free t s hts hvt hv (by rw [hbt])

theorem length_bits {P : Params} {ct : CT} (hct : CtInv P ct) {s : Symbol}
    (hv : (readAt ct.entry s).valid = true) : (readAt ct.entry s).bits.length = (readAt ct.entry s).len.toNat := by
  simp [CtEntry.bits, hct.code_len s hv]

/-! ### One bit -/

/-- Everything one absorbed bit can do (R128). -/
theorem packAbsorb_eq (s : State) (b : Bool) : packAbsorb s b =
    if s.pack.fill = 7#3 then
      { s with
        pack := { acc := 0, fill := 0, nbits := s.pack.nbits + 1 }
        port := { s.port with outQ := s.port.outQ ++
          [outWord .byte ((setBit s.pack.acc (7 - s.pack.fill.toNat) b).setWidth 32)] } }
    else
      { s with pack :=
        { acc := setBit s.pack.acc (7 - s.pack.fill.toNat) b, fill := s.pack.fill + 1, nbits := s.pack.nbits + 1 } } := by
  unfold packAbsorb; split <;> rfl

/-- A run of absorbed bits touches PACK and the pending words only. -/
theorem packCode_frame (code : Bits) (s : State) :
    { packCode code s with pack := s.pack, port := { (packCode code s).port with outQ := s.port.outQ } } = s := by
  induction code generalizing s with
  | nil => rfl
  | cons b code ih =>
    have h := ih (packAbsorb s b)
    simp only [packCode, List.foldl_cons] at h ⊢
    generalize code.foldl packAbsorb (packAbsorb s b) = t at h ⊢
    rw [packAbsorb_eq] at h
    cases t; cases s
    split at h <;> simp_all

/-- Everything one delivered bit can do (R142 to R144). -/
theorem deliverBit_eq (s : State) (b : Bool) : deliverBit s b =
    { s with
      unpack := { remain := s.unpack.remain - 1 }
      dec := (decStep s.params.lMax s.ct s.dec b).2
      port := { s.port with outQ := s.port.outQ ++
        ((decStep s.params.lMax s.ct s.dec b).1.toList.map fun sym => outWord .sym (sym.setWidth 32)) } } := by
  unfold deliverBit
  cases h : (decStep s.params.lMax s.ct s.dec b).1 <;> simp [h, emit]

/-- Everything one step of DEC can do (R144). -/
theorem decStep_cases (lMax : Nat) (ct : CT) (d : Dec) (b : Bool) :
    (d.dead = true ∧ decStep lMax ct d b = (none, d)) ∨
    (d.dead = false ∧ ∃ s, matchSym ct (d.acc ++ [b]) = some s ∧
      decStep lMax ct d b = (some s, { d with acc := [] })) ∨
    (d.dead = false ∧ matchSym ct (d.acc ++ [b]) = none ∧
      decStep lMax ct d b = (none, { d with acc := d.acc ++ [b], dead := decide (d.acc.length + 1 = lMax) })) := by
  unfold decStep
  cases hd : d.dead with
  | true => simp
  | false =>
    cases h : matchSym ct (d.acc ++ [b]) with
    | some s => simp [h]
    | none => simp [h]

/-! ### Port events -/

/-- Everything taking a word can do (R51, R63): the oldest pending word, if any, moves to the record. -/
theorem takeWord_eq (s : State) : takeWord s =
    { s with port := { s.port with outQ := s.port.outQ.tail, delivered := s.port.delivered ++ s.port.outQ.take 1 } } := by
  unfold takeWord
  cases h : s.port.outQ with
  | nil =>
    obtain ⟨_, _, _, _, _, _, _, _, port, _⟩ := s
    cases port
    simp_all
  | cons w ws => simp

end Sys2Proof.Machine
end

