-- ==== Sys2Proof/Laws/Exec.lean ====
section
/-! SUPPORT. What a command can do, said once for all sixteen: it raises the first fault whose test fails, or it has its
effect. `exec_eq` is the inversion every proof about `exec` can start from. -/

namespace Sys2Proof.Machine

/-- The fault a command raises in a state, in the order the meanings test them. -/
def firstFault (s : State) : Instr → Option FaultKind
  | .nop => none
  | .rdReg idx => if (regAt idx s).isSome then none else some .illegalCmd
  | .clrErr => none
  | .faClr => none
  | .faPush _ =>
    if s.fa.init = false then some .seq else if s.fa.total.toNat = 2 ^ s.params.wCnt - 1 then some .faOvf else none
  | .faRd _ => if s.fa.init = false then some .seq else none
  | .ctClr => if s.enc.state = .idle ∧ s.dec.state = .idle then none else some .seq
  | .ctBegin sym =>
    if s.ct.init = true ∧ s.ct.ldActive = false ∧ s.enc.state = .idle ∧ s.dec.state = .idle then
      if (readAt s.ct.entry sym).valid = true then some .dupSymbol else none
    else some .seq
  | .ctBit _ =>
    if s.ct.ldActive = false then some .seq
    else if s.ct.ldCode.length = s.params.lMax then some .codeTooLong else none
  | .ctEnd =>
    if s.ct.ldActive = false then some .seq
    else if s.ct.ldCode = [] then some .codeEmpty
    else if collides s.ct.ldCode s.ct = true then some .prefixCollision else none
  | .encStart => if s.enc.state = .idle ∧ s.ct.init = true ∧ s.ct.ldActive = false then none else some .seq
  | .encPush sym =>
    if s.enc.state = .idle then some .seq
    else if (readAt s.ct.entry sym).valid = false then some .unknownSymbol
    else if 2 ^ s.params.wLen - 1 < s.pack.nbits.toNat + (readAt s.ct.entry sym).len.toNat then some .lenOvf else none
  | .encFlush => if s.enc.state = .idle then some .seq else none
  | .decStart _ => if s.dec.state = .idle ∧ s.ct.init = true ∧ s.ct.ldActive = false then none else some .seq
  | .decPush _ => if s.dec.state = .idle then some .seq else none
  | .decEnd =>
    if s.dec.state = .idle then some .seq
    else if s.unpack.remain ≠ 0 then some .payloadShort
    else if s.dec.dead = true ∨ s.dec.acc ≠ [] then some .incompleteCode else none

/-- The words `ENC_FLUSH` emits (R129). -/
def flushWords (p : Pack) : List OutWord :=
  (if p.fill = 0 then [] else [outWord .byte (p.acc.setWidth 32)]) ++ [outWord .len p.nbits]

/-- What a command does when it raises nothing. -/
def effect (s : State) : Instr → State
  | .nop => s
  | .rdReg idx => emit .data ((regAt idx s).getD 0) s
  | .clrErr => clearErr s
  | .faClr => clearHistogram s
  | .faPush sym => countSymbol sym s
  | .faRd sym => emit .data (readAt s.fa.count sym) s
  | .ctClr => { s with ct :=
      { s.ct with entry := invalidateAll s.ct.entry, n := 0, ldActive := false, init := true } }
  | .ctBegin sym => { s with ct := { s.ct with ldActive := true, ldSym := sym, ldCode := [] } }
  | .ctBit b => { s with ct := { s.ct with ldCode := s.ct.ldCode ++ [b] } }
  | .ctEnd => installEntry s.ct.ldSym s.ct.ldCode (endLoad s)
  | .encStart => { s with pack := { acc := 0, fill := 0, nbits := 0 }, enc := { state := .active } }
  | .encPush sym => packCode (readAt s.ct.entry sym).bits s
  | .encFlush => withOutput (flushWords s.pack)
      { s with
        pack := { s.pack with acc := if s.pack.fill = 0 then s.pack.acc else 0, fill := 0 }
        enc := { state := .idle } }
  | .decStart n => { s with unpack := { remain := n }, dec := { state := .active, acc := [], dead := false } }
  | .decPush byte => deliverByte byte s
  | .decEnd => emit .done 0 (endDecode s)

theorem raise_eq_raised (f : FaultKind) (s u : State) (h : u = sideEffect f s) : raise f u = .next (raised f s) := by
  subst h
  cases f <;> rfl

/-- Every command either raises its first fault or has its effect. -/
theorem exec_eq (i : Instr) (s : State) :
    exec i s = .next (match firstFault s i with | some F => raised F s | none => effect s i) := by
  cases i with
  | nop => rfl
  | rdReg idx =>
    simp only [exec, execRdReg, firstFault, effect]
    cases h : regAt idx s with
    | none => exact raise_eq_raised _ _ _ rfl
    | some v => rfl
  | clrErr => rfl
  | faClr => rfl
  | faPush sym =>
    simp only [exec, execFaPush, firstFault, effect]
    cases h : s.fa.init with
    | false => exact raise_eq_raised _ _ _ rfl
    | true =>
      simp only [require_true, Bool.true_eq_false, if_false]
      split
      · exact raise_eq_raised _ _ _ rfl
      · rfl
  | faRd sym =>
    simp only [exec, execFaRd, firstFault, effect]
    cases h : s.fa.init with
    | false => exact raise_eq_raised _ _ _ rfl
    | true => rfl
  | ctClr =>
    simp only [exec, execCtClr, firstFault, effect]
    cases h : s.enc.state <;> cases h' : s.dec.state <;> first | exact raise_eq_raised _ _ _ rfl | rfl
  | ctBegin sym =>
    simp only [exec, execCtBegin, firstFault, effect]
    by_cases h : s.ct.init = true ∧ s.ct.ldActive = false ∧ s.enc.state = .idle ∧ s.dec.state = .idle
    · obtain ⟨h1, h2, h3, h4⟩ := h
      simp only [h1, h2, h3, h4, decide_true, Bool.not_false, Bool.and_self, require_true, and_self, if_true]
      split
      · exact raise_eq_raised _ _ _ rfl
      · rfl
    · have hf : (s.ct.init && !s.ct.ldActive && s.enc.state = .idle && s.dec.state = .idle) = false := by
        rw [Bool.eq_false_iff]; intro hc; apply h; simpa [and_assoc] using hc
      rw [hf, if_neg h]
      exact raise_eq_raised _ _ _ rfl
  | ctBit b =>
    simp only [exec, execCtBit, firstFault, effect]
    cases h : s.ct.ldActive with
    | false => exact raise_eq_raised _ _ _ rfl
    | true =>
      simp only [require_true, Bool.true_eq_false, if_false]
      split
      · exact raise_eq_raised _ _ _ rfl
      · rfl
  | ctEnd =>
    simp only [exec, execCtEnd, firstFault, effect]
    cases h : s.ct.ldActive with
    | false => exact raise_eq_raised _ _ _ rfl
    | true =>
      simp only [require_true, Bool.true_eq_false, if_false, List.length_eq_zero_iff]
      split
      · exact raise_eq_raised _ _ _ rfl
      · split
        · exact raise_eq_raised _ _ _ rfl
        · rfl
  | encStart =>
    simp only [exec, execEncStart, firstFault, effect]
    cases h : s.enc.state <;> cases h1 : s.ct.init <;> cases h2 : s.ct.ldActive <;>
      first | exact raise_eq_raised _ _ _ rfl | rfl
  | encPush sym =>
    simp only [exec, execEncPush, firstFault, effect, codeOf]
    cases h : s.enc.state with
    | idle => exact raise_eq_raised _ _ _ rfl
    | active =>
      cases hv : (readAt s.ct.entry sym).valid with
      | false => exact raise_eq_raised _ _ _ rfl
      | true =>
        simp only [decide_true, require_true, reduceCtorEq, if_false, if_true, Bool.true_eq_false, gt_iff_lt]
        split
        · exact raise_eq_raised _ _ _ rfl
        · rfl
  | encFlush =>
    simp only [exec, execEncFlush, firstFault, effect]
    cases h : s.enc.state with
    | idle => exact raise_eq_raised _ _ _ rfl
    | active =>
      by_cases hf : s.pack.fill = 0#3
      · simp [hf, flushWords, emit, endEncode, withOutput]
        cases hs : s.pack; simp_all
      · simp [hf, flushWords, emit, endEncode, withOutput]
  | decStart n =>
    simp only [exec, execDecStart, firstFault, effect]
    cases h : s.dec.state <;> cases h1 : s.ct.init <;> cases h2 : s.ct.ldActive <;>
      first | exact raise_eq_raised _ _ _ rfl | rfl
  | decPush B =>
    simp only [exec, execDecPush, firstFault, effect]
    cases h : s.dec.state with
    | idle => exact raise_eq_raised _ _ _ rfl
    | active => rfl
  | decEnd =>
    simp only [exec, execDecEnd, firstFault, effect]
    cases h : s.dec.state with
    | idle => exact raise_eq_raised _ _ _ rfl
    | active =>
      simp only [decide_true, require_true, reduceCtorEq, if_false, ne_eq]
      split
      · exact raise_eq_raised _ _ _ rfl
      · cases hd : s.dec.dead with
        | true => exact raise_eq_raised _ _ _ rfl
        | false =>
          cases ha : s.dec.acc with
          | nil => simp
          | cons b l => simp; exact raise_eq_raised _ _ _ rfl

/-- The one next state of a command. -/
theorem exec_next_iff {i : Instr} {s t : State} :
    exec i s = .next t ↔ t = (match firstFault s i with | some F => raised F s | none => effect s i) := by
  rw [exec_eq]
  simp [eq_comm]

/-- A command's next state, by cases. -/
theorem exec_cases {i : Instr} {s t : State} (h : exec i s = .next t) :
    (∃ F, firstFault s i = some F ∧ t = raised F s) ∨ (firstFault s i = none ∧ t = effect s i) := by
  rw [exec_next_iff] at h
  cases hf : firstFault s i <;> simp_all

/-- Everything a fault changes (R202, R205): the sticky flag, the pending words, and the flag of a session or load. -/
theorem raised_eq (F : FaultKind) (s : State) : raised F s =
    { s with
      err := s.err ||| F.mask
      ct := if F = .codeEmpty ∨ F = .codeTooLong ∨ F = .prefixCollision then { s.ct with ldActive := false } else s.ct
      enc := if F = .unknownSymbol ∨ F = .lenOvf then { state := .idle } else s.enc
      dec := if F = .incompleteCode ∨ F = .payloadShort then { s.dec with state := .idle } else s.dec
      port := { s.port with outQ := s.port.outQ ++ [errWord F] } } := by
  cases F <;> rfl

end Sys2Proof.Machine
end

