-- ==== Sys2Proof/Laws/Packing.lean ====
section
/-! SUPPORT. Bits and bytes: the bits of a payload byte, what PACK holds of a stream, and the whole effect of absorbing a
code (R128). -/

namespace Sys2Proof.Machine

/-! ### Bytes bit by bit -/

/-- Two bytes with the same bits, counted from the most significant one, are equal. -/
theorem byte_ext {x y : BitVec 8} (h : ∀ k < 8, x.getLsbD (7 - k) = y.getLsbD (7 - k)) : x = y := by
  apply BitVec.eq_of_getLsbD_eq
  intro i hi
  have := h (7 - i) (by omega)
  rwa [show 7 - (7 - i) = i by omega] at this

@[simp] theorem byteBits_length (B : BitVec 8) : (byteBits B).length = 8 := by simp [byteBits]

theorem byteBits_getElem? (B : BitVec 8) (k : Nat) (hk : k < 8) : (byteBits B)[k]? = some (B.getLsbD (7 - k)) := by
  simp [byteBits, List.getElem?_range hk]

theorem byte_of_bits_aux : ∀ b0 b1 b2 b3 b4 b5 b6 b7 : Bool, ∀ k : Fin 8,
    ((List.range 8).foldl (fun (v : BitVec 8) k =>
      v + v + if ([b0, b1, b2, b3, b4, b5, b6, b7].getD k false) then 1 else 0) 0).getLsbD (7 - k) =
      [b0, b1, b2, b3, b4, b5, b6, b7].getD k false := by decide +kernel

/-- Bit `7 - k` of payload byte `j` is element `8 j + k` of the stream, 0 past its end (R74). -/
theorem payloadByte_bit (β : Bits) (j k : Nat) (hk : k < 8) :
    (payloadByte β j).getLsbD (7 - k) = β.getD (8 * j + k) false := by
  have h := byte_of_bits_aux (β.getD (8 * j) false) (β.getD (8 * j + 1) false) (β.getD (8 * j + 2) false)
    (β.getD (8 * j + 3) false) (β.getD (8 * j + 4) false) (β.getD (8 * j + 5) false) (β.getD (8 * j + 6) false)
    (β.getD (8 * j + 7) false) ⟨k, hk⟩
  have e : [β.getD (8 * j) false, β.getD (8 * j + 1) false, β.getD (8 * j + 2) false, β.getD (8 * j + 3) false,
      β.getD (8 * j + 4) false, β.getD (8 * j + 5) false, β.getD (8 * j + 6) false, β.getD (8 * j + 7) false].getD k
      false = β.getD (8 * j + k) false := by
    interval_cases k <;> rfl
  simp only [e] at h
  rw [← h]
  rfl

theorem setBit_bit (v : BitVec 8) (i j : Nat) (b : Bool) (hj : j < 8) :
    (setBit v i b).getLsbD j = if j = i then b else v.getLsbD j := by
  have one : (1#8 <<< i).getLsbD j = decide (j = i) := by
    simp only [BitVec.getLsbD_shiftLeft, hj, decide_true, Bool.true_and]
    rcases Nat.lt_trichotomy j i with h | h | h
    · simp [h, Nat.ne_of_lt h]
    · simp [h]
    · simp [Nat.not_lt_of_gt h, Nat.ne_of_gt h, show j - i ≠ 0 by omega]
  unfold setBit
  cases b with
  | true => simp only [if_true, BitVec.getLsbD_or, one]; by_cases h : j = i <;> simp [h]
  | false =>
    simp only [Bool.false_eq_true, if_false, BitVec.getLsbD_and, BitVec.getLsbD_not, one, hj, decide_true, Bool.true_and]
    by_cases h : j = i <;> simp [h]

/-! ### What PACK holds of a stream -/

/-- PACK holds the bits of `β` past its last whole byte. -/
def Holds (p : Pack) (β : Bits) : Prop := p.acc = payloadByte β (β.length / 8) ∧ p.fill.toNat = β.length % 8

/-- The whole bytes of a stream. -/
def wholeBytes (β : Bits) : List (BitVec 8) := (List.range (β.length / 8)).map (payloadByte β)

theorem payload_take_whole (β : Bits) : (payload β).take (β.length / 8) = wholeBytes β := by
  simp only [payload, wholeBytes, ← List.map_take, List.take_range]
  congr 2; omega

theorem payloadByte_append (β γ : Bits) (j : Nat) (h : 8 * j + 8 ≤ β.length) :
    payloadByte (β ++ γ) j = payloadByte β j := by
  apply byte_ext
  intro k hk
  rw [payloadByte_bit _ _ _ hk, payloadByte_bit _ _ _ hk]
  simp only [List.getD_eq_getElem?_getD]
  rw [List.getElem?_append_left (by omega)]

/-- One more bit completes at most one whole byte. -/
theorem wholeBytes_snoc (β : Bits) (b : Bool) : wholeBytes (β ++ [b]) =
    wholeBytes β ++ if β.length % 8 = 7 then [payloadByte (β ++ [b]) (β.length / 8)] else [] := by
  have keep : (List.range (β.length / 8)).map (payloadByte (β ++ [b])) = wholeBytes β :=
    List.map_congr_left fun j hj => payloadByte_append _ _ _ (by have := List.mem_range.1 hj; omega)
  have hl : (β ++ [b]).length = β.length + 1 := by simp
  unfold wholeBytes at keep ⊢
  rw [hl]
  split
  · rw [show (β.length + 1) / 8 = β.length / 8 + 1 by omega, List.range_succ, List.map_append, keep]; rfl
  · rw [show (β.length + 1) / 8 = β.length / 8 by omega, keep, List.append_nil]

/-- The bit goes where the stream's next bit stands in its byte. -/
theorem Holds.setBit_eq {p : Pack} {β : Bits} (h : Holds p β) (b : Bool) :
    setBit p.acc (7 - p.fill.toNat) b = payloadByte (β ++ [b]) (β.length / 8) := by
  obtain ⟨ha, hf⟩ := h
  apply byte_ext
  intro k hk
  rw [payloadByte_bit _ _ _ hk, setBit_bit _ _ _ _ (by omega), ha, hf, payloadByte_bit _ _ _ hk]
  simp only [List.getD_eq_getElem?_getD]
  rcases Nat.lt_trichotomy (8 * (β.length / 8) + k) β.length with h1 | h1 | h1
  · rw [List.getElem?_append_left h1, if_neg (by omega)]
  · rw [if_pos (by omega), h1]; simp
  · rw [if_neg (by omega), List.getElem?_eq_none (by omega), List.getElem?_eq_none (by simp; omega)]

theorem ofNat_succ_add (x : BitVec 32) (n : Nat) : x + 1 + BitVec.ofNat 32 n = x + BitVec.ofNat 32 (n + 1) := by
  rw [BitVec.ofNat_add, BitVec.add_assoc, BitVec.add_comm (1 : BitVec 32)]; rfl

/-- Everything absorbing a code can do (R127, R128): the whole bytes are emitted, the rest is held, the bits are counted. -/
theorem packCode_eq (γ : Bits) (s : State) (β : Bits) (h : Holds s.pack β) :
    ∃ out, packCode γ s = withOutput (byteWords out)
      { s with pack :=
        { acc := payloadByte (β ++ γ) ((β ++ γ).length / 8)
          fill := BitVec.ofNat 3 ((β ++ γ).length % 8)
          nbits := s.pack.nbits + BitVec.ofNat 32 γ.length } } ∧
      wholeBytes (β ++ γ) = wholeBytes β ++ out := by
  induction γ generalizing s β with
  | nil =>
    obtain ⟨ha, hf⟩ := h
    refine ⟨[], ?_, by simp⟩
    have e : s.pack.fill = BitVec.ofNat 3 (β.length % 8) := by rw [← hf]; simp
    simp only [packCode, List.foldl_nil, withOutput, byteWords, List.map_nil, List.append_nil, List.length_nil, ← ha, ← e]
    simp
  | cons b γ ih =>
    have hacc := h.setBit_eq b
    obtain ⟨ha, hf⟩ := h
    have hsnoc := wholeBytes_snoc β b
    have hlen : (β ++ [b]).length = β.length + 1 := by simp
    have happ : β ++ b :: γ = (β ++ [b]) ++ γ := by simp
    have hstep : packCode (b :: γ) s = packCode γ (packAbsorb s b) := rfl
    by_cases h7 : s.pack.fill = 7#3
    · have h7' : β.length % 8 = 7 := by rw [← hf, h7]; rfl
      have hold : Holds (packAbsorb s b).pack (β ++ [b]) := by
        rw [packAbsorb_eq, if_pos h7]
        refine ⟨?_, by simp; omega⟩
        apply byte_ext
        intro k hk
        rw [payloadByte_bit _ _ _ hk, List.getD_eq_getElem?_getD, List.getElem?_eq_none (by rw [hlen]; omega)]
        simp
      obtain ⟨out, e1, e2⟩ := ih _ _ hold
      refine ⟨payloadByte (β ++ [b]) (β.length / 8) :: out, ?_, ?_⟩
      · rw [hstep, e1, packAbsorb_eq, if_pos h7, hacc, happ]
        simp only [withOutput, byteWords, List.map_cons, ofNat_succ_add, List.length_cons, List.append_assoc,
          List.singleton_append]
      · rw [happ, e2, hsnoc, if_pos h7']; simp
    · have h7' : β.length % 8 ≠ 7 := fun e => h7 (BitVec.eq_of_toNat_eq (by rw [hf, e]; rfl))
      have hold : Holds (packAbsorb s b).pack (β ++ [b]) := by
        rw [packAbsorb_eq, if_neg h7]
        refine ⟨?_, ?_⟩
        · simp only [hacc, hlen]; congr 1; omega
        · rw [hlen]; simp only [BitVec.toNat_add, hf]; simp
      obtain ⟨out, e1, e2⟩ := ih _ _ hold
      refine ⟨out, ?_, ?_⟩
      · rw [hstep, e1, packAbsorb_eq, if_neg h7, happ]
        simp only [withOutput, byteWords, ofNat_succ_add, List.length_cons]
      · rw [happ, e2, hsnoc, if_neg h7', List.append_nil]

/-- What PACK holds when its invariant R24 does: the pending bits of `PACK.acc`. -/
theorem holds_pending {p : Pack} (h : PackInv p) : Holds p ((byteBits p.acc).take p.fill.toNat) := by
  have h8 := p.fill.isLt
  have hl : ((byteBits p.acc).take p.fill.toNat).length = p.fill.toNat := by simp; omega
  refine ⟨?_, by rw [hl]; omega⟩
  rw [hl, Nat.div_eq_of_lt (by omega)]
  apply byte_ext
  intro k hk
  rw [payloadByte_bit _ _ _ hk, List.getD_eq_getElem?_getD]
  by_cases hkf : k < p.fill.toNat
  · rw [List.getElem?_take_of_lt (by omega), show 8 * 0 + k = k by omega, byteBits_getElem? _ _ hk]; rfl
  · rw [List.getElem?_eq_none (by omega), h.low_zero _ (by omega)]; rfl

end Sys2Proof.Machine
end

