-- ==== Sys2Proof/Laws/PerInstr.lean ====
section
/-! SUPPORT. The statements made once per instruction. `RowMatch`: the word of a command matches the row of the opcode map
that carries its mnemonic (R67). -/

namespace Sys2Proof.Laws.RowMatch

/-- Some row of the opcode map has the command's mnemonic, and the command's word matches it (R67). -/
def Statement (i : Instr) : Prop := ∃ r ∈ opcodeRows, r.mnemonic = mnemonicOf i ∧ r.matchesWord (encode i) = true

/-- A row matches the words of its opcode whose operand has no bit under the row's operand mask. -/
theorem matches_of_operand {r : OpRow} {o : BitVec 8} {m p : Word} (hm : r.matchBits = cmdWord o 0#32)
    (hk : r.maskBits = cmdWord 0xFF#8 m) (hp : p &&& m = 0#32) : r.matchesWord (cmdWord o p) = true := by
  have ho : o &&& 0xFF#8 = o := BitVec.and_allOnes
  simp [OpRow.matchesWord, hm, hk, cmdWord_and, hp, ho]

theorem sym_under_mask (x : Symbol) : (x.setWidth 32 : Word) &&& 0xFFFFFF00#32 = 0#32 := by
  apply BitVec.eq_of_toNat_eq
  apply Nat.eq_of_testBit_eq
  intro k
  have hx := x.isLt
  have : ∀ n : Fin 256, n.val &&& 0xFFFFFF00 = 0 := by decide +kernel
  have h := this ⟨x.toNat, hx⟩
  simp only [BitVec.toNat_and, BitVec.toNat_setWidth]
  rw [Nat.mod_eq_of_lt (by omega)]
  show ((x.toNat &&& 0xFFFFFF00).testBit k) = _
  rw [h]; rfl

theorem nop : Statement .nop := ⟨opcodeRows[0], List.getElem_mem _, rfl, by decide⟩
theorem rdReg (idx : BitVec 8) : Statement (.rdReg idx) :=
  ⟨opcodeRows[1], List.getElem_mem _, rfl, matches_of_operand rfl rfl (sym_under_mask idx)⟩
theorem clrErr : Statement .clrErr := ⟨opcodeRows[2], List.getElem_mem _, rfl, by decide⟩
theorem faClr : Statement .faClr := ⟨opcodeRows[3], List.getElem_mem _, rfl, by decide⟩
theorem faPush (sym : Symbol) : Statement (.faPush sym) :=
  ⟨opcodeRows[4], List.getElem_mem _, rfl, matches_of_operand rfl rfl (sym_under_mask sym)⟩
theorem faRd (sym : Symbol) : Statement (.faRd sym) :=
  ⟨opcodeRows[5], List.getElem_mem _, rfl, matches_of_operand rfl rfl (sym_under_mask sym)⟩
theorem ctClr : Statement .ctClr := ⟨opcodeRows[6], List.getElem_mem _, rfl, by decide⟩
theorem ctBegin (sym : Symbol) : Statement (.ctBegin sym) :=
  ⟨opcodeRows[7], List.getElem_mem _, rfl, matches_of_operand rfl rfl (sym_under_mask sym)⟩
theorem ctBit (b : Bool) : Statement (.ctBit b) := ⟨opcodeRows[8], List.getElem_mem _, rfl, by cases b <;> decide⟩
theorem ctEnd : Statement .ctEnd := ⟨opcodeRows[9], List.getElem_mem _, rfl, by decide⟩
theorem encStart : Statement .encStart := ⟨opcodeRows[10], List.getElem_mem _, rfl, by decide⟩
theorem encPush (sym : Symbol) : Statement (.encPush sym) :=
  ⟨opcodeRows[11], List.getElem_mem _, rfl, matches_of_operand rfl rfl (sym_under_mask sym)⟩
theorem encFlush : Statement .encFlush := ⟨opcodeRows[12], List.getElem_mem _, rfl, by decide⟩
theorem decStart (n : Word) : Statement (.decStart n) :=
  ⟨opcodeRows[13], List.getElem_mem _, rfl, matches_of_operand (m := 0#32) rfl rfl (by simp)⟩
theorem decPush (byte : Symbol) : Statement (.decPush byte) :=
  ⟨opcodeRows[14], List.getElem_mem _, rfl, matches_of_operand rfl rfl (sym_under_mask byte)⟩
theorem decEnd : Statement .decEnd := ⟨opcodeRows[15], List.getElem_mem _, rfl, by decide⟩

end Sys2Proof.Laws.RowMatch
end

