-- ==== Sys2Proof/Laws/Streams.lean ====
section
/-! SUPPORT. Decoding a stream: DEC bit after bit (R144), the whole effect of a payload byte (R142, R143), and the stream of
a text (R74). -/

namespace Sys2Proof.Machine

theorem decodeSteps_append (l : Nat) (ct : CT) (d : Dec) (β γ : Bits) : decodeSteps l ct d (β ++ γ) =
    ((decodeSteps l ct d β).1 ++ (decodeSteps l ct (decodeSteps l ct d β).2 γ).1,
      (decodeSteps l ct (decodeSteps l ct d β).2 γ).2) := by
  induction β generalizing d with
  | nil => simp [decodeSteps]
  | cons b β ih =>
    simp only [List.cons_append, decodeSteps]
    rcases decStep l ct d b with ⟨o, d1⟩
    cases o <;> simp [ih]

/-- The bits of a stream never end the session. -/
@[simp] theorem decodeSteps_state (l : Nat) (ct : CT) (d : Dec) (β : Bits) :
    (decodeSteps l ct d β).2.state = d.state := by
  induction β generalizing d with
  | nil => rfl
  | cons b β ih =>
    simp only [decodeSteps]
    rcases decStep_cases l ct d b with ⟨_, h⟩ | ⟨_, s, _, h⟩ | ⟨_, _, h⟩ <;> simp [h, ih]

/-- At most one symbol per bit. -/
theorem decodeSteps_length_le (l : Nat) (ct : CT) (d : Dec) (β : Bits) :
    (decodeSteps l ct d β).1.length ≤ β.length := by
  induction β generalizing d with
  | nil => simp [decodeSteps]
  | cons b β ih =>
    simp only [decodeSteps]
    rcases decStep l ct d b with ⟨o, d1⟩
    have := ih d1
    cases o <;> simp <;> omega

/-- Everything a run of delivered bits can do (R142 to R144). -/
theorem deliverBits_eq (β : Bits) (s : State) : β.foldl deliverBit s =
    withOutput (symWords (decodeSteps s.params.lMax s.ct s.dec β).1)
      { s with
        unpack := { remain := s.unpack.remain - BitVec.ofNat 32 β.length }
        dec := (decodeSteps s.params.lMax s.ct s.dec β).2 } := by
  have sub_succ : ∀ (x : BitVec 32) (n : Nat), x - 1 - BitVec.ofNat 32 n = x - BitVec.ofNat 32 (n + 1) := by
    intro x n
    rw [BitVec.ofNat_add, BitVec.sub_sub, BitVec.add_comm]; rfl
  induction β generalizing s with
  | nil => simp [decodeSteps, symWords, withOutput]
  | cons b β ih =>
    rw [List.foldl_cons, ih, deliverBit_eq]
    simp only [decodeSteps, List.length_cons, sub_succ]
    generalize decStep s.params.lMax s.ct s.dec b = r
    obtain ⟨o, d⟩ := r
    cases o <;> simp [withOutput, symWords, List.append_assoc]

/-- Everything a payload byte can do (R142, R143). -/
theorem deliverByte_eq (B : BitVec 8) (s : State) : deliverByte B s =
    withOutput (symWords (decodeSteps s.params.lMax s.ct s.dec ((byteBits B).take (bitsTaken s))).1)
      { s with
        unpack := { remain := s.unpack.remain - BitVec.ofNat 32 (bitsTaken s) }
        dec := (decodeSteps s.params.lMax s.ct s.dec ((byteBits B).take (bitsTaken s))).2 } := by
  have hl : ((byteBits B).take (bitsTaken s)).length = bitsTaken s := by simp [bitsTaken]
  unfold deliverByte
  rw [deliverBits_eq, hl]

/-- The counter after a byte, as a natural number: it never goes below 0 (R146). -/
theorem remain_after_byte (s : State) : (s.unpack.remain - BitVec.ofNat 32 (bitsTaken s)).toNat =
    s.unpack.remain.toNat - bitsTaken s := by
  have h : (BitVec.ofNat 32 (bitsTaken s)).toNat = bitsTaken s := by simp [bitsTaken]
  rw [BitVec.toNat_sub_of_le, h]
  rw [BitVec.le_def, h]
  simp [bitsTaken]

/-- A strict part of a valid code matches nothing. -/
theorem matchSym_of_strict_part {P : Params} {ct : CT} (hct : CtInv P ct) {s : Symbol}
    (hv : (readAt ct.entry s).valid = true) {p q : Bits} (hq : q ≠ []) (h : (readAt ct.entry s).bits = p ++ q) :
    matchSym ct p = none := by
  rw [matchSym_none]
  intro t htv htb
  by_cases e : t = s
  · subst e
    rw [htb] at h
    exact hq (List.self_eq_append_right.1 h)
  · exact hct.prefix_free t s e htv hv (by rw [htb, h]; exact List.prefix_append _ _)

/-- The bits of one code, from the root: its symbol, and back to the root. -/
theorem decodeSteps_code {P : Params} {ct : CT} (hct : CtInv P ct) {s : Symbol}
    (hv : (readAt ct.entry s).valid = true) (x : Session) (p q : Bits) (hq : q ≠ [])
    (h : (readAt ct.entry s).bits = p ++ q) :
    decodeSteps P.lMax ct { state := x, acc := p, dead := false } q =
      ([s], { state := x, acc := [], dead := false }) := by
  induction q generalizing p with
  | nil => exact absurd rfl hq
  | cons b q ih =>
    simp only [decodeSteps]
    by_cases hq' : q = []
    · subst hq'
      have hm := matchSym_eq_of_code hct hv
      rw [h] at hm
      simp [decStep, hm, decodeSteps]
    · have hm : matchSym ct (p ++ [b]) = none := matchSym_of_strict_part hct hv hq' (by rw [h]; simp)
      have hlen : p.length + 1 ≠ P.lMax := by
        have h1 := length_bits hct hv
        have h2 := hct.len_le s hv
        have h3 : 0 < q.length := List.length_pos_iff.2 hq'
        rw [h] at h1
        simp at h1; omega
      have hstep : decStep P.lMax ct { state := x, acc := p, dead := false } b =
          (none, { state := x, acc := p ++ [b], dead := false }) := by simp [decStep, hm, hlen]
      rw [hstep]
      exact ih (p ++ [b]) hq' (by rw [h]; simp)

/-- A dead decoder does nothing (R144). -/
theorem decodeSteps_dead (l : Nat) (ct : CT) (d : Dec) (h : d.dead = true) (β : Bits) :
    decodeSteps l ct d β = ([], d) := by
  induction β with
  | nil => rfl
  | cons b β ih => simp [decodeSteps, decStep, h, ih]

/-- The stream of a text, symbol by symbol. -/
theorem streamOf_cons {ct : CT} {x : Symbol} {text : List Symbol} {β : Bits} :
    streamOf ct (x :: text) = some β ↔ ∃ c δ, codeOf ct x = some c ∧ streamOf ct text = some δ ∧ β = c ++ δ := by
  simp only [streamOf]
  cases codeOf ct x with
  | none => simp
  | some c =>
    cases streamOf ct text with
    | none => simp
    | some δ => simp [eq_comm]

end Sys2Proof.Machine
end

