-- ==== Sys2Proof/Laws/Runs.lean ====
section
/-! SUPPORT. Runs of commands (R6): composing them, what they append to the output, and runs in which nothing is raised. -/

namespace Sys2Proof.Machine

theorem execAll_cons {i : Instr} {l : List Instr} {s t : State} (h : exec i s = .next t) :
    execAll (i :: l) s = execAll l t := by
  simp only [execAll, h]

theorem execAll_append {l l' : List Instr} {s t : State} (h : execAll l s = .next t) :
    execAll (l ++ l') s = execAll l' t := by
  induction l generalizing s with
  | nil => simp [execAll] at h; subst h; rfl
  | cons i l ih =>
    simp only [List.cons_append, execAll] at h ⊢
    cases hi : exec i s with
    | next u => rw [hi] at h; exact ih h
    | fault f => rw [hi] at h; simp at h
    | refused r => rw [hi] at h; simp at h

/-- An absorbed code appends to the output and leaves the rest of the ports alone. -/
theorem packCode_port (c : Bits) (s : State) : ∃ ws, (packCode c s).port = { s.port with outQ := s.port.outQ ++ ws } := by
  induction c generalizing s with
  | nil => exact ⟨[], by simp [packCode]⟩
  | cons b c ih =>
    obtain ⟨ws, h⟩ := ih (packAbsorb s b)
    simp only [packCode, List.foldl_cons] at h ⊢
    rw [h, packAbsorb_eq]
    split
    · exact ⟨_, by simp only [List.append_assoc]; rfl⟩
    · exact ⟨ws, rfl⟩

/-- Every command only appends to the output (R51). -/
theorem exec_port {i : Instr} {s t : State} (h : exec i s = .next t) :
    ∃ ws, t.port = { s.port with outQ := s.port.outQ ++ ws } := by
  rcases exec_cases h with ⟨F, -, rfl⟩ | ⟨-, rfl⟩
  · rw [raised_eq]; exact ⟨_, rfl⟩
  · cases i with
    | encPush sym => exact packCode_port _ s
    | decPush B => simp only [effect]; rw [deliverByte_eq]; exact ⟨_, rfl⟩
    | rdReg _ => exact ⟨_, rfl⟩
    | faRd _ => exact ⟨_, rfl⟩
    | encFlush => exact ⟨_, rfl⟩
    | decEnd => exact ⟨_, rfl⟩
    | _ => exact ⟨[], by simp [effect]⟩

/-- Every command of the run raises nothing. -/
def CleanRun : List Instr → State → Prop
  | [], _ => True
  | i :: rest, s => firstFault s i = none ∧ CleanRun rest (effect s i)

/-- The effects of a run in which nothing is raised. -/
def effects : List Instr → State → State
  | [], s => s
  | i :: rest, s => effects rest (effect s i)

theorem execAll_of_clean {l : List Instr} {s : State} (h : CleanRun l s) : execAll l s = .next (effects l s) := by
  induction l generalizing s with
  | nil => rfl
  | cons i l ih =>
    have : exec i s = .next (effect s i) := by rw [exec_eq, h.1]
    rw [execAll_cons this, ih h.2]; rfl

theorem cleanRun_append (l l' : List Instr) (s : State) :
    CleanRun (l ++ l') s ↔ CleanRun l s ∧ CleanRun l' (effects l s) := by
  induction l generalizing s with
  | nil => simp [CleanRun, effects]
  | cons i l ih => simp [CleanRun, effects, ih, and_assoc]

theorem effects_append (l l' : List Instr) (s : State) : effects (l ++ l') s = effects l' (effects l s) := by
  induction l generalizing s with
  | nil => rfl
  | cons i l ih => simp [effects, ih]

/-- A run that emits nothing raised nothing, since every fault emits its word (R202). -/
theorem clean_of_silent {l : List Instr} {s t : State} (h : execAll l s = .next t)
    (ho : t.port.outQ = s.port.outQ) : CleanRun l s ∧ t = effects l s := by
  have grows : ∀ (l : List Instr) (s t : State), execAll l s = .next t → ∃ ws, t.port.outQ = s.port.outQ ++ ws := by
    intro l
    induction l with
    | nil => intro s t h; simp [execAll] at h; exact ⟨[], by simp [h]⟩
    | cons i l ih =>
      intro s t h
      obtain ⟨ws, hw⟩ := exec_port (exec_eq i s)
      rw [execAll_cons (exec_eq i s)] at h
      obtain ⟨ws', hw'⟩ := ih _ _ h
      exact ⟨ws ++ ws', by rw [hw', hw]; simp⟩
  induction l generalizing s with
  | nil => simp [execAll] at h; exact ⟨trivial, h.symm⟩
  | cons i l ih =>
    have he := exec_eq i s
    rw [execAll_cons he] at h
    obtain ⟨ws', h2⟩ := grows _ _ _ h
    cases hf : firstFault s i with
    | some F =>
      rw [hf] at h2
      dsimp only at h2
      rw [raised_eq] at h2
      have := congrArg List.length (ho.symm.trans h2)
      simp at this
    | none =>
      rw [hf] at h
      obtain ⟨ws, hw⟩ := exec_port (he.trans (by rw [hf]))
      have hq : (effect s i).port.outQ = s.port.outQ := by
        rw [hf] at h2
        dsimp only at h2
        rw [hw] at h2 ⊢
        rw [ho] at h2
        simp at h2
        simp [h2.1]
      obtain ⟨a, b⟩ := ih h (ho.trans hq.symm)
      exact ⟨⟨hf, a⟩, b⟩

end Sys2Proof.Machine
end

