-- ==== Sys2Proof/Laws/Units.lean ====
section
/-! SUPPORT. What each unit's operation does to that unit's invariant (R18, R20, R24, R26), one lemma per operation. -/

namespace Sys2Proof.Machine

/-- The bounds of U32. -/
theorem params_bounds {P : Params} (h : P.wf = true) :
    (1 ≤ P.lMax ∧ P.lMax ≤ 255) ∧ (1 ≤ P.wCnt ∧ P.wCnt ≤ 32) ∧ 1 ≤ P.wLen ∧ P.wLen ≤ 32 := by
  simp [Params.wf] at h; omega

/-! ### The sticky flags (R14) -/

/-- A fault sets a flag that exists. -/
theorem errFlags_or (e : Word) (F : FaultKind) (h : e &&& ~~~errFlagMask = 0) :
    (e ||| F.mask) &&& ~~~errFlagMask = 0 := by
  have hm : F.mask &&& ~~~errFlagMask = 0 := by cases F <;> decide
  apply BitVec.eq_of_getLsbD_eq
  intro i hi
  have h1 := congrArg (fun x => x.getLsbD i) h
  have h2 := congrArg (fun x => x.getLsbD i) hm
  simp only [BitVec.getLsbD_and, BitVec.getLsbD_or] at h1 h2 ⊢
  rw [Bool.and_or_distrib_right, h1, h2]
  exact Bool.or_self _

/-! ### FA (R18) -/

theorem count_le_sum (t : Vector (BitVec 32) 256) (s : Symbol) :
    (readAt t s).toNat ≤ (t.toList.map BitVec.toNat).sum := by
  apply List.single_le_sum (by simp)
  exact List.mem_map.2 ⟨_, (mem_toList_iff_readAt _ _).2 ⟨s, rfl⟩, rfl⟩

theorem clearHistogram_inv (P : Params) (s : State) : FaInv P (clearHistogram s).fa := by
  refine ⟨?_, ?_, ?_⟩
  · simp only [clearHistogram_fa]; rw [sum_tabulate_zero BitVec.toNat _ rfl]; rfl
  · simp only [clearHistogram_fa]; rw [countP_eq_zero_of_readAt _ _ (by simp)]; rfl
  · simp

/-- One counted symbol: the invariant is kept and no counter wraps (R105). -/
theorem countSymbol_inv {P : Params} (hP : P.wf = true) {s : State} (h : FaInv P s.fa)
    (hn : s.fa.total.toNat ≠ 2 ^ P.wCnt - 1) (sym : Symbol) :
    FaInv P (countSymbol sym s).fa ∧ (countSymbol sym s).fa.total.toNat = s.fa.total.toNat + 1 ∧
      (readAt (countSymbol sym s).fa.count sym).toNat = (readAt s.fa.count sym).toNat + 1 := by
  have hw := params_bounds hP
  have h32 : 2 ^ P.wCnt ≤ 2 ^ 32 := Nat.pow_le_pow_right (by omega) (by omega)
  have hle := count_le_sum s.fa.count sym
  rw [← h.total_eq] at hle
  have hlt := h.total_lt
  have h1 : (readAt s.fa.count sym + 1).toNat = (readAt s.fa.count sym).toNat + 1 := by
    rw [BitVec.toNat_add]; simp; omega
  have h2 : (s.fa.total + 1).toNat = s.fa.total.toNat + 1 := by
    rw [BitVec.toNat_add]; simp; omega
  refine ⟨⟨?_, ?_, ?_⟩, h2, by simp only [countSymbol_count, readAt_writeAt_same, h1]⟩
  · simp only [countSymbol_total, countSymbol_count, h2]
    have := sum_writeAt BitVec.toNat s.fa.count sym (readAt s.fa.count sym + 1)
    rw [h1, ← h.total_eq] at this; omega
  · simp only [countSymbol_distinct, countSymbol_count]
    have hc := countP_writeAt (fun x => decide (x ≠ 0#32)) s.fa.count sym (readAt s.fa.count sym + 1)
    have hne : readAt s.fa.count sym + 1 ≠ 0#32 := by intro e; rw [e] at h1; simp at h1
    have hb := countP_le (fun x => decide (x ≠ 0#32)) (writeAt s.fa.count sym (readAt s.fa.count sym + 1))
    rw [← h.distinct_eq] at hc
    simp only [hne, ne_eq, not_false_eq_true, decide_true, if_true] at hc hb
    split
    · rename_i h0
      have h0' : readAt s.fa.count sym = 0#32 := h0
      simp only [h0', not_true_eq_false, decide_false, Bool.false_eq_true, if_false] at hc hb ⊢
      rw [BitVec.toNat_add]; simp at hc hb ⊢; omega
    · rename_i h0
      have h0' : ¬ readAt s.fa.count sym = 0#32 := h0
      simp only [h0', not_false_eq_true, decide_true, if_true] at hc ⊢
      simp at hc ⊢; omega
  · simp only [countSymbol_total, h2]; omega

/-! ### CT (R20) -/

/-- An entry that meets the tests of R112 to R114 keeps the table's invariant. -/
theorem installEntry_inv {P : Params} (hP : P.wf = true) {ct : CT} (h : CtInv P ct) (sym : Symbol) (code : Bits)
    (hv : (readAt ct.entry sym).valid = false) (hne : code ≠ []) (hl : code.length ≤ P.lMax)
    (hc : ¬ Collides ct code) (b : Bool) :
    CtInv P { ct with
      entry := writeAt ct.entry sym { valid := true, len := BitVec.ofNat 8 code.length, code := code }
      n := ct.n + 1
      ldActive := b } := by
  have hw := params_bounds hP
  have hlen : (BitVec.ofNat 8 code.length).toNat = code.length := by simp; omega
  have hpos : 0 < code.length := List.length_pos_iff.2 hne
  have hbits : (CtEntry.mk true (BitVec.ofNat 8 code.length) code).bits = code := by
    simp only [CtEntry.bits, hlen, List.take_length]
  constructor
  · have h1 := countP_writeAt (fun e : CtEntry => e.valid) ct.entry sym
      { valid := true, len := BitVec.ofNat 8 code.length, code := code }
    have h2 := countP_lt_of_readAt (fun e : CtEntry => e.valid) ct.entry sym hv
    rw [← h.n_eq] at h1 h2
    simp only [hv, if_true, Bool.false_eq_true, if_false] at h1
    show (ct.n + 1).toNat = _
    rw [BitVec.toNat_add]
    show (ct.n.toNat + 1) % 512 = (writeAt ct.entry sym
      { valid := true, len := BitVec.ofNat 8 code.length, code := code }).toList.countP (fun e : CtEntry => e.valid)
    omega
  · intro r; simp only [readAt_writeAt]; split
    · intro _; simp only [hlen]; omega
    · exact h.len_pos r
  · intro r; simp only [readAt_writeAt]; split
    · intro _; simp only [hlen]; exact hl
    · exact h.len_le r
  · intro r; simp only [readAt_writeAt]; split
    · intro _; simp only [hlen]
    · exact h.code_len r
  · intro r t hrt; simp only [readAt_writeAt]
    by_cases h1 : r = sym <;> by_cases h2 : t = sym
    · exact absurd (h1.trans h2.symm) hrt
    · simp only [h1, if_true, h2, if_false, hbits]; intro _ hvt hp; exact hc ⟨t, hvt, .inr hp⟩
    · simp only [h1, if_false, h2, if_true, hbits]; intro hvr _ hp; exact hc ⟨r, hvr, .inl hp⟩
    · simp only [h1, if_false, h2]; exact h.prefix_free r t hrt

/-! ### PACK (R24) -/

/-- What PACK holds after a stream meets R24. -/
theorem packed_inv (β : Bits) (n : BitVec 32) (h : n.toNat % 8 = β.length % 8) :
    PackInv { acc := payloadByte β (β.length / 8), fill := BitVec.ofNat 3 (β.length % 8), nbits := n } := by
  have hf : (BitVec.ofNat 3 (β.length % 8)).toNat = β.length % 8 := by simp
  refine ⟨by rw [hf]; exact h.symm, fun i hi => ?_⟩
  simp only [hf] at hi
  have hb := payloadByte_bit β (β.length / 8) (7 - i) (by omega)
  rw [show 7 - (7 - i) = i by omega] at hb
  rw [hb, List.getD_eq_getElem?_getD, List.getElem?_eq_none (by omega)]; rfl

/-! ### DEC (R26, R146) -/

theorem decStep_inv {P : Params} (hP : P.wf = true) (ct : CT) {d : Dec} (h : DecInv P d) (b : Bool) :
    DecInv P (decStep P.lMax ct d b).2 := by
  have hw := params_bounds hP
  rcases decStep_cases P.lMax ct d b with ⟨_, e⟩ | ⟨hd, s, _, e⟩ | ⟨hd, _, e⟩
  · rw [e]; exact h
  · rw [e]; constructor <;> simp [hd]; omega
  · have hne : d.acc.length ≠ P.lMax := fun e => by have := h.dead_iff.2 e; simp [hd] at this
    have := h.length_le
    rw [e]
    constructor
    · simp; omega
    · simp

theorem decodeSteps_inv {P : Params} (hP : P.wf = true) (ct : CT) {d : Dec} (h : DecInv P d) (β : Bits) :
    DecInv P (decodeSteps P.lMax ct d β).2 := by
  induction β generalizing d with
  | nil => exact h
  | cons b β ih =>
    have hs := decStep_inv hP ct h b
    simp only [decodeSteps]
    rcases hds : decStep P.lMax ct d b with ⟨o, d1⟩
    rw [hds] at hs
    cases o <;> exact ih hs

end Sys2Proof.Machine
end

