-- ==== Sys2Proof/Tests/Slice0.lean ====
section
/-! SUPPORT. Tests: the well-formedness smoke, decoding of words written out from the spec's tables, one or two single steps
per command, the host's functions, and a witness for every statement with hypotheses. Expected results come from
`95_test_vectors.md` (the vector's name stands in the comment) or from the rule named. -/

namespace Sys2Proof.Tests

open Sys2Proof.Machine Sys2Proof.HostSide

/- Kernel evaluations one after another: in parallel each waits in a thread of its own. -/
set_option Elab.async false

/-! ### Helpers -/

/-- The state a command leaves. -/
def after (i : Instr) (s : State) : State :=
  match exec i s with
  | .next t => t
  | .fault _ => s
  | .refused _ => s

/-- The words a command appends to an output queue that was empty. -/
def out (i : Instr) (s : State) : List OutWord := (after i s).port.outQ

/-- A cleared table. -/
def ctEmpty : CT :=
  { entry := tabulate fun _ => { valid := false, len := 0, code := [] }
    n := 0, init := true, ldActive := false, ldSym := 0, ldCode := [] }

/-- One more entry. -/
def ctAdd (ct : CT) (sym : Symbol) (code : Bits) : CT :=
  { ct with
    entry := writeAt ct.entry sym { valid := true, len := BitVec.ofNat 8 code.length, code := code }
    n := ct.n + 1
    ldActive := false }

/-- T1: `A:"0"`, `B:"10"`, `C:"11"`. -/
def t1 : CT := ctAdd (ctAdd (ctAdd ctEmpty 65 [false]) 66 [true, false]) 67 [true, true]

/-- T2: `X:"0"`, `Y:"1111111110"`. -/
def t2 : CT := ctAdd (ctAdd ctEmpty 88 [false]) 89 [true, true, true, true, true, true, true, true, true, false]

/-- After reset, with FA cleared and the given table. -/
def ready (ct : CT) : State := clearHistogram { State.reset with ct := ct }

/-- T1 with an encode session, PACK as given. -/
def encoding (p : Pack) : State := { ready t1 with enc := { state := .active }, pack := p }

/-- T1 with a decode session of `n` bits left. -/
def decoding (n : Word) (acc : Bits) : State :=
  { ready t1 with unpack := { remain := n }, dec := { state := .active, acc := acc, dead := false } }

/-- A load for `sym` in progress over a table. -/
def loading (ct : CT) (sym : Symbol) (code : Bits) : State :=
  ready { ct with ldActive := true, ldSym := sym, ldCode := code }

/-- FA as in FA7 and FA8: every count so far is of 'A'. -/
def counted (n : Word) : State :=
  { ready t1 with fa := { count := tabulate fun s => if s = 65#8 then n else 0, total := n, distinct := 1, init := true } }

/-- The host offers these things. -/
def offering (es : List HostEvent) (s : State) : State := withInbox es s

/-! ### Well-formedness: each check refuses an ill-formed term, and accepts the boundary -/

/-- R65: with `W_LEN = 8` the length operand is 8 bits. -/
theorem test_wellFormed_refuses_long_length :
    WellFormed { wCnt := 32, wLen := 8, lMax := 255 } (.decStart 256) = false ∧
    WellFormed { wCnt := 32, wLen := 8, lMax := 255 } (.decStart 255) = true := by decide

/-- U32: the bounds of the parameters, one refusal each. -/
theorem test_params_refused :
    Params.wf { wCnt := 32, wLen := 32, lMax := 0 } = false ∧ Params.wf { wCnt := 32, wLen := 32, lMax := 256 } = false ∧
    Params.wf { wCnt := 0, wLen := 32, lMax := 255 } = false ∧ Params.wf { wCnt := 33, wLen := 32, lMax := 255 } = false ∧
    Params.wf { wCnt := 32, wLen := 0, lMax := 255 } = false ∧ Params.wf { wCnt := 32, wLen := 33, lMax := 255 } = false ∧
    Params.wf { wCnt := 1, wLen := 1, lMax := 1 } = true ∧ Params.wf Config.params = true := by decide

/-! ### Decoding: every constructor, by the words of section 2.1 -/

theorem test_decode_system :
    decode Config.params 0x0000000000#40 = .ok .nop ∧ decode Config.params 0x0100000008#40 = .ok (.rdReg 8) ∧
    decode Config.params 0x0200000000#40 = .ok .clrErr := ⟨rfl, rfl, rfl⟩

theorem test_decode_fa :
    decode Config.params 0x1000000000#40 = .ok .faClr ∧ decode Config.params 0x1100000041#40 = .ok (.faPush 65) ∧
    decode Config.params 0x1200000042#40 = .ok (.faRd 66) := ⟨rfl, rfl, rfl⟩

theorem test_decode_ct :
    decode Config.params 0x2000000000#40 = .ok .ctClr ∧ decode Config.params 0x2100000043#40 = .ok (.ctBegin 67) ∧
    decode Config.params 0x2200000001#40 = .ok (.ctBit true) ∧ decode Config.params 0x2200000000#40 = .ok (.ctBit false) ∧
    decode Config.params 0x2300000000#40 = .ok .ctEnd := ⟨rfl, rfl, rfl, rfl, rfl⟩

theorem test_decode_enc :
    decode Config.params 0x3000000000#40 = .ok .encStart ∧ decode Config.params 0x3100000041#40 = .ok (.encPush 65) ∧
    decode Config.params 0x3200000000#40 = .ok .encFlush := ⟨rfl, rfl, rfl⟩

theorem test_decode_dec :
    decode Config.params 0x400000000E#40 = .ok (.decStart 14) ∧
    decode Config.params 0x40FFFFFFFF#40 = .ok (.decStart 0xFFFFFFFF) ∧
    decode Config.params 0x41000000AF#40 = .ok (.decPush 0xAF) ∧
    decode Config.params 0x4200000000#40 = .ok .decEnd := ⟨rfl, rfl, rfl, rfl⟩

/-- IL1 to IL5, IL7, IL8: no command. -/
theorem test_decode_illegal :
    decode Config.params 0x0500000000#40 = .error (.undefinedOpcode 0x05) ∧
    decode Config.params 0xFFFFFFFFFF#40 = .error (.undefinedOpcode 0xFF) ∧
    decode Config.params 0x0000000001#40 = .error (.reservedBits 0x00) ∧
    decode Config.params 0x1100000100#40 = .error (.reservedBits 0x11) ∧
    decode Config.params 0x2200000002#40 = .error (.reservedBits 0x22) ∧
    decode Config.params 0x0100000100#40 = .error (.reservedBits 0x01) ∧
    decode Config.params 0x0280000000#40 = .error (.reservedBits 0x02) := ⟨rfl, rfl, rfl, rfl, rfl, rfl, rfl⟩

/-- IL9: the first undefined opcode after each unit's group. -/
theorem test_decode_group_ends :
    decode Config.params 0x1300000000#40 = .error (.undefinedOpcode 0x13) ∧
    decode Config.params 0x2400000000#40 = .error (.undefinedOpcode 0x24) ∧
    decode Config.params 0x3300000000#40 = .error (.undefinedOpcode 0x33) ∧
    decode Config.params 0x4300000000#40 = .error (.undefinedOpcode 0x43) := ⟨rfl, rfl, rfl, rfl⟩

/-- The encoder against the same table. -/
theorem test_encode :
    encode (.rdReg 8) = 0x0100000008#40 ∧ encode (.faPush 65) = 0x1100000041#40 ∧ encode (.ctBit true) = 0x2200000001#40 ∧
    encode (.decStart 14) = 0x400000000E#40 ∧ encode (.decPush 0xAF) = 0x41000000AF#40 := by decide

/-- Section 2.1, one word of every output kind. -/
theorem test_output_words :
    outWord .data 5 = 0x0100000005#40 ∧ outWord .byte 0xAF = 0x02000000AF#40 ∧ outWord .len 14 = 0x030000000E#40 ∧
    outWord .sym 65 = 0x0400000041#40 ∧ outWord .done 0 = 0x0500000000#40 ∧ errWord .payloadShort = 0x0F0000000B#40 := by
  decide

/-- The row's two access functions, on `RD_REG 0` from reset. -/
theorem test_table_word : decodeTableWord 40 0x0100000000 = some (.rdReg 0) := rfl
theorem test_fetch_word : step (State.reset.withFetchWord 40 0x0100000000) = exec (.rdReg 0) State.reset := rfl

/-! ### One step of each command -/

/-- SY6. -/
theorem test_nop_keeps_err : (after .nop { State.reset with err := 2 }).err = 2 ∧ out .nop State.reset = [] := ⟨rfl, rfl⟩
/-- SY4, SY5. -/
theorem test_rdReg_params_and_index : out (.rdReg 8) State.reset = [0x01082020FF#40] ∧
    out (.rdReg 9) State.reset = [0x0F00000001#40] ∧ (after (.rdReg 9) State.reset).err = 2 := ⟨rfl, rfl, rfl⟩
/-- SY8: FA and CT initialised, both sessions active. -/
theorem test_rdReg_status : out (.rdReg 2)
    { encoding { acc := 0, fill := 0, nbits := 0 } with dec := { state := .active, acc := [], dead := false } } =
      [0x010000000F#40] := rfl
/-- R93's example. -/
theorem test_clrErr : (after .clrErr { State.reset with err := 0x404 }).err = 0 := rfl
/-- FA3, with the flag. -/
theorem test_faClr : (after .faClr (counted 7)).fa.total = 0 ∧ readAt (after .faClr (counted 7)).fa.count 65 = 0 ∧
    readAt (after .faClr (counted 7)).fa.count 255 = 0 ∧ (after .faClr State.reset).fa.init = true := by decide +kernel
/-- FA7: the push of another symbol is refused too. -/
theorem test_faPush_overflow : out (.faPush 66) (counted 0xFFFFFFFF) = [0x0F00000003#40] ∧
    (after (.faPush 66) (counted 0xFFFFFFFF)).fa = (counted 0xFFFFFFFF).fa := ⟨by decide +kernel, rfl⟩
/-- FA8, and a symbol seen for the first time. -/
theorem test_faPush_counts : (after (.faPush 65) (counted 0xFFFFFFFE)).fa.total = 0xFFFFFFFF ∧
    (after (.faPush 65) (counted 0xFFFFFFFE)).fa.distinct = 1 ∧ (after (.faPush 66) (counted 5)).fa.distinct = 2 ∧
    readAt (after (.faPush 66) (counted 5)).fa.count 66 = 1 := by decide +kernel
/-- FA1, and a read of a counter. -/
theorem test_faRd : out (.faRd 65) State.reset = [0x0F00000002#40] ∧ out (.faRd 65) (counted 4) = [0x0100000004#40] ∧
    out (.faRd 67) (counted 4) = [0x0100000000#40] := by decide +kernel
/-- CT12, CT11. -/
theorem test_ctClr : out .ctClr (encoding { acc := 0, fill := 0, nbits := 0 }) = [0x0F00000002#40] ∧
    (after .ctClr (loading t1 68 [true])).ct.ldActive = false ∧ (after .ctClr (loading t1 68 [true])).ct.n = 0 ∧
    (readAt (after .ctClr (ready t1)).ct.entry 65).valid = false ∧
    (readAt (after .ctClr (ready t1)).ct.entry 65).code = [false] := by decide +kernel
/-- CT6, and a load that starts. -/
theorem test_ctBegin : out (.ctBegin 65) (ready t1) = [0x0F00000004#40] ∧
    (after (.ctBegin 65) (ready t1)).ct.ldActive = false ∧ (after (.ctBegin 68) (ready t1)).ct.ldSym = 68 ∧
    (after (.ctBegin 68) (ready t1)).ct.ldActive = true := by decide +kernel
/-- R113's example, and CT8's 256th bit. -/
theorem test_ctBit : (after (.ctBit false) (loading ctEmpty 66 [true])).ct.ldCode = [true, false] ∧
    out (.ctBit true) (loading ctEmpty 68 (List.replicate 255 true)) = [0x0F00000006#40] ∧
    (after (.ctBit true) (loading ctEmpty 68 (List.replicate 255 true))).ct.ldActive = false := by decide +kernel
/-- CT3, CT4, CT5: extension, prefix, equality. -/
theorem test_ctEnd_collisions :
    out .ctEnd (loading (ctAdd ctEmpty 65 [false]) 66 [false, true]) = [0x0F00000007#40] ∧
    out .ctEnd (loading (ctAdd ctEmpty 66 [false, true]) 65 [false]) = [0x0F00000007#40] ∧
    out .ctEnd (loading (ctAdd ctEmpty 65 [false]) 66 [false]) = [0x0F00000007#40] := by decide +kernel
/-- PR3, and an entry that is installed (CT9's length). -/
theorem test_ctEnd_installs : out .ctEnd (loading (ctAdd ctEmpty 65 [false]) 66 []) = [0x0F00000005#40] ∧
    (readAt (after .ctEnd (loading ctEmpty 68 (List.replicate 254 true ++ [false]))).ct.entry 68).len = 255 ∧
    (after .ctEnd (loading ctEmpty 68 (List.replicate 254 true ++ [false]))).ct.n = 1 := by decide +kernel
/-- EN12, and PACK emptied. -/
theorem test_encStart : out .encStart (encoding { acc := 0x40, fill := 3, nbits := 3 }) = [0x0F00000002#40] ∧
    (after .encStart (encoding { acc := 0x40, fill := 3, nbits := 3 })).pack.nbits = 3 ∧
    (after .encStart { ready t1 with pack := { acc := 0x40, fill := 3, nbits := 3 } }).pack =
      { acc := 0, fill := 0, nbits := 0 } := by decide +kernel
/-- EN3: a code across a byte boundary. -/
theorem test_encPush_spans_bytes :
    out (.encPush 89) { encoding { acc := 0, fill := 1, nbits := 1 } with ct := t2 } = [0x020000007F#40] ∧
    (after (.encPush 89) { encoding { acc := 0, fill := 1, nbits := 1 } with ct := t2 }).pack =
      { acc := 0xC0, fill := 3, nbits := 11 } := by decide +kernel
/-- EN13, EN14: the overflow test, and the unknown symbol that comes first. -/
theorem test_encPush_faults :
    out (.encPush 66) (encoding { acc := 0, fill := 6, nbits := 0xFFFFFFFE }) = [0x0F00000009#40] ∧
    (after (.encPush 65) (encoding { acc := 0, fill := 6, nbits := 0xFFFFFFFE })).pack.nbits = 0xFFFFFFFF ∧
    out (.encPush 68) (encoding { acc := 0, fill := 7, nbits := 0xFFFFFFFF }) = [0x0F00000008#40] := by decide +kernel
/-- EN1, EN2. -/
theorem test_encFlush : out .encFlush (encoding { acc := 0x4C, fill := 7, nbits := 7 }) = [0x020000004C#40, 0x0300000007#40] ∧
    out .encFlush (encoding { acc := 0, fill := 0, nbits := 8 }) = [0x0300000008#40] ∧
    (after .encFlush (encoding { acc := 0x4C, fill := 7, nbits := 7 })).pack = { acc := 0, fill := 0, nbits := 7 } := by
  decide +kernel
/-- DE23, and the longest declared length. -/
theorem test_decStart : out (.decStart 3) (decoding 7 []) = [0x0F00000002#40] ∧
    (after (.decStart 3) (decoding 7 [])).unpack.remain = 7 ∧
    (after (.decStart 0xFFFFFFFF) (ready t1)).unpack.remain = 0xFFFFFFFF := by decide +kernel
/-- DE1, DE4. -/
theorem test_decPush_emits : out (.decPush 0x4C) (decoding 7 []) =
      [0x0400000041#40, 0x0400000042#40, 0x0400000041#40, 0x0400000043#40, 0x0400000041#40] ∧
    (after (.decPush 0x4C) (decoding 5 [])).dec.acc = [true] := by decide +kernel
/-- DE7: a code carried across commands. -/
theorem test_decPush_carries :
    out (.decPush 0xC0) { decoding 3 (List.replicate 7 true) with ct := t2 } = [0x0400000059#40] ∧
    (after (.decPush 0xC0) { decoding 3 (List.replicate 7 true) with ct := t2 }).unpack.remain = 0 := by decide +kernel
/-- DE1, DE4, DE18 with PR5's order. -/
theorem test_decEnd : out .decEnd (decoding 0 []) = [0x0500000000#40] ∧
    out .decEnd (decoding 0 [true]) = [0x0F0000000A#40] ∧ out .decEnd (decoding 1 [true]) = [0x0F0000000B#40] := by
  decide +kernel
/-- DE19's bound: the 255th unmatched bit. -/
theorem test_decStep_dead :
    (decStep 255 ctEmpty { state := .active, acc := List.replicate 254 true, dead := false } true).2.dead = true ∧
    (decStep 255 ctEmpty { state := .active, acc := List.replicate 253 true, dead := false } true).2.dead = false := by
  decide +kernel
/-- IL8: an ill-formed `CLR_ERR` does not clear. -/
theorem test_step_illegal : (match step (offering [.cmd 0x0280000000#40] { State.reset with err := 4 }) with
    | .next t => (t.err, t.port.outQ)
    | _ => (0, [])) = (6, [0x0F00000001#40]) := by decide +kernel

/-! ### The host's functions (section 2.9) -/

/-- H2. -/
theorem test_host_codes : generate (build referencePolicy [(65, 2), (66, 3), (67, 4)]) =
    .ok [(67, [false]), (65, [true, false]), (66, [true, true])] := by decide +kernel
/-- H3 and H5: the ties. -/
theorem test_host_ties : generate (build referencePolicy [(65, 1), (66, 1), (67, 1), (68, 1)]) =
      .ok [(65, [false, false]), (66, [false, true]), (67, [true, false]), (68, [true, true])] ∧
    generate (build referencePolicy [(65, 1), (66, 1), (67, 2)]) =
      .ok [(67, [false]), (65, [true, false]), (66, [true, true])] := by decide +kernel
/-- H1's artifact, 26 bytes. -/
theorem test_host_artifact : writeArtifact [(65, [true]), (66, [false])] 5 [0xF0] =
    [0x32, 0x0A, 0x36, 0x35, 0x3A, 0x31, 0x0A, 0x36, 0x36, 0x3A, 0x30, 0x0A, 0x45, 0x4E, 0x44, 0x5F, 0x48, 0x45, 0x41, 0x44,
      0x45, 0x52, 0x0A, 0x35, 0x0A, 0xF0] := by decide +kernel
/-- H6: `65:02` and `300:0` are refused. -/
theorem test_host_header_refused : readEntry [0x36, 0x35, 0x3A, 0x30, 0x32] = none ∧
    readEntry [0x33, 0x30, 0x30, 0x3A, 0x30] = none ∧
    readEntry [0x36, 0x35, 0x3A, 0x30] = some (65, [false]) := by decide +kernel

/-! ### Witnesses: for every statement with hypotheses, states and operands that meet them together -/

theorem ctEmpty_inv : CtInv Config.params ctEmpty := by
  have hv : ∀ r, (readAt ctEmpty.entry r).valid = false := by simp [ctEmpty]
  constructor
  · rw [countP_eq_zero_of_readAt _ _ hv]; rfl
  all_goals intro r
  · simp [hv]
  · simp [hv]
  · simp [hv]
  · intro t _; simp [hv]

theorem not_collides {ct : CT} {c : Bits} (h : collides c ct = false) : ¬ Collides ct c := by
  rintro ⟨t, hv, hp⟩
  have := List.any_eq_false.1 h _ ((mem_toList_iff_readAt _ _).2 ⟨t, rfl⟩)
  simp [hv, clash, isPrefix_iff] at this
  rcases hp with hp | hp <;> simp_all

theorem ctAdd_inv {ct : CT} (h : CtInv Config.params ct) (sym : Symbol) (code : Bits)
    (hv : (readAt ct.entry sym).valid = false) (hne : code ≠ []) (hl : code.length ≤ 255)
    (hc : collides code ct = false) : CtInv Config.params (ctAdd ct sym code) :=
  installEntry_inv (by decide) h sym code hv hne hl (not_collides hc) false

theorem t1_inv : CtInv Config.params t1 := by
  refine ctAdd_inv (ctAdd_inv (ctAdd_inv ctEmpty_inv _ _ ?_ ?_ ?_ ?_) _ _ ?_ ?_ ?_ ?_) _ _ ?_ ?_ ?_ ?_ <;> decide +kernel

theorem fa_cleared (P : Params) (s : State) : FaInv P (clearHistogram s).fa := clearHistogram_inv P s

/-- EN1's PACK after six pushes. -/
theorem pack_en1 : PackInv { acc := 0x4C, fill := 7, nbits := 7 } := by
  refine ⟨by decide, fun i hi => ?_⟩
  have : i = 0 := by simp at hi; omega
  subst this; decide

/-- T1 loaded, both sessions idle, nothing pending: the state most witnesses use. -/
theorem ready_inv : Inv (ready t1) := by
  constructor
  case params => decide
  case err => decide
  case fa => exact fun _ => clearHistogram_inv _ _
  case ct => exact fun _ => t1_inv
  case dec => constructor <;> simp [ready, State.reset, State.afterReset, Config.params]
  all_goals simp [ready, State.reset, State.afterReset, Config.params, t1, ctAdd]

/-- An encode session in progress. -/
theorem encoding_inv : Inv (encoding { acc := 0x4C, fill := 7, nbits := 7 }) :=
  { ready_inv with
    load := by simp [encoding, ready, t1, ctAdd]
    enc_table := fun _ => rfl
    pack := fun _ => pack_en1
    nbits_lt := by decide
    remain_lt := by decide }

/-- A decode session in progress. -/
theorem decoding_inv : Inv (decoding 7 [true]) :=
  { ready_inv with
    load := by simp [decoding, ready, t1, ctAdd]
    dec_table := fun _ => rfl
    nbits_lt := by decide
    remain_lt := by decide
    dec := ⟨by decide, by decide⟩ }

theorem idle_legal : Legal (ready t1) .ctClr ∧ Legal (ready t1) .encStart ∧ Legal (ready t1) (.decStart 0) :=
  ⟨⟨rfl, rfl⟩, ⟨rfl, rfl, rfl⟩, ⟨rfl, rfl, rfl⟩⟩

/-- `95_test_vectors.md` EN1: the stream of "ABACA" under T1. -/
theorem t1_stream : streamOf t1 [65, 66, 65, 67, 65] = some [false, true, false, false, true, true, false] := by
  decide +kernel

theorem test_witness_DecodeOfEncode : WellFormed Config.params (.decStart 0xFFFFFFFF) = true := by decide
theorem test_witness_EncodeOfDecode : decode Config.params 0x11000000FF#40 = .ok (.faPush 0xFF) := rfl
theorem test_witness_DecodeFollowsOpcodeMap : decode Config.params 0x2200000001#40 = .ok (.ctBit true) ∧
    ∃ r ∈ opcodeRows, 0x2200000001#40 &&& r.maskBits = r.matchBits :=
  ⟨rfl, opcodeRows[8], List.getElem_mem _, by decide⟩
theorem test_witness_PrologueOfEveryCommand :
    (offering [.cmd 0xFFFFFFFFFF#40] (ready t1)).port.inbox = [.cmd 0xFFFFFFFFFF#40] ∧
    decode (ready t1).params 0xFFFFFFFFFF#40 = .error (.undefinedOpcode 0xFF) ∧
    (offering [.cmd 0x3000000000#40, .take] (ready t1)).port.inbox = .cmd 0x3000000000#40 :: [.take] ∧
    decode (ready t1).params 0x3000000000#40 = .ok .encStart := ⟨rfl, rfl, rfl, rfl⟩
theorem test_witness_StepRunsDecodedCommand : WellFormed (ready t1).params (.decStart 14) = true ∧
    (offering [.cmd (encode (.decStart 14)), .reset] (ready t1)).port.inbox = .cmd (encode (.decStart 14)) :: [.reset] :=
  ⟨by decide, rfl⟩
theorem test_witness_IdleAndDelivery : State.reset.port.inbox = [] ∧
    (offering [.take] (withOutput [0x0300000007#40] State.reset)).port.inbox = .take :: [] ∧
    (offering [.take] (withOutput [0x0300000007#40] State.reset)).port.outQ = 0x0300000007#40 :: [] ∧
    (offering [.take] State.reset).port.inbox = .take :: [] ∧ (offering [.take] State.reset).port.outQ = [] :=
  ⟨rfl, rfl, rfl, rfl, rfl⟩
theorem test_witness_ResetRestoresEveryElement :
    (offering [.reset, .take] (encoding { acc := 0x4C, fill := 7, nbits := 7 })).port.inbox = .reset :: [.take] := rfl
theorem test_witness_RegistersAfterReset : ((8#8, 0x082020FF#32) : BitVec 8 × Word) ∈ [(0#8, 0x48534331#32), (8#8, 0x082020FF#32)] := by
  decide
theorem test_witness_UnspecifiedArraysAreUnread : State.reset.fa.init = false ∧ State.reset.ct.init = false ∧
    State.reset.ct.ldActive = false ∧ State.reset.enc.state = .idle ∧ State.reset.dec.state = .idle ∧
    Instr.faRd 65 ≠ .ctClr ∧ (∃ t, exec (.faRd 65) State.reset = .next t) ∧ (∃ t, exec .faClr State.reset = .next t) :=
  ⟨rfl, rfl, rfl, rfl, rfl, by decide, ⟨_, rfl⟩, ⟨_, rfl⟩⟩
theorem test_witness_OutputOrderIsKept :
    (∀ rest, (offering [.cmd 0x0100000000#40] State.reset).port.inbox ≠ .reset :: rest) ∧
    (∃ t, step (offering [.cmd 0x0100000000#40] State.reset) = .next t) ∧
    (∀ w rest, (offering [.take] State.reset).port.inbox ≠ .cmd w :: rest) :=
  ⟨by simp [offering], ⟨_, rfl⟩, by simp [offering]⟩

/-- The operand values at which the formats' clauses begin (N, S and R, B). -/
theorem test_witness_reserved_operands : 1#32 ≠ 0#32 ∧ 0x80000000#32 ≠ 0#32 ∧ 0x100#32 >>> 8 ≠ 0#32 ∧ 2#32 >>> 1 ≠ 0#32 := by
  decide
theorem test_witness_RdRegReadsTheMap : (ready t1).params.wf = true ∧ 8 < (9#8).toNat ∧ 8 < (255#8).toNat := by decide
theorem test_witness_FaPushCountsOneSymbol : State.reset.fa.init = false ∧
    ((counted 0xFFFFFFFF).fa.init = true ∧ (counted 0xFFFFFFFF).fa.total.toNat = 2 ^ (counted 0xFFFFFFFF).params.wCnt - 1) ∧
    ((counted 0xFFFFFFFE).fa.init = true ∧ (counted 0xFFFFFFFE).fa.total.toNat ≠ 2 ^ (counted 0xFFFFFFFE).params.wCnt - 1) ∧
    readAt (counted 5).fa.count 66 = 0 ∧ readAt (counted 5).fa.count 65 ≠ 0 := by decide +kernel
theorem test_witness_FaRdReadsOneCounter : State.reset.fa.init = false ∧ (counted 4).fa.init = true := ⟨rfl, rfl⟩
theorem test_witness_CtClrEmptiesTheTable : (encoding { acc := 0, fill := 0, nbits := 0 }).enc.state = .active ∧
    (decoding 7 []).dec.state = .active ∧ (ready t1).enc.state = .idle ∧ (ready t1).dec.state = .idle := ⟨rfl, rfl, rfl, rfl⟩
theorem test_witness_CtBeginStartsALoad : State.reset.ct.init = false ∧ (loading t1 68 []).ct.ldActive = true ∧
    ((ready t1).ct.init = true ∧ (ready t1).ct.ldActive = false ∧ (ready t1).enc.state = .idle ∧ (ready t1).dec.state = .idle) ∧
    (readAt (ready t1).ct.entry 65).valid = true ∧ (readAt (ready t1).ct.entry 68).valid = false := by decide +kernel
theorem test_witness_CtBitAppendsOneBit : (ready t1).ct.ldActive = false ∧
    ((loading ctEmpty 68 (List.replicate 255 true)).ct.ldActive = true ∧
      (loading ctEmpty 68 (List.replicate 255 true)).ct.ldCode.length = (ready t1).params.lMax) ∧
    ((loading ctEmpty 68 (List.replicate 254 true)).ct.ldActive = true ∧
      (loading ctEmpty 68 (List.replicate 254 true)).ct.ldCode.length ≠ (ready t1).params.lMax) := by decide +kernel
/-- CT3's collision, and a code that fits. -/
theorem test_witness_CtEndInstallsTheCode : (ready t1).ct.ldActive = false ∧
    ((loading t1 68 []).ct.ldActive = true ∧ (loading t1 68 []).ct.ldCode = []) ∧
    ((loading t1 68 [false, true]).ct.ldActive = true ∧ (loading t1 68 [false, true]).ct.ldCode ≠ [] ∧
      Collides (loading t1 68 [false, true]).ct [false, true]) ∧
    ((loading ctEmpty 68 [true]).ct.ldActive = true ∧ (loading ctEmpty 68 [true]).ct.ldCode ≠ [] ∧
      ¬ Collides (loading ctEmpty 68 [true]).ct [true]) :=
  ⟨rfl, ⟨rfl, rfl⟩, ⟨rfl, by decide +kernel, 65, by decide +kernel, .inl (by decide +kernel)⟩,
    ⟨rfl, by decide +kernel, not_collides (by decide +kernel)⟩⟩
theorem test_witness_EncStartOpensASession : (encoding { acc := 0, fill := 0, nbits := 0 }).enc.state = .active ∧
    State.reset.ct.init = false ∧ (loading t1 68 []).ct.ldActive = true ∧
    ((ready t1).enc.state = .idle ∧ (ready t1).ct.init = true ∧ (ready t1).ct.ldActive = false) :=
  ⟨rfl, rfl, rfl, rfl, rfl, rfl⟩
/-- EN13's state on both sides of the bound, and a byte that completes. -/
theorem test_witness_EncPushPacksOneCode : (ready t1).enc.state = .idle ∧
    ((encoding { acc := 0, fill := 6, nbits := 0xFFFFFFFE }).enc.state = .active ∧
      (readAt (ready t1).ct.entry 68).valid = false ∧ (readAt (ready t1).ct.entry 66).valid = true ∧
      2 ^ (ready t1).params.wLen - 1 < (0xFFFFFFFE : Word).toNat + (readAt (ready t1).ct.entry 66).len.toNat) ∧
    ((readAt (ready t1).ct.entry 65).valid = true ∧
      (0xFFFFFFFE : Word).toNat + (readAt (ready t1).ct.entry 65).len.toNat ≤ 2 ^ (ready t1).params.wLen - 1 ∧
      PackInv { acc := 0, fill := 6, nbits := 0xFFFFFFFE } ∧ PackInv { acc := 0x4C, fill := 7, nbits := 7 }) :=
  ⟨rfl, ⟨rfl, by decide +kernel, by decide +kernel, by decide +kernel⟩,
    by decide +kernel, by decide +kernel, ⟨by decide, by simp⟩, pack_en1⟩
theorem test_witness_EncFlushReportsTheLength : (ready t1).enc.state = .idle ∧
    ((encoding { acc := 0x4C, fill := 7, nbits := 7 }).enc.state = .active ∧
      (encoding { acc := 0x4C, fill := 7, nbits := 7 }).pack.fill ≠ 0) ∧
    ((encoding { acc := 0, fill := 0, nbits := 8 }).enc.state = .active ∧
      (encoding { acc := 0, fill := 0, nbits := 8 }).pack.fill = 0) := ⟨rfl, ⟨rfl, by decide⟩, rfl, rfl⟩
theorem test_witness_DecStartOpensASession : (decoding 7 []).dec.state = .active ∧ State.reset.ct.init = false ∧
    (loading t1 68 []).ct.ldActive = true ∧
    ((ready t1).dec.state = .idle ∧ (ready t1).ct.init = true ∧ (ready t1).ct.ldActive = false) :=
  ⟨rfl, rfl, rfl, rfl, rfl, rfl⟩
/-- DE1's byte cut to seven bits; and nothing left to deliver. -/
theorem test_witness_DecPushDeliversBits : (ready t1).dec.state = .idle ∧ (decoding 7 []).dec.state = .active ∧
    7 = min 8 (decoding 7 []).unpack.remain.toNat ∧
    (∀ j < 7, [false, true, false, false, true, true, false][j]? = some ((0x4C : BitVec 8).getLsbD (7 - j))) ∧
    0 = min 8 (decoding 0 []).unpack.remain.toNat := ⟨rfl, rfl, by decide, by decide, by decide⟩
theorem test_witness_DecStepTakesOneBit : CtInv Config.params t1 ∧
    (readAt t1.entry 66).valid = true ∧ (readAt t1.entry 66).bits = [true] ++ [false] ∧
    (∀ s, (readAt t1.entry s).valid = true → (readAt t1.entry s).bits ≠ [] ++ [true]) :=
  ⟨t1_inv, by decide +kernel, by decide +kernel, matchSym_none.1 (by decide +kernel)⟩
theorem test_witness_DecEndGivesTheVerdict : (ready t1).dec.state = .idle ∧
    ((decoding 1 [true]).dec.state = .active ∧ (decoding 1 [true]).unpack.remain ≠ 0) ∧
    ((decoding 0 [true]).unpack.remain = 0 ∧ (decoding 0 [true]).dec.acc ≠ []) ∧
    ((decoding 0 []).unpack.remain = 0 ∧ (decoding 0 []).dec.dead = false ∧ (decoding 0 []).dec.acc = []) :=
  ⟨rfl, ⟨rfl, by decide⟩, ⟨rfl, by simp [decoding]⟩, rfl, rfl, rfl⟩

/-! The clauses about every command: which command sets or keeps what. -/

/-- A load of `D` over T1 with the bits `11` so far meets the invariant. -/
theorem loading_inv : Inv (loading t1 68 [true, true]) :=
  { ready_inv with
    ct := fun _ => { t1_inv with }
    load := fun _ => ⟨rfl, rfl, rfl, by decide, by decide +kernel⟩
    enc_table := by simp [loading, ready, State.reset, State.afterReset]
    dec_table := by simp [loading, ready, State.reset, State.afterReset] }
theorem test_witness_FaClr_CtClr_setters : State.reset.fa.init = false ∧ (after .faClr State.reset).fa.init = true ∧
    exec .faClr State.reset = .next (after .faClr State.reset) ∧
    State.reset.ct.init = false ∧ (after .ctClr State.reset).ct.init = true ∧
    exec .ctClr State.reset = .next (after .ctClr State.reset) := ⟨rfl, rfl, rfl, rfl, rfl, rfl⟩
/-- `CT_BIT` in a load over T1: 'A' keeps its code. -/
theorem test_witness_CtBegin_entries_kept : LoadInv (loading t1 68 [true, true]) ∧
    exec (.ctBit true) (loading t1 68 [true, true]) = .next (after (.ctBit true) (loading t1 68 [true, true])) ∧
    Instr.ctBit true ≠ .ctClr ∧ (readAt (loading t1 68 [true, true]).ct.entry 65).valid = true :=
  ⟨loading_inv.load rfl, rfl, by decide, by decide +kernel⟩
theorem test_witness_CtEnd_bound : Inv (loading t1 68 [true, true]) ∧ (loading t1 68 [true, true]).ct.ldActive = true ∧
    ∃ t, exec .ctEnd (loading t1 68 [true, true]) = .next t := by
  refine ⟨loading_inv, rfl, ?_⟩
  unfold exec execCtEnd
  simp only [require, raise]
  repeat' split
  all_goals exact ⟨_, rfl⟩
theorem test_witness_EncFlush_DecEnd_keep : (ready t1).enc.state = .idle ∧ Instr.faPush 65 ≠ .encStart ∧
    (ready t1).dec.state = .idle ∧ (∀ n, Instr.faPush 65 ≠ .decStart n) ∧ ∃ t, exec (.faPush 65) (ready t1) = .next t :=
  ⟨rfl, by decide, rfl, by simp, ⟨_, rfl⟩⟩

/-- EN14's last line and DE20: two causes hold, the first of R203 is the least. -/
theorem test_witness_FirstCauseIsRaised :
    (Cause (encoding { acc := 0, fill := 7, nbits := 0xFFFFFFFF }) (.encPush 68) .unknownSymbol ∧
      ∀ G, Cause (encoding { acc := 0, fill := 7, nbits := 0xFFFFFFFF }) (.encPush 68) G →
        FaultKind.unknownSymbol.priority ≤ G.priority) ∧
    (Cause (decoding 1 [true]) .decEnd .payloadShort ∧
      ∀ G, Cause (decoding 1 [true]) .decEnd G → FaultKind.payloadShort.priority ≤ G.priority) := by
  refine ⟨⟨?_, ?_⟩, ?_, ?_⟩
  · show (readAt t1.entry 68).valid = false
    decide +kernel
  · intro G h
    cases G <;> simp [Cause, Legal, encoding, FaultKind.priority] at h ⊢
  · show (1#32) ≠ 0
    decide
  · intro G h
    cases G <;> simp [Cause, Legal, decoding, FaultKind.priority] at h ⊢
theorem test_witness_NoCauseNoFault : (∀ F, ¬ Cause (ready t1) .encStart F) ∧ (∀ F, ¬ Cause State.reset .clrErr F) := by
  constructor
  · intro F
    cases F <;> simp [Cause, Legal, ready, t1, ctAdd, ctEmpty, State.reset, State.afterReset]
  · intro F
    cases F <;> simp [Cause, Legal]
theorem test_witness_IllegalSequencingRaisesSeq : ¬ Legal State.reset (.faPush 65) ∧ ¬ Legal State.reset .ctEnd ∧
    ¬ Legal (ready t1) .decEnd ∧ ¬ Legal (decoding 7 []) .ctClr := by
  simp [Legal, State.reset, State.afterReset, ready, decoding]
/-- Every transition of R208 happens. -/
theorem test_witness_SequencingFlagTransitions : (after .faClr State.reset).fa.init = true ∧
    (after .ctClr State.reset).ct.init = true ∧
    ((ready t1).ct.ldActive = false ∧ (after (.ctBegin 68) (ready t1)).ct.ldActive = true) ∧
    ((loading ctEmpty 68 [true]).ct.ldActive = true ∧ (after .ctEnd (loading ctEmpty 68 [true])).ct.ldActive = false) ∧
    ((ready t1).enc.state = .idle ∧ (after .encStart (ready t1)).enc.state = .active) ∧
    ((encoding { acc := 0, fill := 0, nbits := 0 }).enc.state = .active ∧
      (after (.encPush 68) (encoding { acc := 0, fill := 0, nbits := 0 })).enc.state = .idle) ∧
    ((ready t1).dec.state = .idle ∧ (after (.decStart 7) (ready t1)).dec.state = .active) ∧
    ((decoding 7 []).dec.state = .active ∧ (after .decEnd (decoding 7 [])).dec.state = .idle) := by decide +kernel
theorem test_witness_ErrIsNotAMode : Instr.rdReg 2 ≠ .rdReg 1#8 ∧ (∃ t, exec (.rdReg 2) (ready t1) = .next t) :=
  ⟨by decide, ⟨_, rfl⟩⟩
theorem test_witness_FlagsAreSticky : Instr.ctClr ≠ .clrErr ∧ ({ ready t1 with err := 0x800 } : State).err.getLsbD 11 = true ∧
    ∃ t, exec .ctClr { ready t1 with err := 0x800 } = .next t := ⟨by decide, by decide, ⟨_, rfl⟩⟩
theorem test_witness_FaIsIndependent : unitOf (.encPush 65) ≠ .fa ∧ (∀ idx, Instr.encPush 65 ≠ .rdReg idx) ∧
    unitOf (.faPush 65) = .fa ∧ (∃ t, exec (.encPush 65) (encoding { acc := 0, fill := 0, nbits := 0 }) = .next t) :=
  ⟨by decide, by simp, rfl, ⟨_, rfl⟩⟩
theorem test_witness_UnitFrames : unitOf (.decPush 0) ≠ .fa ∧ unitOf (.decPush 0) ≠ .ct ∧ unitOf (.decPush 0) ≠ .enc ∧
    unitOf (.encPush 65) ≠ .dec ∧ (∃ t, exec (.decPush 0) (decoding 7 []) = .next t) :=
  ⟨by decide, by decide, by decide, by decide, ⟨_, rfl⟩⟩
/-- PR2's command during an encode session. -/
theorem test_witness_TableFrozenDuringSession : Inv (offering [.cmd 0x2000000000#40] (encoding { acc := 0x4C, fill := 7, nbits := 7 })) ∧
    (encoding { acc := 0x4C, fill := 7, nbits := 7 }).enc.state = .active ∧
    (∀ rest, (offering [.cmd 0x2000000000#40] (encoding { acc := 0x4C, fill := 7, nbits := 7 })).port.inbox ≠ .reset :: rest) ∧
    ∃ t, step (offering [.cmd 0x2000000000#40] (encoding { acc := 0x4C, fill := 7, nbits := 7 })) = .next t :=
  ⟨{ encoding_inv with load := by simp [offering, encoding, ready, t1, ctAdd] }, rfl, by simp [offering], ⟨_, rfl⟩⟩
theorem test_witness_StepKeepsInvariant : Inv (offering [.cmd 0x31000000FF#40] (encoding { acc := 0x4C, fill := 7, nbits := 7 })) ∧
    ∃ t, step (offering [.cmd 0x31000000FF#40] (encoding { acc := 0x4C, fill := 7, nbits := 7 })) = .next t :=
  ⟨{ encoding_inv with load := by simp [offering, encoding, ready, t1, ctAdd] }, ⟨_, rfl⟩⟩
theorem test_witness_CountersNeverWrap :
    (Inv (ready t1) ∧ (∃ t, exec (.faPush 65) (ready t1) = .next t) ∧ ¬ ∃ F, Cause (ready t1) (.faPush 65) F) ∧
    (Inv (encoding { acc := 0x4C, fill := 7, nbits := 7 }) ∧
      ¬ ∃ F, Cause (encoding { acc := 0x4C, fill := 7, nbits := 7 }) (.encPush 65) F) ∧
    (Inv (decoding 7 [true]) ∧ Legal (decoding 7 [true]) (.decPush 0x4C)) := by
  have hv : (readAt t1.entry 65#8).valid = true := by decide +kernel
  have hl : (readAt t1.entry 65#8).len.toNat = 1 := by decide +kernel
  refine ⟨⟨ready_inv, ⟨_, rfl⟩, ?_⟩, ⟨encoding_inv, ?_⟩, decoding_inv, rfl⟩
  · rintro ⟨F, h⟩
    cases F <;> simp [Cause, Legal, ready, State.reset, State.afterReset, Config.params] at h
  · rintro ⟨F, h⟩
    cases F <;> simp [Cause, Legal, encoding, ready, State.reset, State.afterReset, Config.params, hv, hl] at h
theorem test_witness_OutputWordsPerCommand : Inv (encoding { acc := 0x4C, fill := 7, nbits := 7 }) ∧
    (∃ t, exec (.encPush 65) (encoding { acc := 0x4C, fill := 7, nbits := 7 }) = .next t) ∧ Inv (decoding 7 [true]) ∧
    (∃ t, exec (.decPush 0) (decoding 7 [true]) = .next t) ∧ (∀ sym, Instr.encFlush ≠ .encPush sym) ∧
    (∀ B, Instr.encFlush ≠ .decPush B) := ⟨encoding_inv, ⟨_, rfl⟩, decoding_inv, ⟨_, rfl⟩, by simp, by simp⟩
/-- R74's example: the last bit of the one byte. -/
theorem test_witness_PayloadBitOrder : 0 < (payload [false, true, false, false, true, true, false]).length ∧
    payload [false, true, false, false, true, true, false] = [0x4C] := by decide +kernel
theorem test_witness_HistogramOfText : (ready t1).params.wf = true ∧ [65#8, 66#8].length ≤ 2 ^ (ready t1).params.wCnt - 1 := by
  decide
theorem test_witness_LengthFromHistogram : Inv (ready t1) ∧ (ready t1).ct.init = true ∧
    [65#8, 66#8].length ≤ 2 ^ (ready t1).params.wCnt - 1 ∧
    (∃ t, execAll (.faClr :: faText [65, 66]) (ready t1) = .next t) ∧
    streamOf t1 [65, 66] = some [false, true, false] := ⟨ready_inv, rfl, by decide, ⟨_, rfl⟩, by decide +kernel⟩
theorem test_witness_TableLoadInstallsEntries : Inv (ready t1) ∧ Legal (ready t1) .ctClr ∧
    ([(65#8, [false]), (66, [true, false]), (67, [true, true])].map Prod.fst).Nodup ∧
    (∀ e ∈ [(65#8, [false]), (66, [true, false]), (67, [true, true])], 1 ≤ e.2.length ∧ e.2.length ≤ (ready t1).params.lMax) ∧
    [(65#8, [false]), (66, [true, false]), (67, [true, true])].Pairwise (fun a b => ¬ a.2 <+: b.2 ∧ ¬ b.2 <+: a.2) :=
  ⟨ready_inv, idle_legal.1, by decide +kernel, by decide +kernel, by decide +kernel⟩
theorem next_of_check {r : Result} {q : List OutWord} (h : (match r with
    | .next t => t.port.outQ == q
    | _ => false) = true) : ∃ t, r = .next t ∧ t.port.outQ = q := by
  cases r <;> simp_all

theorem test_witness_LoadOrderIsIrrelevant : Inv (ready t1) ∧ Legal (ready t1) .ctClr ∧
    [(65#8, [false]), (66, [true])].Perm [(66, [true]), (65, [false])] ∧
    ∃ t, execAll (tableLoad [(65, [false]), (66, [true])]) (ready t1) = .next t ∧ t.port.outQ = (ready t1).port.outQ :=
  ⟨ready_inv, idle_legal.1, by decide, next_of_check (by decide +kernel)⟩
/-- EN1's text; the same meets the premises of SessionRoundTrip. -/
theorem test_witness_EncodeSessionLaw_SessionRoundTrip : Inv (ready t1) ∧ Legal (ready t1) .encStart ∧
    Legal (ready t1) (.decStart 0) ∧
    streamOf (ready t1).ct [65, 66, 65, 67, 65] = some [false, true, false, false, true, true, false] ∧
    [false, true, false, false, true, true, false].length ≤ 2 ^ (ready t1).params.wLen - 1 :=
  ⟨ready_inv, idle_legal.2.1, idle_legal.2.2, t1_stream, by decide⟩
theorem test_witness_BoundedAccumulator_TreeWalk : Config.params.wf = true ∧ CtInv Config.params t1 := ⟨by decide, t1_inv⟩
/-- DE6's byte pair, and DE8's extra byte. -/
theorem test_witness_UnpackIgnoresTheRest :
    (∀ j < min 8 (decoding 7 []).unpack.remain.toNat, (0x4C : BitVec 8).getLsbD (7 - j) = (0x4D : BitVec 8).getLsbD (7 - j)) ∧
    (decoding 0 []).dec.state = .active ∧ (decoding 0 []).unpack.remain = 0 := ⟨by decide, rfl, rfl⟩
theorem test_witness_EmptySessions : Legal (ready t1) .encStart ∧ Legal (ready t1) (.decStart 0) := idle_legal.2
/-- H2's table. -/
theorem test_witness_BuildKeepsWeights_GeneratedTable : [(65#8, 2), (66, 3), (67, 4)] ≠ ([] : List (Symbol × Nat)) ∧
    ([(65#8, 2), (66, 3), (67, 4)].map Prod.fst).Nodup ∧
    build referencePolicy [(65, 2), (66, 3), (67, 4)] =
      some (.node 9 (.leaf 67 4) (.node 5 (.leaf 65 2) (.leaf 66 3))) := ⟨by decide, by decide, by decide +kernel⟩
theorem test_witness_HeaderRoundTrip : [(65#8, [true])].length ≤ 256 ∧ 4294967295 < 2 ^ Config.params.wLen := by decide
theorem test_witness_EmptyArtifactBothWays : Inv (ready t1) ∧ (ready t1).port.outQ = [] ∧ Legal (ready t1) .ctClr :=
  ⟨ready_inv, rfl, idle_legal.1⟩
theorem exists_of_fst {α β : Type} {p : α × β} {a : α} (h : p.1 = a) : ∃ b, p = (a, b) := ⟨p.2, Prod.ext h rfl⟩

/-- H1: "AAAAB" compresses to its 26 bytes. The empty text and H1's meet the first clause, H1's the second. -/
theorem test_witness_PipelineRoundTrip : Inv (ready t1) ∧ Legal (ready t1) .ctClr ∧ (ready t1).port.outQ = [] ∧
    (∃ t, compress referencePolicy [] (ready t1) = (.ok emptyArtifact, t)) ∧
    (∃ t, compress referencePolicy [65, 65, 65, 65, 66] (ready t1) =
      (.ok [0x32, 0x0A, 0x36, 0x35, 0x3A, 0x31, 0x0A, 0x36, 0x36, 0x3A, 0x30, 0x0A, 0x45, 0x4E, 0x44, 0x5F, 0x48, 0x45,
        0x41, 0x44, 0x45, 0x52, 0x0A, 0x35, 0x0A, 0xF0], t)) ∧
    (ready t1).params.lMax = 255 ∧ [65#8, 65, 65, 65, 66].length ≤ 2 ^ (ready t1).params.wCnt - 1 ∧
    255 * [65#8, 65, 65, 65, 66].length ≤ 2 ^ (ready t1).params.wLen - 1 := by
  exact ⟨ready_inv, idle_legal.1, rfl, exists_of_fst (by decide +kernel), exists_of_fst (by decide +kernel), rfl,
    by decide, by decide⟩

end Sys2Proof.Tests
end

section
/-! SUPPORT. The decoder on a command's own word, the step of each host event, and the two statements of `00_scope.md`: a step
runs the command whose word is offered (O6), and every step gives a next state (O7). -/

namespace Sys2Proof

/-! ### Each format reads back the operand it was given (R61) -/

@[simp] theorem formatN_cmdWord (o : BitVec 8) (i : Instr) : formatN (cmdWord o 0#32) i = .ok i := by
  simp [formatN]

@[simp] theorem formatS_cmdWord (o : BitVec 8) (x : Symbol) (mk : Symbol → Instr) :
    formatS (cmdWord o (x.setWidth 32)) mk = .ok (mk x) := by
  rw [formatS, operandOf_cmdWord, symOperand_high, symOperand_low, if_pos rfl]

@[simp] theorem formatB_cmdWord (o : BitVec 8) (b : Bool) (mk : Bool → Instr) :
    formatB (cmdWord o ((BitVec.ofBool b).setWidth 32)) mk = .ok (mk b) := by
  rw [formatB, operandOf_cmdWord, bitOperand_high, bitOperand_low, if_pos rfl]

theorem formatW_cmdWord {P : Params} {n : Word} (h : n.toNat < 2 ^ P.wLen) (o : BitVec 8) (mk : Word → Instr) :
    formatW P (cmdWord o n) mk = .ok (mk n) := by
  rw [formatW, operandOf_cmdWord, if_pos h]

/-- The opcode selects the row of R67, and the row's format reads the operand back. -/
theorem decode_encode {P : Params} {i : Instr} (h : WellFormed P i = true) : decode P (encode i) = .ok i := by
  cases i with
  | decStart n =>
    have hn : n.toNat < 2 ^ P.wLen := by simpa [WellFormed] using h
    simp [decode, encode, formatW_cmdWord hn]
  | _ => simp [decode, encode]

end Sys2Proof

namespace Sys2Proof.Machine

/-! ### The step of each host event (R63, R216, R220) -/

theorem step_of_idle {s : State} (h : s.port.inbox = []) : step s = .next s := by
  simp [step, stepEvent, h]

theorem step_of_cmd {s : State} {w : CmdWord} {rest : List HostEvent} (h : s.port.inbox = .cmd w :: rest) :
    step s = acceptWord w (withInbox rest s) := by
  simp [step, stepEvent, h]

theorem step_of_take {s : State} {rest : List HostEvent} (h : s.port.inbox = .take :: rest) :
    step s = .next (takeWord (withInbox rest s)) := by
  simp [step, stepEvent, h]

theorem step_of_reset {s : State} {rest : List HostEvent} (h : s.port.inbox = .reset :: rest) :
    step s = .next (resetMachine (withInbox rest s)) := by
  simp [step, stepEvent, h]

/-! ### Accepting a word (R90) -/

theorem acceptWord_of_ok {s : State} {w : CmdWord} {i : Instr} (h : decode s.params w = .ok i) :
    acceptWord w s = exec i s := by
  simp [acceptWord, h]

theorem acceptWord_of_error {s : State} {w : CmdWord} {e : DecodeError} (h : decode s.params w = .error e) :
    acceptWord w s = raise .illegalCmd s := by
  simp [acceptWord, h]

theorem acceptWord_encode {s : State} {i : Instr} (h : WellFormed s.params i = true) :
    acceptWord (encode i) s = exec i s :=
  acceptWord_of_ok (decode_encode h)

/-! ### The word `withFetchWord` offers (log 4) -/

/-- A 40-bit word keeps all its bits, so `withFetchWord` offers it unchanged. -/
theorem withFetchWord_toNat (s : State) (w : CmdWord) : s.withFetchWord 40 w.toNat = offerFirst w s := by
  rw [State.withFetchWord, Nat.mod_eq_of_lt w.isLt, BitVec.ofNat_toNat, BitVec.setWidth_eq]

/-- The word offered first is accepted at the state from which it was offered. -/
theorem step_offerFirst (w : CmdWord) (s : State) : step (offerFirst w s) = acceptWord w s :=
  step_of_cmd rfl

/-- Settles O6: `decode_encode` turns the acceptance of the offered word into `exec` of the command. -/
theorem stepRunsDecodedCommand : Obligations.StepRunsDecodedCommand := by
  intro s i hwf
  constructor
  · intro rest hin
    calc step s
      _ = acceptWord (encode i) (withInbox rest s) := step_of_cmd hin
      _ = exec i (withInbox rest s) := acceptWord_encode hwf
  · calc step (s.withFetchWord 40 (encode i).toNat)
      _ = step (offerFirst (encode i) s) := by rw [withFetchWord_toNat]
      _ = acceptWord (encode i) s := step_offerFirst (encode i) s
      _ = exec i s := acceptWord_encode hwf

/-! ### Nothing halts (R5, R6) -/

theorem exec_completes (s : State) (i : Instr) : ∃ t, exec i s = .next t := ⟨_, exec_eq i s⟩

theorem acceptWord_completes (w : CmdWord) (s : State) : ∃ t, acceptWord w s = .next t := by
  cases hd : decode s.params w with
  | error e => exact ⟨_, acceptWord_of_error hd⟩
  | ok i =>
    rw [acceptWord_of_ok hd]
    exact exec_completes s i

theorem step_completes (s : State) : ∃ t, step s = .next t := by
  match hin : s.port.inbox with
  | [] => exact ⟨_, step_of_idle hin⟩
  | .cmd w :: rest =>
    rw [step_of_cmd hin]
    exact acceptWord_completes w _
  | .take :: _ => exact ⟨_, step_of_take hin⟩
  | .reset :: _ => exact ⟨_, step_of_reset hin⟩

/-- Settles O7: a command raises its first fault or has its effect (`exec_eq`), and each of the host's events is total. -/
theorem everyStepCompletes : Obligations.EveryStepCompletes :=
  ⟨exec_completes, step_completes⟩

end Sys2Proof.Machine
end

section
/-! SUPPORT. What a command does to the state outside its own unit, whatever its outcome: `ERR` is a record (O35, O36) and
each unit's commands keep to their unit (O38). -/

namespace Sys2Proof.Machine

/-! ### `ERR` is not a mode (R14) -/

theorem regAt_withErr {idx : BitVec 8} (h : idx ≠ 1#8) (s : State) (e : Word) :
    regAt idx { s with err := e } = regAt idx s := by
  unfold regAt
  split
  case h_2 => exact absurd rfl h
  all_goals rfl

theorem firstFault_withErr {i : Instr} (h : i ≠ .rdReg 1#8) (s : State) (e : Word) :
    firstFault { s with err := e } i = firstFault s i := by
  cases i with
  | rdReg idx =>
    have hidx : idx ≠ 1#8 := fun he => h (by rw [he])
    simp only [firstFault, regAt_withErr hidx]
  | _ => rfl

theorem packCode_withErr (code : Bits) (s : State) (e : Word) :
    packCode code { s with err := e } = { packCode code s with err := e } := by
  induction code generalizing s with
  | nil => rfl
  | cons b code ih =>
    have hbit : packAbsorb { s with err := e } b = { packAbsorb s b with err := e } := by
      simp only [packAbsorb_eq]
      split <;> rfl
    calc packCode (b :: code) { s with err := e }
      _ = packCode code (packAbsorb { s with err := e } b) := rfl
      _ = { packCode code (packAbsorb s b) with err := e } := by rw [hbit, ih]

theorem effect_withErr {i : Instr} (h : i ≠ .rdReg 1#8) (s : State) (e : Word) :
    ∃ e', effect { s with err := e } i = { effect s i with err := e' } := by
  cases i with
  | rdReg idx =>
    have hidx : idx ≠ 1#8 := fun he => h (by rw [he])
    simp only [effect, regAt_withErr hidx]
    exact ⟨e, rfl⟩
  | encPush sym => exact ⟨e, packCode_withErr _ s e⟩
  | decPush B =>
    simp only [effect, deliverByte_eq]
    exact ⟨e, rfl⟩
  | _ => exact ⟨_, rfl⟩

theorem raised_withErr (F : FaultKind) (s : State) (e : Word) :
    raised F { s with err := e } = { raised F s with err := e ||| F.mask } := by
  rw [raised_eq, raised_eq]

/-- Settles O35: neither the test of the faults nor an effect reads `ERR`. -/
theorem errIsNotAMode : Obligations.ErrIsNotAMode := by
  intro i s t e hi ht
  rw [exec_eq, firstFault_withErr hi]
  rcases exec_cases ht with ⟨F, hF, rfl⟩ | ⟨hF, rfl⟩
  · exact ⟨e ||| F.mask, by rw [hF]; exact congrArg _ (raised_withErr F s e)⟩
  · obtain ⟨e', he⟩ := effect_withErr hi s e
    exact ⟨e', by rw [hF, he]⟩

/-! ### The flags are sticky (R14) -/

@[simp] theorem packCode_err (code : Bits) (s : State) : (packCode code s).err = s.err :=
  (congrArg State.err (packCode_frame code s) :)

theorem effect_err {i : Instr} (h : i ≠ .clrErr) (s : State) : (effect s i).err = s.err := by
  cases i with
  | clrErr => exact absurd rfl h
  | encPush sym => exact packCode_err _ s
  | decPush B => simp only [effect, deliverByte_eq, withOutput]
  | _ => rfl

/-- Settles O36: a fault adds its flag to `ERR`, and an effect other than that of `CLR_ERR` leaves `ERR` alone. -/
theorem flagsAreSticky : Obligations.FlagsAreSticky := by
  intro i s t k ht hi hk
  rcases exec_cases ht with ⟨F, -, rfl⟩ | ⟨-, rfl⟩
  · rw [raised_eq, BitVec.getLsbD_or, hk, Bool.true_or]
  · rw [effect_err hi, hk]

/-! ### Each unit's commands keep to their unit (R10, R50, R205) -/

/-- What the change from `s` to `t` leaves alone apart from the ports, for a command of unit `u`. -/
structure KeepsToUnit (u : CmdUnit) (s t : State) : Prop where
  fa : u ≠ .fa → t.fa = s.fa
  ct : u ≠ .ct → t.ct = s.ct
  enc : u ≠ .enc → t.enc = s.enc ∧ t.pack = s.pack
  dec : u ≠ .dec → t.unpack = s.unpack ∧ t.dec = s.dec
  params : t.params = s.params
  resets : t.resets = s.resets

theorem packCode_keepsToUnit (code : Bits) (s : State) : KeepsToUnit .enc s (packCode code s) where
  fa _ := (congrArg State.fa (packCode_frame code s) :)
  ct _ := (congrArg State.ct (packCode_frame code s) :)
  enc hu := absurd rfl hu
  dec _ := ⟨(congrArg State.unpack (packCode_frame code s) :), (congrArg State.dec (packCode_frame code s) :)⟩
  params := (congrArg State.params (packCode_frame code s) :)
  resets := (congrArg State.resets (packCode_frame code s) :)

theorem effect_keepsToUnit (s : State) (i : Instr) : KeepsToUnit (unitOf i) s (effect s i) := by
  cases i with
  | encPush sym => exact packCode_keepsToUnit _ s
  | decPush B =>
    simp only [effect, deliverByte_eq]
    constructor <;> simp [unitOf, withOutput]
  | _ => constructor <;> simp [unitOf, effect, withOutput]

/-- The faults with a side effect are raised by commands of the unit whose state it changes (R190, R205). -/
theorem unitOf_of_firstFault {s : State} {i : Instr} {F : FaultKind} (h : firstFault s i = some F) :
    (F = .codeEmpty ∨ F = .codeTooLong ∨ F = .prefixCollision → unitOf i = .ct) ∧
    (F = .unknownSymbol ∨ F = .lenOvf → unitOf i = .enc) ∧
    (F = .incompleteCode ∨ F = .payloadShort → unitOf i = .dec) := by
  cases i with
  | nop | clrErr | faClr => simp [firstFault] at h
  | _ =>
    simp only [firstFault] at h
    split_ifs at h <;> cases h <;> simp [unitOf]

theorem raised_keepsToUnit {s : State} {i : Instr} {F : FaultKind} (h : firstFault s i = some F) :
    KeepsToUnit (unitOf i) s (raised F s) := by
  obtain ⟨hct, henc, hdec⟩ := unitOf_of_firstFault h
  rw [raised_eq]
  exact
    { fa := fun _ => rfl
      ct := fun hu => if_neg fun hF => hu (hct hF)
      enc := fun hu => ⟨if_neg fun hF => hu (henc hF), rfl⟩
      dec := fun hu => ⟨rfl, if_neg fun hF => hu (hdec hF)⟩
      params := rfl
      resets := rfl }

theorem exec_keepsToUnit {i : Instr} {s t : State} (h : exec i s = .next t) : KeepsToUnit (unitOf i) s t := by
  rcases exec_cases h with ⟨F, hF, rfl⟩ | ⟨-, rfl⟩
  · exact raised_keepsToUnit hF
  · exact effect_keepsToUnit s i

/-- Settles O38: `exec_keepsToUnit` for the units, `exec_port` for the ports. -/
theorem unitFrames : Obligations.UnitFrames := by
  intro i s t h
  obtain ⟨hfa, hct, henc, hdec, hparams, hresets⟩ := exec_keepsToUnit h
  obtain ⟨ws, hport⟩ := exec_port h
  exact ⟨hfa, hct, henc, hdec, hparams, hresets, by rw [hport], by rw [hport], ws, by rw [hport]⟩

end Sys2Proof.Machine
end

section
/-! SUPPORT. The invariant of the machine: it holds after a reset (O9, O40), and a fault, an effect and every host event keep
it (O41). -/

namespace Sys2Proof.Machine

/-! ### Output words (R62) -/

theorem outWordOk_data (v : Word) : OutWordOk (outWord .data v) := .inl ⟨v, rfl⟩

theorem outWordOk_len (v : Word) : OutWordOk (outWord .len v) := .inr (.inr (.inl ⟨v, rfl⟩))

theorem outWordOk_byte (b : BitVec 8) : OutWordOk (outWord .byte (b.setWidth 32)) := .inr (.inl ⟨b, rfl⟩)

theorem outWordOk_sym (x : Symbol) : OutWordOk (outWord .sym (x.setWidth 32)) := .inr (.inr (.inr (.inl ⟨x, rfl⟩)))

theorem outWordOk_done : OutWordOk (outWord .done 0) := .inr (.inr (.inr (.inr (.inl rfl))))

theorem outWordOk_err (F : FaultKind) : OutWordOk (errWord F) := .inr (.inr (.inr (.inr (.inr ⟨F, rfl⟩))))

theorem outWordOk_of_mem_byteWords {bytes : List (BitVec 8)} : ∀ w ∈ byteWords bytes, OutWordOk w := by
  simpa [byteWords] using fun b _ => outWordOk_byte b

theorem outWordOk_of_mem_symWords {text : List Symbol} : ∀ w ∈ symWords text, OutWordOk w := by
  simpa [symWords] using fun x _ => outWordOk_sym x

theorem outWordOk_of_mem_flushWords {p : Pack} : ∀ w ∈ flushWords p, OutWordOk w := by
  intro w hw
  rcases List.mem_append.1 hw with hw | hw
  · split at hw
    · simp at hw
    · rw [List.mem_singleton.1 hw]; exact outWordOk_byte _
  · rw [List.mem_singleton.1 hw]; exact outWordOk_len _

/-! ### The collision test (R115) -/

theorem collides_iff {ct : CT} {c : Bits} : collides c ct = true ↔ Collides ct c := by
  simp only [collides, Collides, List.any_eq_true, mem_toList_iff_readAt, clash, Bool.and_eq_true, Bool.or_eq_true,
    isPrefix_iff]
  constructor
  · rintro ⟨_, ⟨t, rfl⟩, ht⟩
    exact ⟨t, ht⟩
  · rintro ⟨t, ht⟩
    exact ⟨_, ⟨t, rfl⟩, ht⟩

/-! ### What the parts of the invariant depend on -/

/-- R20 speaks of the entries and their number only. -/
theorem CtInv.of_entry_eq {P : Params} {ct ct' : CT} (h : CtInv P ct) (he : ct'.entry = ct.entry)
    (hn : ct'.n = ct.n) : CtInv P ct' := by
  obtain ⟨hn_eq, hlen_pos, hlen_le, hcode_len, hprefix_free⟩ := h
  rw [← he] at hn_eq hlen_pos hlen_le hcode_len hprefix_free
  exact ⟨hn ▸ hn_eq, hlen_pos, hlen_le, hcode_len, hprefix_free⟩

/-- R21 speaks of CT, the session flags and the parameters only. -/
theorem LoadInv.of_eq {s t : State} (h : LoadInv s) (hct : t.ct = s.ct) (henc : t.enc = s.enc)
    (hdec : t.dec = s.dec) (hP : t.params = s.params) : LoadInv t := by
  obtain ⟨hinit, henc_idle, hdec_idle, hlength, hunassigned⟩ := h
  rw [← hct] at hinit hlength hunassigned
  exact ⟨hinit, henc ▸ henc_idle, hdec ▸ hdec_idle, hP ▸ hlength, hunassigned⟩

/-- No load runs beside an encode session (R21). -/
theorem Inv.ldActive_of_encActive {s : State} (h : Inv s) (henc : s.enc.state = .active) : s.ct.ldActive = false := by
  by_contra hl
  have := (h.load (by simpa using hl)).enc_idle
  simp [henc] at this

/-- No load runs beside a decode session (R21). -/
theorem Inv.ldActive_of_decActive {s : State} (h : Inv s) (hdec : s.dec.state = .active) : s.ct.ldActive = false := by
  by_contra hl
  have := (h.load (by simpa using hl)).dec_idle
  simp [hdec] at this

/-! ### The shared operations keep the invariant -/

theorem Inv.after_withOutput {s : State} (h : Inv s) {ws : List OutWord} (hws : ∀ w ∈ ws, OutWordOk w) :
    Inv (withOutput ws s) :=
  { h with
    load := fun hl => (h.load hl).of_eq rfl rfl rfl rfl
    pending := fun w hw => (List.mem_append.1 hw).elim (h.pending w) (hws w) }

theorem Inv.after_emit {s : State} (h : Inv s) {k : OutKind} {v : Word} (hw : OutWordOk (outWord k v)) :
    Inv (emit k v s) :=
  h.after_withOutput (ws := [outWord k v]) (by simpa using hw)

theorem Inv.after_endLoad {s : State} (h : Inv s) : Inv (endLoad s) :=
  { h with
    ct := fun hi => (h.ct hi).of_entry_eq rfl rfl
    load := by simp }

theorem Inv.after_endEncode {s : State} (h : Inv s) : Inv (endEncode s) :=
  { h with
    load := fun hl => ⟨(h.load hl).init, rfl, (h.load hl).dec_idle, (h.load hl).length_le, (h.load hl).unassigned⟩
    enc_table := by simp
    pack := by simp }

theorem Inv.after_endDecode {s : State} (h : Inv s) : Inv (endDecode s) :=
  { h with
    load := fun hl => ⟨(h.load hl).init, (h.load hl).enc_idle, rfl, (h.load hl).length_le, (h.load hl).unassigned⟩
    dec_table := by simp
    dec := ⟨h.dec.length_le, h.dec.dead_iff⟩ }

theorem Inv.after_sideEffect {s : State} (h : Inv s) (F : FaultKind) : Inv (sideEffect F s) := by
  cases F with
  | codeEmpty | codeTooLong | prefixCollision => exact h.after_endLoad
  | unknownSymbol | lenOvf => exact h.after_endEncode
  | incompleteCode | payloadShort => exact h.after_endDecode
  | illegalCmd | seq | faOvf | dupSymbol => exact h

theorem Inv.after_withErr {s : State} (h : Inv s) {e : Word} (he : e &&& ~~~errFlagMask = 0) : Inv { s with err := e } :=
  { h with
    err := he
    load := fun hl => (h.load hl).of_eq rfl rfl rfl rfl }

theorem Inv.after_raised {s : State} (h : Inv s) (F : FaultKind) : Inv (raised F s) :=
  ((h.after_sideEffect F).after_withErr (errFlags_or s.err F h.err)).after_emit (outWordOk_err F)

/-! ### The effects of the commands keep the invariant -/

theorem Inv.after_faClr {s : State} (h : Inv s) : Inv (clearHistogram s) :=
  { h with
    fa := fun _ => clearHistogram_inv s.params s
    load := fun hl => (h.load hl).of_eq rfl rfl rfl rfl }

theorem Inv.after_faPush {s : State} (h : Inv s) (hinit : s.fa.init = true)
    (htotal : s.fa.total.toNat ≠ 2 ^ s.params.wCnt - 1) (sym : Symbol) : Inv (countSymbol sym s) :=
  { h with
    fa := fun _ => (countSymbol_inv h.params (h.fa hinit) htotal sym).1
    load := fun hl => (h.load hl).of_eq rfl rfl rfl rfl }

/-- A table without valid entries meets R20. -/
theorem ctInv_of_invalid (P : Params) {ct : CT} (hn : ct.n = 0) (hv : ∀ s, (readAt ct.entry s).valid = false) :
    CtInv P ct where
  n_eq := by rw [hn, countP_eq_zero_of_readAt _ _ hv]; rfl
  len_pos s hs := by simp [hv] at hs
  len_le s hs := by simp [hv] at hs
  code_len s hs := by simp [hv] at hs
  prefix_free s t _ hs := by simp [hv] at hs

theorem Inv.after_ctClr {s : State} (h : Inv s) : Inv (effect s .ctClr) :=
  { h with
    ct := fun _ => ctInv_of_invalid _ rfl (by simp [effect, invalidateAll])
    load := by simp [effect]
    enc_table := fun _ => rfl
    dec_table := fun _ => rfl }

theorem Inv.after_ctBegin {s : State} (h : Inv s) {sym : Symbol} (hinit : s.ct.init = true) (henc : s.enc.state = .idle)
    (hdec : s.dec.state = .idle) (hv : (readAt s.ct.entry sym).valid = false) : Inv (effect s (.ctBegin sym)) :=
  { h with
    ct := fun hi => (h.ct hi).of_entry_eq rfl rfl
    load := fun _ => ⟨hinit, henc, hdec, Nat.zero_le _, hv⟩ }

theorem Inv.after_ctBit {s : State} (h : Inv s) (hlen : s.ct.ldCode.length ≠ s.params.lMax) (b : Bool) :
    Inv (effect s (.ctBit b)) :=
  { h with
    ct := fun hi => (h.ct hi).of_entry_eq rfl rfl
    load := fun hl => by
      obtain ⟨hinit, henc, hdec, hle, hv⟩ := h.load hl
      have hle' : (s.ct.ldCode ++ [b]).length ≤ s.params.lMax := by
        rw [List.length_append, List.length_singleton]
        omega
      exact ⟨hinit, henc, hdec, hle', hv⟩ }

theorem Inv.after_ctEnd {s : State} (h : Inv s) (hl : s.ct.ldActive = true) (hne : s.ct.ldCode ≠ [])
    (hc : collides s.ct.ldCode s.ct = false) : Inv (installEntry s.ct.ldSym s.ct.ldCode (endLoad s)) := by
  obtain ⟨hinit, -, -, hle, hv⟩ := h.load hl
  have hcol : ¬ Collides s.ct s.ct.ldCode := by rw [← collides_iff, hc]; exact Bool.false_ne_true
  exact
    { h.after_endLoad with
      ct := fun _ => installEntry_inv h.params (h.ct hinit) _ _ hv hne hle hcol false
      load := by simp }

theorem Inv.after_encStart {s : State} (h : Inv s) (hinit : s.ct.init = true) (hl : s.ct.ldActive = false) :
    Inv (effect s .encStart) :=
  { h with
    load := by simp [effect, hl]
    enc_table := fun _ => hinit
    pack := fun _ => ⟨rfl, by simp [effect]⟩
    nbits_lt := Nat.two_pow_pos _ }

/-- An absorbed code that fits is counted exactly (R131). -/
theorem nbits_add_code {P : Params} (hP : P.wf = true) {n : BitVec 32} {k : Nat} (h : n.toNat + k < 2 ^ P.wLen) :
    (n + BitVec.ofNat 32 k).toNat = n.toNat + k := by
  obtain ⟨-, -, -, hw⟩ := params_bounds hP
  have h32 : 2 ^ P.wLen ≤ 2 ^ 32 := Nat.pow_le_pow_right (by omega) hw
  rw [BitVec.toNat_add, BitVec.toNat_ofNat, Nat.add_mod_mod, Nat.mod_eq_of_lt (by omega)]

theorem Inv.after_encPush {s : State} (h : Inv s) (henc : s.enc.state = .active) {code : Bits}
    (hfit : s.pack.nbits.toNat + code.length < 2 ^ s.params.wLen) : Inv (packCode code s) := by
  have hp := h.pack henc
  have hl := h.ldActive_of_encActive henc
  have hn := nbits_add_code h.params hfit
  have hpend : ((byteBits s.pack.acc).take s.pack.fill.toNat).length = s.pack.fill.toNat := by
    have := s.pack.fill.isLt
    rw [List.length_take, byteBits_length]
    omega
  obtain ⟨out, heq, -⟩ := packCode_eq code s _ (holds_pending hp)
  rw [heq]
  refine Inv.after_withOutput ?_ outWordOk_of_mem_byteWords
  exact
    { h with
      load := by simp [hl]
      pack := fun _ => packed_inv _ _ (by rw [hn, List.length_append, hpend, hp.fill_eq]; omega)
      nbits_lt := by rw [← hn] at hfit; exact hfit }

theorem Inv.after_encFlush {s : State} (h : Inv s) : Inv (effect s .encFlush) := by
  refine Inv.after_withOutput ?_ outWordOk_of_mem_flushWords
  exact
    { h.after_endEncode with
      load := fun hl => (h.after_endEncode.load hl).of_eq rfl rfl rfl rfl
      pack := by simp }

/-- DEC at the root meets R26. -/
theorem decInv_root {P : Params} (hP : P.wf = true) (x : Session) : DecInv P { state := x, acc := [], dead := false } := by
  obtain ⟨⟨hl, -⟩, -⟩ := params_bounds hP
  exact ⟨Nat.zero_le _, by simp only [Bool.false_eq_true, List.length_nil, false_iff]; omega⟩

theorem Inv.after_decStart {s : State} (h : Inv s) (hinit : s.ct.init = true) (hl : s.ct.ldActive = false) {n : Word}
    (hn : n.toNat < 2 ^ s.params.wLen) : Inv (effect s (.decStart n)) :=
  { h with
    load := by simp [effect, hl]
    dec_table := fun _ => hinit
    remain_lt := hn
    dec := decInv_root h.params _ }

theorem Inv.after_decPush {s : State} (h : Inv s) (hdec : s.dec.state = .active) (B : BitVec 8) : Inv (deliverByte B s) := by
  have hl := h.ldActive_of_decActive hdec
  rw [deliverByte_eq]
  refine Inv.after_withOutput ?_ outWordOk_of_mem_symWords
  exact
    { h with
      load := by simp [hl]
      dec_table := fun _ => h.dec_table hdec
      remain_lt := by rw [remain_after_byte]; exact Nat.lt_of_le_of_lt (Nat.sub_le _ _) h.remain_lt
      dec := decodeSteps_inv h.params s.ct h.dec _ }

/-- The code of a valid symbol that raises no `LEN_OVF` fits (R127). -/
theorem Inv.code_fits {s : State} (h : Inv s) (henc : s.enc.state = .active) {sym : Symbol}
    (hv : (readAt s.ct.entry sym).valid = true)
    (hfit : ¬ 2 ^ s.params.wLen - 1 < s.pack.nbits.toNat + (readAt s.ct.entry sym).len.toNat) :
    s.pack.nbits.toNat + (readAt s.ct.entry sym).bits.length < 2 ^ s.params.wLen := by
  rw [length_bits (h.ct (h.enc_table henc)) hv]
  have := Nat.two_pow_pos s.params.wLen
  omega

/-- What a command does when it raises nothing keeps the invariant: the tests it passed are what its unit's rule needs. -/
theorem Inv.after_effect {s : State} (h : Inv s) {i : Instr} (hwf : WellFormed s.params i = true)
    (hf : firstFault s i = none) : Inv (effect s i) := by
  cases i with
  | nop => exact h
  | rdReg idx => exact h.after_emit (outWordOk_data _)
  | clrErr => exact h.after_withErr (by decide)
  | faClr => exact h.after_faClr
  | faPush sym =>
    obtain ⟨hinit, htotal⟩ : s.fa.init = true ∧ s.fa.total.toNat ≠ 2 ^ s.params.wCnt - 1 := by
      simpa [firstFault, ite_eq_iff] using hf
    exact h.after_faPush hinit htotal sym
  | faRd sym => exact h.after_emit (outWordOk_data _)
  | ctClr => exact h.after_ctClr
  | ctBegin sym =>
    obtain ⟨⟨hinit, -, henc, hdec⟩, hv⟩ : (s.ct.init = true ∧ s.ct.ldActive = false ∧ s.enc.state = .idle ∧
        s.dec.state = .idle) ∧ (readAt s.ct.entry sym).valid = false := by
      simpa [firstFault, ite_eq_iff] using hf
    exact h.after_ctBegin hinit henc hdec hv
  | ctBit b =>
    obtain ⟨-, hlen⟩ : s.ct.ldActive = true ∧ s.ct.ldCode.length ≠ s.params.lMax := by
      simpa [firstFault, ite_eq_iff] using hf
    exact h.after_ctBit hlen b
  | ctEnd =>
    obtain ⟨hl, hne, hc⟩ : s.ct.ldActive = true ∧ s.ct.ldCode ≠ [] ∧ collides s.ct.ldCode s.ct = false := by
      simpa [firstFault, ite_eq_iff] using hf
    exact h.after_ctEnd hl hne hc
  | encStart =>
    obtain ⟨-, hinit, hl⟩ : s.enc.state = .idle ∧ s.ct.init = true ∧ s.ct.ldActive = false := by
      simpa [firstFault] using hf
    exact h.after_encStart hinit hl
  | encPush sym =>
    obtain ⟨henc, hv, hfit⟩ : s.enc.state ≠ .idle ∧ (readAt s.ct.entry sym).valid = true ∧
        ¬ 2 ^ s.params.wLen - 1 < s.pack.nbits.toNat + (readAt s.ct.entry sym).len.toNat := by
      simpa [firstFault, ite_eq_iff] using hf
    rw [session_ne_idle] at henc
    exact h.after_encPush henc (h.code_fits henc hv hfit)
  | encFlush => exact h.after_encFlush
  | decStart n =>
    obtain ⟨-, hinit, hl⟩ : s.dec.state = .idle ∧ s.ct.init = true ∧ s.ct.ldActive = false := by
      simpa [firstFault] using hf
    exact h.after_decStart hinit hl (by simpa [WellFormed] using hwf)
  | decPush B =>
    have hdec : s.dec.state = .active := session_ne_idle.1 (by simpa [firstFault] using hf)
    exact h.after_decPush hdec B
  | decEnd => exact h.after_endDecode.after_emit outWordOk_done

theorem Inv.after_exec {s t : State} (h : Inv s) {i : Instr} (hwf : WellFormed s.params i = true)
    (ht : exec i s = .next t) : Inv t := by
  rcases exec_cases ht with ⟨F, -, rfl⟩ | ⟨hf, rfl⟩
  · exact h.after_raised F
  · exact h.after_effect hwf hf

/-! ### The host's events keep the invariant -/

/-- The one operand with a bound, the length of `DEC_START`, is checked by format W (R65). -/
theorem wellFormed_of_decode {P : Params} {w : CmdWord} {i : Instr} (h : decode P w = .ok i) :
    WellFormed P i = true := by
  cases i with
  | decStart n =>
    unfold decode at h
    split at h
    case h_14 =>
      obtain ⟨hn, hlt⟩ := formatW_ok h
      cases hn
      simpa [WellFormed] using hlt
    all_goals simp [formatN, formatS, formatB, ite_eq_iff] at h
  | _ => rfl

theorem Inv.after_withInbox {s : State} (h : Inv s) (rest : List HostEvent) : Inv (withInbox rest s) :=
  { h with load := fun hl => (h.load hl).of_eq rfl rfl rfl rfl }

theorem Inv.after_acceptWord {s t : State} (h : Inv s) {w : CmdWord} (ht : acceptWord w s = .next t) : Inv t := by
  cases hd : decode s.params w with
  | error e =>
    rw [acceptWord_of_error hd] at ht
    cases ht
    exact h.after_raised .illegalCmd
  | ok i =>
    rw [acceptWord_of_ok hd] at ht
    exact h.after_exec (wellFormed_of_decode hd) ht

theorem Inv.after_takeWord {s : State} (h : Inv s) : Inv (takeWord s) := by
  rw [takeWord_eq]
  exact
    { h with
      load := fun hl => (h.load hl).of_eq rfl rfl rfl rfl
      pending := fun w hw => h.pending w (List.mem_of_mem_tail hw)
      delivered := fun w hw =>
        (List.mem_append.1 hw).elim (h.delivered w) fun hq => h.pending w (List.mem_of_mem_take hq) }

/-- Every state right after a reset meets the invariant (R30). -/
theorem inv_afterReset {P : Params} (hP : P.wf = true) (k : Nat) {port : Port}
    (hpending : ∀ w ∈ port.outQ, OutWordOk w) (hdelivered : ∀ w ∈ port.delivered, OutWordOk w) :
    Inv (State.afterReset P k port) where
  params := hP
  err := by simp [State.afterReset]
  fa := by simp [State.afterReset]
  ct := by simp [State.afterReset]
  load := by simp [State.afterReset]
  enc_table := by simp [State.afterReset]
  dec_table := by simp [State.afterReset]
  pack := by simp [State.afterReset]
  nbits_lt := Nat.two_pow_pos _
  remain_lt := Nat.two_pow_pos _
  dec := decInv_root hP _
  pending := hpending
  delivered := hdelivered

theorem Inv.after_resetMachine {s : State} (h : Inv s) : Inv (resetMachine s) :=
  inv_afterReset h.params _ (by simp) h.delivered

/-- Settles O9: the step of a reset event is `resetMachine`, whose fields are those of `State.afterReset`. -/
theorem resetRestoresEveryElement : Obligations.ResetRestoresEveryElement := by
  intro s rest hin
  refine ⟨_, step_of_reset hin, ?_⟩
  simp [resetMachine, State.afterReset]

/-- Settles O40: the default parameters are legal and nothing is pending or delivered at `State.reset`. -/
theorem invariantAtReset : Obligations.InvariantAtReset :=
  inv_afterReset (by decide) 0 (by simp) (by simp)

/-- Settles O41: each of the host's events keeps the invariant. -/
theorem stepKeepsInvariant : Obligations.StepKeepsInvariant := by
  intro s t h ht
  match hin : s.port.inbox with
  | [] =>
    rw [step_of_idle hin] at ht
    cases ht
    exact h
  | .cmd w :: rest =>
    rw [step_of_cmd hin] at ht
    exact (h.after_withInbox rest).after_acceptWord ht
  | .take :: rest =>
    rw [step_of_take hin] at ht
    cases ht
    exact (h.after_withInbox rest).after_takeWord
  | .reset :: rest =>
    rw [step_of_reset hin] at ht
    cases ht
    exact (h.after_withInbox rest).after_resetMachine

end Sys2Proof.Machine
end

section
/-! SUPPORT. The words at the output port: their order (R51, O12), how many one command emits (R47, O43), and the bytes of a
payload bit by bit (R74, O44); and the code table's freeze while a session is active (R53, O39). -/

namespace Sys2Proof.Machine

/-! ### The order of the output words (R51) -/

theorem acceptWord_port {w : CmdWord} {s t : State} (h : acceptWord w s = .next t) :
    ∃ ws, t.port = { s.port with outQ := s.port.outQ ++ ws } := by
  cases hd : decode s.params w with
  | error e =>
    rw [acceptWord_of_error hd, raise_eq] at h
    cases h
    exact ⟨_, rfl⟩
  | ok i =>
    rw [acceptWord_of_ok hd] at h
    exact exec_port h

/-- A word taken only moves from the pending words to the record. -/
theorem takeWord_delivered_outQ (s : State) :
    (takeWord s).port.delivered ++ (takeWord s).port.outQ = s.port.delivered ++ s.port.outQ := by
  rw [takeWord_eq]
  cases s.port.outQ <;> simp

/-- Settles O12: only an accepted word appends (`acceptWord_port`); a word taken keeps the whole sequence. -/
theorem outputOrderIsKept : Obligations.OutputOrderIsKept := by
  intro s t hreset ht
  match hin : s.port.inbox with
  | [] =>
    rw [step_of_idle hin] at ht
    cases ht
    exact ⟨[], by simp, fun _ => rfl⟩
  | .cmd w :: rest =>
    rw [step_of_cmd hin] at ht
    obtain ⟨ws, hport⟩ := acceptWord_port ht
    exact ⟨ws, by simp [hport], fun hcmd => absurd rfl (hcmd w rest)⟩
  | .take :: rest =>
    rw [step_of_take hin] at ht
    cases ht
    exact ⟨[], by simp [takeWord_delivered_outQ], fun _ => rfl⟩
  | .reset :: rest => exact absurd hin (hreset rest)

/-! ### The code table in a session (R53) -/

/-- With a session active and no load, every command of CT is out of sequence (R192, R208). -/
theorem firstFault_ct_of_session {s : State} (hs : s.enc.state = .active ∨ s.dec.state = .active)
    (hl : s.ct.ldActive = false) {i : Instr} (hi : unitOf i = .ct) : firstFault s i = some .seq := by
  have hidle : ¬ (s.enc.state = .idle ∧ s.dec.state = .idle) := by
    rintro ⟨henc, hdec⟩
    simp [henc, hdec] at hs
  cases i with
  | ctClr => exact if_neg hidle
  | ctBegin sym => exact if_neg fun ⟨_, _, h⟩ => hidle h
  | ctBit b => exact if_pos hl
  | ctEnd => exact if_pos hl
  | _ => cases hi

theorem exec_ct_of_session {i : Instr} {s t : State} (hs : s.enc.state = .active ∨ s.dec.state = .active)
    (hl : s.ct.ldActive = false) (h : exec i s = .next t) : t.ct = s.ct := by
  by_cases hi : unitOf i = .ct
  · have hseq := firstFault_ct_of_session hs hl hi
    obtain rfl : t = raised .seq s := by rw [exec_next_iff, hseq] at h; exact h
    rfl
  · exact (exec_keepsToUnit h).ct hi

theorem acceptWord_ct_of_session {w : CmdWord} {s t : State} (hs : s.enc.state = .active ∨ s.dec.state = .active)
    (hl : s.ct.ldActive = false) (h : acceptWord w s = .next t) : t.ct = s.ct := by
  cases hd : decode s.params w with
  | error e =>
    rw [acceptWord_of_error hd, raise_eq] at h
    cases h
    rfl
  | ok i =>
    rw [acceptWord_of_ok hd] at h
    exact exec_ct_of_session hs hl h

/-- No load runs beside a session (R21). -/
theorem Inv.ldActive_of_session {s : State} (h : Inv s) (hs : s.enc.state = .active ∨ s.dec.state = .active) :
    s.ct.ldActive = false :=
  hs.elim h.ldActive_of_encActive h.ldActive_of_decActive

/-- Settles O39: the invariant rules out a load beside the session, so each command of CT raises `SEQ`, and the commands of
the other units keep to their unit. -/
theorem tableFrozenDuringSession : Obligations.TableFrozenDuringSession := by
  intro s t h hs hreset ht
  match hin : s.port.inbox with
  | [] =>
    rw [step_of_idle hin] at ht
    cases ht
    rfl
  | .cmd w :: rest =>
    rw [step_of_cmd hin] at ht
    exact acceptWord_ct_of_session (s := withInbox rest s) hs (h.ldActive_of_session hs) ht
  | .take :: rest =>
    rw [step_of_take hin] at ht
    cases ht
    rw [takeWord_eq]
    rfl
  | .reset :: rest => exact absurd hin (hreset rest)

/-! ### How many words a command emits (R47) -/

/-- The most words one command emits (R47). -/
def maxWords : Instr → Nat
  | .encPush _ => 32
  | .decPush _ => 8
  | _ => 2

/-- `t` is `s` with at most `n` more words pending. -/
def EmitsAtMost (n : Nat) (s t : State) : Prop := ∃ ws, t.port.outQ = s.port.outQ ++ ws ∧ ws.length ≤ n

theorem emitsAtMost_of_outQ_eq (n : Nat) {s t : State} (h : t.port.outQ = s.port.outQ) : EmitsAtMost n s t :=
  ⟨[], by rw [h, List.append_nil], Nat.zero_le n⟩

theorem one_le_maxWords (i : Instr) : 1 ≤ maxWords i := by
  cases i <;> simp [maxWords]

theorem length_flushWords_le (p : Pack) : (flushWords p).length ≤ 2 := by
  unfold flushWords
  split <;> simp

theorem length_bits_le (e : CtEntry) : e.bits.length ≤ 255 := by
  have hlen := e.len.isLt
  rw [CtEntry.bits, List.length_take]
  omega

/-- PACK holds fewer than 8 bits, so a code emits the whole bytes of those bits and its own. -/
theorem packCode_emitsAtMost {s : State} (hp : PackInv s.pack) (code : Bits) :
    EmitsAtMost ((7 + code.length) / 8) s (packCode code s) := by
  obtain ⟨out, hpacked, hwhole⟩ := packCode_eq code s _ (holds_pending hp)
  have hfill := s.pack.fill.isLt
  have hlen := congrArg List.length hwhole
  simp only [wholeBytes, List.length_append, List.length_map, List.length_range, List.length_take,
    byteBits_length] at hlen
  refine ⟨byteWords out, by rw [hpacked]; rfl, ?_⟩
  rw [byteWords, List.length_map]
  omega

/-- A payload byte emits at most one symbol per delivered bit. -/
theorem deliverByte_emitsAtMost (B : BitVec 8) (s : State) : EmitsAtMost 8 s (deliverByte B s) := by
  refine ⟨_, by rw [deliverByte_eq]; rfl, ?_⟩
  rw [symWords, List.length_map]
  calc _ ≤ ((byteBits B).take (bitsTaken s)).length := decodeSteps_length_le _ _ _ _
    _ ≤ (byteBits B).length := List.length_take_le' _ _
    _ = 8 := byteBits_length B

theorem effect_emitsAtMost {s : State} (h : Inv s) {i : Instr} (hf : firstFault s i = none) :
    EmitsAtMost (maxWords i) s (effect s i) := by
  cases i with
  | encPush sym =>
    have henc : s.enc.state = .active := by
      rw [← session_ne_idle]
      intro hidle
      simp [firstFault, hidle] at hf
    obtain ⟨ws, hq, hws⟩ := packCode_emitsAtMost (h.pack henc) (readAt s.ct.entry sym).bits
    have hcode := length_bits_le (readAt s.ct.entry sym)
    exact ⟨ws, hq, by rw [maxWords]; omega⟩
  | decPush B => exact deliverByte_emitsAtMost B s
  | encFlush => exact ⟨_, rfl, length_flushWords_le s.pack⟩
  | rdReg _ | faRd _ | decEnd => exact ⟨_, rfl, Nat.le_succ 1⟩
  | _ => exact emitsAtMost_of_outQ_eq _ rfl

theorem exec_emitsAtMost {s t : State} (h : Inv s) {i : Instr} (ht : exec i s = .next t) :
    EmitsAtMost (maxWords i) s t := by
  rcases exec_cases ht with ⟨F, -, rfl⟩ | ⟨hf, rfl⟩
  · exact ⟨[errWord F], by rw [raised_eq], one_le_maxWords i⟩
  · exact effect_emitsAtMost h hf

theorem maxWords_eq_two {i : Instr} (henc : ∀ sym, i ≠ .encPush sym) (hdec : ∀ B, i ≠ .decPush B) : maxWords i = 2 := by
  cases i with
  | encPush sym => exact absurd rfl (henc sym)
  | decPush B => exact absurd rfl (hdec B)
  | _ => rfl

/-- Settles O43: a fault emits one word, an effect at most `maxWords`. -/
theorem outputWordsPerCommand : Obligations.OutputWordsPerCommand := by
  intro s t i h ht
  obtain ⟨ws, hq, hws⟩ := exec_emitsAtMost h ht
  refine ⟨ws, hq, ?_, ?_, fun henc hdec => maxWords_eq_two henc hdec ▸ hws⟩
  · rintro ⟨sym, rfl⟩
    exact hws
  · rintro ⟨B, rfl⟩
    exact hws

/-! ### The bits of a payload (R44, R46, R74) -/

@[simp] theorem payload_length (β : Bits) : (payload β).length = (β.length + 7) / 8 := by
  simp [payload]

theorem payload_getD {β : Bits} {j : Nat} (hj : j < (payload β).length) : (payload β).getD j 0 = payloadByte β j := by
  rw [List.getD_eq_getElem _ _ hj]
  simp [payload]

@[simp] theorem flatMap_byteBits_length (bytes : List (BitVec 8)) : (bytes.flatMap byteBits).length = 8 * bytes.length := by
  simp [List.length_flatMap, Nat.mul_comm]

/-- Bit `i` of unpacked bytes is bit `7 - i % 8` of byte `i / 8` (R45). -/
theorem flatMap_byteBits_getElem? {bytes : List (BitVec 8)} {i : Nat} (hi : i < 8 * bytes.length) :
    (bytes.flatMap byteBits)[i]? = some ((bytes.getD (i / 8) 0).getLsbD (7 - i % 8)) := by
  induction bytes generalizing i with
  | nil => simp at hi
  | cons B bytes ih =>
    rw [List.flatMap_cons]
    by_cases h8 : i < 8
    · rw [List.getElem?_append_left (by simpa using h8), byteBits_getElem? B i h8, Nat.div_eq_of_lt h8,
        Nat.mod_eq_of_lt h8, List.getD_cons_zero]
    · have hi' : i - 8 < 8 * bytes.length := by
        rw [List.length_cons] at hi
        omega
      have hdiv : i / 8 = (i - 8) / 8 + 1 := by omega
      have hmod : i % 8 = (i - 8) % 8 := by omega
      rw [List.getElem?_append_right (by simpa using h8), byteBits_length, ih hi', hdiv, hmod, List.getD_cons_succ]

theorem payload_bit {β : Bits} {j k : Nat} (hk : k < 8) (hj : j < (payload β).length) :
    ((payload β).getD j 0).getLsbD (7 - k) = β.getD (8 * j + k) false := by
  rw [payload_getD hj, payloadByte_bit β j k hk]

theorem unpackStream_payload (β : Bits) : unpackStream β.length (payload β) = β := by
  have hpad : β.length ≤ 8 * (payload β).length := by
    rw [payload_length]
    omega
  apply List.ext_getElem?
  intro i
  by_cases hi : i < β.length
  · have hj : i / 8 < (payload β).length := by omega
    calc (unpackStream β.length (payload β))[i]?
      _ = ((payload β).flatMap byteBits)[i]? := List.getElem?_take_of_lt hi
      _ = some (((payload β).getD (i / 8) 0).getLsbD (7 - i % 8)) :=
        flatMap_byteBits_getElem? (Nat.lt_of_lt_of_le hi hpad)
      _ = some (β.getD (8 * (i / 8) + i % 8) false) := by rw [payload_bit (Nat.mod_lt i (by decide)) hj]
      _ = β[i]? := by rw [Nat.div_add_mod, List.getD_eq_getElem _ _ hi, List.getElem?_eq_getElem hi]
  · have hlen : (unpackStream β.length (payload β)).length ≤ β.length := List.length_take_le _ _
    rw [List.getElem?_eq_none (by omega), List.getElem?_eq_none (by omega)]

/-- Settles O44: the length and the bits of `payload`, and the exact unpacking `unpackStream_payload`. -/
theorem payloadBitOrder : Obligations.PayloadBitOrder := fun β =>
  ⟨payload_length β, fun _ _ => payload_bit, unpackStream_payload β⟩

end Sys2Proof.Machine
end

section
/-! SUPPORT. The encoding both ways: a command's word decodes to it (O1), a word that decodes is its command's word (O2), and at
the default parameters the decoder and the rows of the opcode map accept the same words (O3). -/

namespace Sys2Proof

/-- Settles O1: `decode_encode`. -/
theorem decodeOfEncode : Obligations.DecodeOfEncode := fun _ _ => decode_encode

/-! ### A word a format accepts is the word of the command it gives (R61) -/

theorem encode_of_formatN {w : CmdWord} {i j : Instr} (hi : encode i = cmdWord (opcodeOf w) 0#32)
    (h : formatN w i = .ok j) : encode j = w := by
  obtain ⟨rfl, hop⟩ := formatN_ok h
  rw [hi, ← hop, cmdWord_eta]

theorem encode_of_formatS {w : CmdWord} {mk : Symbol → Instr} {j : Instr}
    (hmk : ∀ x, encode (mk x) = cmdWord (opcodeOf w) (x.setWidth 32)) (h : formatS w mk = .ok j) : encode j = w := by
  obtain ⟨x, rfl, hop⟩ := formatS_ok h
  rw [hmk, ← hop, cmdWord_eta]

theorem encode_of_formatB {w : CmdWord} {mk : Bool → Instr} {j : Instr}
    (hmk : ∀ b, encode (mk b) = cmdWord (opcodeOf w) ((BitVec.ofBool b).setWidth 32)) (h : formatB w mk = .ok j) :
    encode j = w := by
  obtain ⟨b, rfl, hop⟩ := formatB_ok h
  rw [hmk, ← hop, cmdWord_eta]

theorem encode_of_formatW {P : Params} {w : CmdWord} {mk : Word → Instr} {j : Instr}
    (hmk : ∀ n, encode (mk n) = cmdWord (opcodeOf w) n) (h : formatW P w mk = .ok j) : encode j = w := by
  obtain ⟨rfl, -⟩ := formatW_ok h
  rw [hmk, cmdWord_eta]

/-- The cases are the rows of `decode`, by format; no format gives the last one's error. -/
theorem encode_of_decode {P : Params} {w : CmdWord} {i : Instr} (h : decode P w = .ok i) : encode i = w := by
  unfold decode at h
  split at h
  case h_1 ho | h_3 ho | h_4 ho | h_7 ho | h_10 ho | h_11 ho | h_13 ho | h_16 ho =>
    exact encode_of_formatN (by rw [ho]; rfl) h
  case h_2 ho | h_5 ho | h_6 ho | h_8 ho | h_12 ho | h_15 ho =>
    exact encode_of_formatS (fun _ => by rw [ho]; rfl) h
  case h_9 ho => exact encode_of_formatB (fun _ => by rw [ho]; rfl) h
  case h_14 ho => exact encode_of_formatW (fun _ => by rw [ho]; rfl) h
  case h_17 => cases h

/-- Settles O2: `encode_of_decode` and `wellFormed_of_decode`. -/
theorem encodeOfDecode : Obligations.EncodeOfDecode := fun _ _ _ h =>
  ⟨encode_of_decode h, Machine.wellFormed_of_decode h⟩

/-! ### From a command to its row (R67) -/

theorem rowMatch : ∀ i : Instr, Laws.RowMatch.Statement i
  | .nop => Laws.RowMatch.nop
  | .rdReg idx => Laws.RowMatch.rdReg idx
  | .clrErr => Laws.RowMatch.clrErr
  | .faClr => Laws.RowMatch.faClr
  | .faPush sym => Laws.RowMatch.faPush sym
  | .faRd sym => Laws.RowMatch.faRd sym
  | .ctClr => Laws.RowMatch.ctClr
  | .ctBegin sym => Laws.RowMatch.ctBegin sym
  | .ctBit b => Laws.RowMatch.ctBit b
  | .ctEnd => Laws.RowMatch.ctEnd
  | .encStart => Laws.RowMatch.encStart
  | .encPush sym => Laws.RowMatch.encPush sym
  | .encFlush => Laws.RowMatch.encFlush
  | .decStart n => Laws.RowMatch.decStart n
  | .decPush byte => Laws.RowMatch.decPush byte
  | .decEnd => Laws.RowMatch.decEnd

theorem OpRow.matchesWord_iff {r : OpRow} {w : CmdWord} :
    r.matchesWord w = true ↔ w &&& r.maskBits = r.matchBits := beq_iff_eq

/-! ### From a row to a command (R67)

A row fixes the opcode and names, by its mask, the operand bits that must be zero. -/

theorem masked_eq_iff {w : CmdWord} {o : BitVec 8} {m : Word} :
    w &&& cmdWord 0xFF#8 m = cmdWord o 0#32 ↔ opcodeOf w = o ∧ operandOf w &&& m = 0#32 := by
  have hopc : opcodeOf w &&& 0xFF#8 = opcodeOf w := BitVec.and_allOnes
  rw [← cmdWord_inj, ← hopc, ← cmdWord_and, cmdWord_eta]

/-- A field whose bits are all under the mask is zero where the masked operand is. -/
theorem extract_eq_zero_of_masked {start len : Nat} {p m : Word} (hm : m.extractLsb' start len = BitVec.allOnes len)
    (h : p &&& m = 0#32) : p.extractLsb' start len = 0#len := by
  calc p.extractLsb' start len
    _ = p.extractLsb' start len &&& m.extractLsb' start len := by rw [hm, BitVec.and_allOnes]
    _ = (p &&& m).extractLsb' start len := BitVec.extractLsb'_and.symm
    _ = 0#len := by rw [h, BitVec.extractLsb'_zero]

/-- Every word that matches row `r` is the word of a command with the row's mnemonic. -/
def OpRow.HoldsCommands (r : OpRow) : Prop :=
  ∀ w : CmdWord, w &&& r.maskBits = r.matchBits → ∃ i, encode i = w ∧ mnemonicOf i = r.mnemonic

/-- A row holds commands when each operand its mask leaves is a command's. -/
theorem holdsCommands_of_operands {name : String} {o : BitVec 8} {m : Word}
    (h : ∀ p : Word, p &&& m = 0#32 → ∃ i, encode i = cmdWord o p ∧ mnemonicOf i = name) :
    OpRow.HoldsCommands { mnemonic := name, matchBits := cmdWord o 0#32, maskBits := cmdWord 0xFF#8 m } := by
  intro w hw
  obtain ⟨rfl, hop⟩ := masked_eq_iff.mp hw
  simpa [cmdWord_eta] using h (operandOf w) hop

theorem holdsCommands_formatN (i : Instr) {o : BitVec 8} (hi : encode i = cmdWord o 0#32) :
    OpRow.HoldsCommands
      { mnemonic := mnemonicOf i, matchBits := cmdWord o 0#32, maskBits := cmdWord 0xFF#8 0xFFFFFFFF#32 } :=
  holdsCommands_of_operands fun p hp => by
    have hp0 : p = 0#32 := BitVec.and_allOnes.symm.trans hp
    exact ⟨i, hp0 ▸ hi, rfl⟩

theorem holdsCommands_formatS (mk : Symbol → Instr) {name : String} {o : BitVec 8}
    (hmk : ∀ x, encode (mk x) = cmdWord o (x.setWidth 32)) (hname : ∀ x, mnemonicOf (mk x) = name) :
    OpRow.HoldsCommands { mnemonic := name, matchBits := cmdWord o 0#32, maskBits := cmdWord 0xFF#8 0xFFFFFF00#32 } :=
  holdsCommands_of_operands fun _ hp => by
    have hhigh := extract_eq_zero_of_masked (start := 8) (len := 24) (by decide) hp
    exact ⟨mk _, by rw [hmk, symOperand_of_high hhigh], hname _⟩

theorem holdsCommands_formatB (mk : Bool → Instr) {name : String} {o : BitVec 8}
    (hmk : ∀ b, encode (mk b) = cmdWord o ((BitVec.ofBool b).setWidth 32)) (hname : ∀ b, mnemonicOf (mk b) = name) :
    OpRow.HoldsCommands { mnemonic := name, matchBits := cmdWord o 0#32, maskBits := cmdWord 0xFF#8 0xFFFFFFFE#32 } :=
  holdsCommands_of_operands fun _ hp => by
    have hhigh := extract_eq_zero_of_masked (start := 1) (len := 31) (by decide) hp
    exact ⟨mk _, by rw [hmk, bitOperand_of_high hhigh], hname _⟩

/-- Format W at the default `W_LEN = 32`: no operand bit is masked. -/
theorem holdsCommands_formatW (mk : Word → Instr) {name : String} {o : BitVec 8}
    (hmk : ∀ n, encode (mk n) = cmdWord o n) (hname : ∀ n, mnemonicOf (mk n) = name) :
    OpRow.HoldsCommands { mnemonic := name, matchBits := cmdWord o 0#32, maskBits := cmdWord 0xFF#8 0#32 } :=
  holdsCommands_of_operands fun p _ => ⟨mk p, hmk p, hname p⟩

theorem holdsCommands_of_mem : ∀ r ∈ opcodeRows, r.HoldsCommands := by
  simp only [opcodeRows, List.forall_mem_cons]
  exact ⟨holdsCommands_formatN .nop rfl,
    holdsCommands_formatS .rdReg (fun _ => rfl) (fun _ => rfl),
    holdsCommands_formatN .clrErr rfl,
    holdsCommands_formatN .faClr rfl,
    holdsCommands_formatS .faPush (fun _ => rfl) (fun _ => rfl),
    holdsCommands_formatS .faRd (fun _ => rfl) (fun _ => rfl),
    holdsCommands_formatN .ctClr rfl,
    holdsCommands_formatS .ctBegin (fun _ => rfl) (fun _ => rfl),
    holdsCommands_formatB .ctBit (fun _ => rfl) (fun _ => rfl),
    holdsCommands_formatN .ctEnd rfl,
    holdsCommands_formatN .encStart rfl,
    holdsCommands_formatS .encPush (fun _ => rfl) (fun _ => rfl),
    holdsCommands_formatN .encFlush rfl,
    holdsCommands_formatW .decStart (fun _ => rfl) (fun _ => rfl),
    holdsCommands_formatS .decPush (fun _ => rfl) (fun _ => rfl),
    holdsCommands_formatN .decEnd rfl,
    List.forall_mem_nil _⟩

/-! ### The decoder and the opcode map at the default parameters (R67, R68) -/

/-- With `W_LEN = 32` every length fits. -/
theorem wellFormed_default (i : Instr) : WellFormed Config.params i = true := by
  cases i with
  | decStart n => exact decide_eq_true n.isLt
  | _ => rfl

theorem row_of_decode {w : CmdWord} {i : Instr} (h : decode Config.params w = .ok i) :
    ∃ r ∈ opcodeRows, r.mnemonic = mnemonicOf i ∧ w &&& r.maskBits = r.matchBits := by
  obtain ⟨r, hr, hname, hmatch⟩ := rowMatch i
  rw [encode_of_decode h] at hmatch
  exact ⟨r, hr, hname, OpRow.matchesWord_iff.mp hmatch⟩

theorem decode_of_row {w : CmdWord} {r : OpRow} (hr : r ∈ opcodeRows) (h : w &&& r.maskBits = r.matchBits) :
    ∃ i, decode Config.params w = .ok i ∧ mnemonicOf i = r.mnemonic := by
  obtain ⟨i, rfl, hname⟩ := holdsCommands_of_mem r hr w h
  exact ⟨i, decode_encode (wellFormed_default i), hname⟩

/-- No two rows have one mnemonic. -/
theorem opcodeRows_mnemonic_inj : ∀ r ∈ opcodeRows, ∀ r' ∈ opcodeRows, r.mnemonic = r'.mnemonic → r = r' := by
  decide

/-- Two rows that match one word both carry the mnemonic of the command it decodes to. -/
theorem row_unique {w : CmdWord} {r r' : OpRow} (hr : r ∈ opcodeRows) (hr' : r' ∈ opcodeRows)
    (h : w &&& r.maskBits = r.matchBits) (h' : w &&& r'.maskBits = r'.matchBits) : r = r' := by
  obtain ⟨i, hi, hname⟩ := decode_of_row hr h
  obtain ⟨i', hi', hname'⟩ := decode_of_row hr' h'
  have hii : i = i' := Except.ok.inj (hi.symm.trans hi')
  exact opcodeRows_mnemonic_inj r hr r' hr' (by rw [← hname, ← hname', hii])

/-- Settles O3: `row_of_decode`, `decode_of_row` and `row_unique`. -/
theorem decodeFollowsOpcodeMap : Obligations.DecodeFollowsOpcodeMap := fun _ =>
  ⟨fun _ => row_of_decode, fun _ => decode_of_row, fun _ hr _ hr' => row_unique hr hr'⟩

/-- Settles O4: a command's sample is its own word, so `decode_encode` gives it back; the others are evaluated. -/
theorem sampleWordsDecode : Obligations.SampleWordsDecode :=
  ⟨decode_encode (i := .nop) rfl, decode_encode (i := .rdReg 8#8) rfl, decode_encode (i := .faPush 65#8) rfl,
    decode_encode (i := .ctBit true) rfl, decode_encode (i := .ctBit false) rfl, decode_encode (i := .encFlush) rfl,
    decode_encode (i := .decStart 14#32) rfl, decode_encode (i := .decPush 0xAF#8) rfl, rfl, rfl, rfl⟩

end Sys2Proof
end

section
/-! SUPPORT. The system commands (`40_system_commands.md`): the common prologue (O5), the reserved operand bits of a command
word (R61, R68), the register map bit by bit (R13 to R16), and the rules of NOP, RD_REG and CLR_ERR (O13, O14, O15). -/

namespace Sys2Proof

/-! ### Reserved operand bits (R61, R68) -/

/-- The bits from `k` up are zero when the shift drops every one bit. -/
theorem extract_high_eq_zero_iff {k : Nat} (hk : k ≤ 32) (op : Word) :
    op.extractLsb' k (32 - k) = 0#(32 - k) ↔ op >>> k = 0#32 := by
  have hlt : op.toNat >>> k < 2 ^ (32 - k) := by
    rw [Nat.shiftRight_eq_div_pow, Nat.div_lt_iff_lt_mul (by positivity), ← Nat.pow_add, Nat.sub_add_cancel hk]
    exact op.isLt
  simp only [← BitVec.toNat_inj, BitVec.extractLsb'_toNat, BitVec.toNat_ushiftRight, BitVec.toNat_ofNat, Nat.zero_mod,
    Nat.mod_eq_of_lt hlt]

theorem formatN_reserved {op : Word} (h : op ≠ 0#32) (o : BitVec 8) (i : Instr) :
    formatN (cmdWord o op) i = .error (.reservedBits o) := by
  rw [formatN, operandOf_cmdWord, opcodeOf_cmdWord, if_neg h]

theorem formatS_reserved {op : Word} (h : op >>> 8 ≠ 0#32) (o : BitVec 8) (mk : Symbol → Instr) :
    formatS (cmdWord o op) mk = .error (.reservedBits o) := by
  have hfield : op.extractLsb' 8 24 ≠ 0#24 := mt (extract_high_eq_zero_iff (k := 8) (by omega) op).mp h
  rw [formatS, operandOf_cmdWord, opcodeOf_cmdWord, if_neg hfield]

end Sys2Proof

namespace Sys2Proof.Machine

/-! ### The common prologue (R90) -/

/-- Settles O5: the word is accepted with the rest of the script left; `decode` alone chooses between the fault and `exec`. -/
theorem prologueOfEveryCommand : Obligations.PrologueOfEveryCommand := by
  intro s w rest hin
  constructor
  · intro e he
    calc step s
      _ = acceptWord w (withInbox rest s) := step_of_cmd hin
      _ = raise .illegalCmd (withInbox rest s) := acceptWord_of_error he
      _ = .next _ := raise_eq .illegalCmd (withInbox rest s)
  · intro i hi
    calc step s
      _ = acceptWord w (withInbox rest s) := step_of_cmd hin
      _ = exec i (withInbox rest s) := acceptWord_of_ok hi

/-- An offered word that is no command raises `ILLEGAL_CMD`. -/
theorem step_illegal_of_error {s : State} {w : CmdWord} {e : DecodeError} (h : decode s.params w = .error e) :
    step (offerFirst w s) = .next (raised .illegalCmd s) := by
  rw [step_offerFirst, acceptWord_of_error h]
  exact raise_eq_raised _ _ _ rfl

/-- A non-zero operand makes a word of format N illegal (R61, R68). -/
theorem step_illegal_of_formatN {s : State} {o : BitVec 8} {op : Word} {i : Instr}
    (hrow : decode s.params (cmdWord o op) = formatN (cmdWord o op) i) (hop : op ≠ 0#32) :
    step (offerFirst (cmdWord o op) s) = .next (raised .illegalCmd s) :=
  step_illegal_of_error (hrow.trans (formatN_reserved hop o i))

/-- An operand above 255 makes a word of format S or R illegal (R61, R64, R66, R68). -/
theorem step_illegal_of_formatS {s : State} {o : BitVec 8} {op : Word} {mk : Symbol → Instr}
    (hrow : decode s.params (cmdWord o op) = formatS (cmdWord o op) mk) (hop : op >>> 8 ≠ 0#32) :
    step (offerFirst (cmdWord o op) s) = .next (raised .illegalCmd s) :=
  step_illegal_of_error (hrow.trans (formatS_reserved hop o mk))

/-! ### The register map (R13) -/

theorem regAt_eq_none {idx : BitVec 8} (h : 8 < idx.toNat) (s : State) : regAt idx s = none := by
  unfold regAt
  split
  case h_10 => rfl
  all_goals simp at h

/-- `ERR` reads its flag bits 1 to 11 (R14). -/
theorem errReg_bit (s : State) {k : Nat} (hk : k < 32) :
    (errReg s).getLsbD k = (decide (1 ≤ k ∧ k ≤ 11) && s.err.getLsbD k) := by
  have hmask : ∀ k < 32, errFlagMask.getLsbD k = decide (1 ≤ k ∧ k ≤ 11) := by decide
  rw [errReg, BitVec.getLsbD_and, hmask k hk, Bool.and_comm]

theorem bitAt_bit {i : Nat} (hi : i < 32) (b : Bool) (k : Nat) : (bitAt i b).getLsbD k = (decide (k = i) && b) := by
  by_cases h : k = i
  · subst h
    simp [bitAt, hi]
  · simp [bitAt, h]
    omega

theorem isActive_eq_decide (x : Session) : x.isActive = decide (x = .active) := by
  cases x <;> rfl

/-- The bits of `STATUS` (R15). -/
theorem statusReg_bit (s : State) (k : Nat) : (statusReg s).getLsbD k =
    (decide (k = 0) && decide (s.enc.state = .active) || decide (k = 1) && decide (s.dec.state = .active) ||
      decide (k = 2) && s.fa.init || decide (k = 3) && s.ct.init || decide (k = 4) && s.ct.ldActive) := by
  simp [statusReg, bitAt_bit, isActive_eq_decide]

theorem toNat_append_byte {n : Nat} (x : BitVec n) (b : BitVec 8) : (x ++ b).toNat = x.toNat * 256 + b.toNat := by
  rw [BitVec.toNat_append, ← Nat.shiftLeft_add_eq_or_of_lt b.isLt, Nat.shiftLeft_eq]

/-- Each field of `PARAMS` fits its byte (R13, R16, U32). -/
theorem paramsReg_eq {P : Params} (h : P.wf = true) :
    paramsReg P = BitVec.ofNat 32 (8 * 2 ^ 24 + P.wLen * 2 ^ 16 + P.wCnt * 2 ^ 8 + P.lMax) := by
  have hb := params_bounds h
  apply BitVec.eq_of_toNat_eq
  simp only [paramsReg, toNat_append_byte, BitVec.toNat_ofNat, Config.symW]
  omega

/-! ### The rules of the three commands -/

theorem exec_rdReg_of_some {idx : BitVec 8} {s : State} {v : Word} (h : regAt idx s = some v) :
    exec (.rdReg idx) s = .next (withOutput [outWord .data v] s) := by
  simp only [exec_eq, firstFault, effect, h]
  rfl

theorem exec_rdReg_of_none {idx : BitVec 8} {s : State} (h : regAt idx s = none) :
    exec (.rdReg idx) s = .next (raised .illegalCmd s) := by
  simp only [exec_eq, firstFault, h]
  rfl

theorem encode_rdReg_toNat (idx : BitVec 8) : (encode (.rdReg idx)).toNat = 0x0100000000 + idx.toNat := by
  rw [encode, cmdWord_toNat, BitVec.toNat_setWidth_of_le (by omega)]
  rfl

/-- Settles O13: NOP has no test and no effect; format N leaves its word no operand bit. -/
theorem nopDoesNothing : Obligations.NopDoesNothing :=
  ⟨fun s => exec_eq .nop s, rfl, fun _ _ => step_illegal_of_formatN (i := .nop) (by simp [decode])⟩

/-- Settles O14: the nine rows of `regAt`, with the bits of `ERR`, `STATUS` and `PARAMS` from the lemmas about each. -/
theorem rdRegReadsTheMap : Obligations.RdRegReadsTheMap := by
  refine ⟨fun s => ⟨exec_rdReg_of_some rfl, ?err, ?status, exec_rdReg_of_some rfl, ?distinct, ?n,
    exec_rdReg_of_some rfl, exec_rdReg_of_some rfl, ?params, ?absent⟩,
    encode_rdReg_toNat, fun _ _ => step_illegal_of_formatS (mk := .rdReg) (by simp [decode])⟩
  case err => exact ⟨errReg s, exec_rdReg_of_some rfl, fun _ => errReg_bit s⟩
  case status =>
    have hhigh : ∀ k, 5 ≤ k → (statusReg s).getLsbD k = false := by
      intro k hk
      simp [statusReg_bit, show k ≠ 0 ∧ k ≠ 1 ∧ k ≠ 2 ∧ k ≠ 3 ∧ k ≠ 4 by omega]
    refine ⟨statusReg s, exec_rdReg_of_some rfl, ?_, ?_, ?_, ?_, ?_, hhigh⟩
    all_goals
      rw [statusReg_bit]
      simp
  case distinct | n =>
    rw [BitVec.ofNat_toNat]
    exact exec_rdReg_of_some rfl
  case params =>
    intro hwf
    rw [← paramsReg_eq hwf]
    exact exec_rdReg_of_some rfl
  case absent => exact fun idx hidx => exec_rdReg_of_none (regAt_eq_none hidx s)

/-- Settles O15: the effect of CLR_ERR is `clearErr`; an illegal word raises instead. -/
theorem clrErrClearsTheFlags : Obligations.ClrErrClearsTheFlags :=
  ⟨fun s => exec_eq .clrErr s, rfl, fun _ _ => step_illegal_of_formatN (i := .clrErr) (by simp [decode])⟩

end Sys2Proof.Machine
end

section
/-! SUPPORT. The frequency analyzer (`41_frequency_analyzer.md`): the rules of FA_CLR, FA_PUSH and FA_RD (O16, O17, O18), FA's
independence of the other units (O37), the histogram of a text (O45), and the exact arithmetic of the counters (O42). -/

namespace Sys2Proof.Machine

/-! ### A command by its first fault -/

theorem exec_of_fault {i : Instr} {s : State} {F : FaultKind} (h : firstFault s i = some F) :
    exec i s = .next (raised F s) := by
  rw [exec_eq, h]

theorem exec_of_clean {i : Instr} {s : State} (h : firstFault s i = none) : exec i s = .next (effect s i) := by
  rw [exec_eq, h]

/-- The word of a command of format S or R as a number (R60, R64, R66). -/
theorem cmdWord_sym_toNat (o x : BitVec 8) : (cmdWord o (x.setWidth 32)).toNat = o.toNat * 2 ^ 32 + x.toNat := by
  rw [cmdWord_toNat, BitVec.toNat_setWidth_of_le (by omega)]

/-! ### The rules of the three commands (R101 to R103) -/

theorem firstFault_faPush_of_uninit {s : State} (h : s.fa.init = false) (sym : Symbol) :
    firstFault s (.faPush sym) = some .seq := if_pos h

theorem firstFault_faRd_of_uninit {s : State} (h : s.fa.init = false) (sym : Symbol) :
    firstFault s (.faRd sym) = some .seq := if_pos h

theorem firstFault_faPush_of_full {s : State} (h : s.fa.init = true) (hfull : s.fa.total.toNat = 2 ^ s.params.wCnt - 1)
    (sym : Symbol) : firstFault s (.faPush sym) = some .faOvf := by
  simp only [firstFault, h, Bool.true_eq_false, if_false, if_pos hfull]

theorem firstFault_faPush_of_fits {s : State} (h : s.fa.init = true) (hfit : s.fa.total.toNat ≠ 2 ^ s.params.wCnt - 1)
    (sym : Symbol) : firstFault s (.faPush sym) = none := by
  simp only [firstFault, h, Bool.true_eq_false, if_false, if_neg hfit]

theorem firstFault_faRd_of_init {s : State} (h : s.fa.init = true) (sym : Symbol) : firstFault s (.faRd sym) = none := by
  simp only [firstFault, h, Bool.true_eq_false, if_false]

/-- Outside FA nothing touches it; before `FA_CLR` the two other commands of FA raise `SEQ`. -/
theorem eq_faClr_of_init_set {i : Instr} {s t : State} (h : exec i s = .next t) (hs : s.fa.init = false)
    (ht : t.fa.init = true) : i = .faClr := by
  have hne : t.fa ≠ s.fa := by
    intro he
    rw [he, hs] at ht
    cases ht
  have hunit : unitOf i = .fa := by
    by_contra hu
    exact hne ((exec_keepsToUnit h).fa hu)
  cases i with
  | faClr => rfl
  | faPush sym =>
    rw [exec_of_fault (firstFault_faPush_of_uninit hs sym)] at h
    cases h
    exact absurd rfl hne
  | faRd sym =>
    rw [exec_of_fault (firstFault_faRd_of_uninit hs sym)] at h
    cases h
    exact absurd rfl hne
  | _ => cases hunit

/-- Settles O16: the effect of FA_CLR is `clearHistogram`, and `eq_faClr_of_init_set` says that nothing else sets `FA.init`. -/
theorem faClrEmptiesTheHistogram : Obligations.FaClrEmptiesTheHistogram :=
  ⟨fun s => ⟨clearHistogram s, exec_eq .faClr s, by simp, rfl, rfl, rfl, rfl⟩, rfl, fun _ _ _ => eq_faClr_of_init_set,
    fun _ _ => step_illegal_of_formatN (i := .faClr) (by simp [decode])⟩

/-- Settles O17: the three values of `firstFault` for FA_PUSH; without a fault the effect is `countSymbol`. -/
theorem faPushCountsOneSymbol : Obligations.FaPushCountsOneSymbol := by
  refine ⟨fun s sym => ⟨?seq, ?ovf, ?counted⟩, fun sym => cmdWord_sym_toNat 0x11#8 sym,
    fun _ _ => step_illegal_of_formatS (mk := .faPush) (by simp [decode])⟩
  case seq => exact fun h => exec_of_fault (firstFault_faPush_of_uninit h sym)
  case ovf => exact fun h hfull => exec_of_fault (firstFault_faPush_of_full h hfull sym)
  case counted =>
    intro h hfit
    exact ⟨countSymbol sym s, exec_of_clean (firstFault_faPush_of_fits h hfit sym), readAt_writeAt_same _ _ _,
      fun _ hr => readAt_writeAt_of_ne _ _ hr, rfl, fun h0 => if_pos h0, fun h0 => if_neg h0, h, rfl⟩

/-- Settles O18: FA_RD raises `SEQ` before `FA_CLR`, and otherwise its effect is one `DATA` word. -/
theorem faRdReadsOneCounter : Obligations.FaRdReadsOneCounter :=
  ⟨fun _ sym => ⟨fun h => exec_of_fault (firstFault_faRd_of_uninit h sym),
      fun h => exec_of_clean (firstFault_faRd_of_init h sym)⟩,
    fun sym => cmdWord_sym_toNat 0x12#8 sym, fun _ _ => step_illegal_of_formatS (mk := .faRd) (by simp [decode])⟩

/-! ### FA and the other units (R100) -/

theorem raised_withFa (F : FaultKind) (s : State) (f : FA) :
    raised F { s with fa := f } = { raised F s with fa := f } := by
  rw [raised_eq, raised_eq]

/-- No test of a command outside FA reads FA. -/
theorem firstFault_withFa {i : Instr} (hunit : unitOf i ≠ .fa) (hrd : ∀ idx, i ≠ .rdReg idx) (s : State) (f : FA) :
    firstFault { s with fa := f } i = firstFault s i := by
  cases i with
  | faClr | faPush | faRd => exact absurd rfl hunit
  | rdReg idx => exact absurd rfl (hrd idx)
  | _ => rfl

theorem packCode_withFa (code : Bits) (s : State) (f : FA) :
    packCode code { s with fa := f } = { packCode code s with fa := f } := by
  refine List.foldl_hom (fun u : State => { u with fa := f }) fun u b => ?_
  rw [packAbsorb_eq, packAbsorb_eq]
  split <;> rfl

theorem effect_withFa {i : Instr} (hunit : unitOf i ≠ .fa) (hrd : ∀ idx, i ≠ .rdReg idx) (s : State) (f : FA) :
    effect { s with fa := f } i = { effect s i with fa := f } := by
  cases i with
  | faClr | faPush | faRd => exact absurd rfl hunit
  | rdReg idx => exact absurd rfl (hrd idx)
  | encPush sym => exact packCode_withFa _ s f
  | decPush B => simp only [effect, deliverByte_eq]; rfl
  | _ => rfl

theorem exec_withFa {i : Instr} {s t : State} (h : exec i s = .next t) (hunit : unitOf i ≠ .fa)
    (hrd : ∀ idx, i ≠ .rdReg idx) (f : FA) : exec i { s with fa := f } = .next { t with fa := f } := by
  rcases exec_cases h with ⟨F, hF, rfl⟩ | ⟨hF, rfl⟩
  · rw [exec_of_fault (by rw [firstFault_withFa hunit hrd, hF]), raised_withFa]
  · rw [exec_of_clean (by rw [firstFault_withFa hunit hrd, hF]), effect_withFa hunit hrd]

/-- The state with every unit but FA replaced. -/
def withOtherUnits (ct : CT) (enc : Enc) (pack : Pack) (unpack : Unpack) (dec : Dec) (s : State) : State :=
  { s with ct := ct, enc := enc, pack := pack, unpack := unpack, dec := dec }

theorem firstFault_withOtherUnits {i : Instr} (hunit : unitOf i = .fa) (s : State) (ct : CT) (enc : Enc) (pack : Pack)
    (unpack : Unpack) (dec : Dec) : firstFault (withOtherUnits ct enc pack unpack dec s) i = firstFault s i := by
  cases i with
  | faClr | faPush | faRd => rfl
  | _ => cases hunit

theorem effect_withOtherUnits {i : Instr} (hunit : unitOf i = .fa) (s : State) (ct : CT) (enc : Enc) (pack : Pack)
    (unpack : Unpack) (dec : Dec) :
    effect (withOtherUnits ct enc pack unpack dec s) i = withOtherUnits ct enc pack unpack dec (effect s i) := by
  cases i with
  | faClr | faPush | faRd => rfl
  | _ => cases hunit

/-- The faults that FA's commands raise have no side effect on a unit (R205). -/
theorem raised_withOtherUnits {i : Instr} {s : State} {F : FaultKind} (hunit : unitOf i = .fa)
    (hF : firstFault s i = some F) (ct : CT) (enc : Enc) (pack : Pack) (unpack : Unpack) (dec : Dec) :
    raised F (withOtherUnits ct enc pack unpack dec s) = withOtherUnits ct enc pack unpack dec (raised F s) := by
  obtain ⟨hct, henc, hdec⟩ := unitOf_of_firstFault hF
  rw [hunit] at hct henc hdec
  cases F with
  | codeEmpty | codeTooLong | prefixCollision => simp at hct
  | unknownSymbol | lenOvf => simp at henc
  | incompleteCode | payloadShort => simp at hdec
  | _ => rfl

theorem exec_withOtherUnits {i : Instr} {s t : State} (h : exec i s = .next t) (hunit : unitOf i = .fa) (ct : CT)
    (enc : Enc) (pack : Pack) (unpack : Unpack) (dec : Dec) :
    exec i (withOtherUnits ct enc pack unpack dec s) = .next (withOtherUnits ct enc pack unpack dec t) := by
  rcases exec_cases h with ⟨F, hF, rfl⟩ | ⟨hF, rfl⟩
  · rw [exec_of_fault (by rw [firstFault_withOtherUnits hunit, hF]), raised_withOtherUnits hunit hF]
  · rw [exec_of_clean (by rw [firstFault_withOtherUnits hunit, hF]), effect_withOtherUnits hunit]

/-- Settles O37: the tests, the effects and the faults of a command all commute with the replacement. -/
theorem faIsIndependent : Obligations.FaIsIndependent := fun _ _ _ h =>
  ⟨fun hunit hrd f => exec_withFa h hunit hrd f, fun hunit => exec_withOtherUnits h hunit⟩

/-! ### The histogram of a text (R100, R104, R106) -/

/-- FA holds the histogram of the symbols seen so far. -/
structure Histogram (s : State) (seen : List Symbol) : Prop where
  init : s.fa.init = true
  inv : FaInv s.params s.fa
  count : ∀ sym, (readAt s.fa.count sym).toNat = seen.count sym
  total : s.fa.total.toNat = seen.length
  distinct : s.fa.distinct.toNat = seen.dedup.length

theorem histogram_clear (s : State) : Histogram (clearHistogram s) [] where
  init := rfl
  inv := clearHistogram_inv s.params s
  count := by simp
  total := rfl
  distinct := rfl

theorem FaInv.distinct_le {P : Params} {fa : FA} (h : FaInv P fa) : fa.distinct.toNat ≤ 256 := by
  rw [h.distinct_eq]
  exact countP_le _ _

/-- A symbol is new to the text exactly when its count is 0. -/
theorem Histogram.count_eq_zero_iff {s : State} {seen : List Symbol} (h : Histogram s seen) (sym : Symbol) :
    readAt s.fa.count sym = 0 ↔ sym ∉ seen := by
  rw [← List.count_eq_zero, ← h.count, ← BitVec.toNat_inj]
  rfl

theorem Histogram.after_countSymbol {s : State} {seen : List Symbol} (h : Histogram s seen) (hP : s.params.wf = true)
    (hfit : s.fa.total.toNat ≠ 2 ^ s.params.wCnt - 1) (sym : Symbol) :
    Histogram (countSymbol sym s) (sym :: seen) := by
  obtain ⟨hinv, htotal, hcount⟩ := countSymbol_inv hP h.inv hfit sym
  refine ⟨h.init, hinv, fun r => ?count, by rw [htotal, h.total, List.length_cons], ?distinct⟩
  case count =>
    by_cases hr : r = sym
    · rw [hr, hcount, h.count, List.count_cons_self]
    · rw [countSymbol_count, readAt_writeAt_of_ne _ _ hr, h.count, List.count_cons_of_ne (Ne.symm hr)]
  case distinct =>
    rw [countSymbol_distinct]
    by_cases hsym : sym ∈ seen
    · rw [if_neg (by rw [h.count_eq_zero_iff]; exact not_not_intro hsym), List.dedup_cons_of_mem hsym, h.distinct]
    · have hle := h.inv.distinct_le
      have hone : (1 : BitVec 9).toNat = 1 := rfl
      rw [if_pos ((h.count_eq_zero_iff sym).mpr hsym), List.dedup_cons_of_notMem hsym, List.length_cons, ← h.distinct,
        BitVec.toNat_add, hone]
      omega

/-- A text that fits adds its symbols to the histogram, the last one in front. -/
theorem execAll_faText {text seen : List Symbol} {s : State} (h : Histogram s seen) (hP : s.params.wf = true)
    (hfit : seen.length + text.length ≤ 2 ^ s.params.wCnt - 1) :
    ∃ t, execAll (faText text) s = .next t ∧ Histogram t (text.reverse ++ seen) ∧ { t with fa := s.fa } = s := by
  induction text generalizing s seen with
  | nil => exact ⟨s, rfl, h, rfl⟩
  | cons x text ih =>
    rw [List.length_cons] at hfit
    have hroom : s.fa.total.toNat ≠ 2 ^ s.params.wCnt - 1 := by
      rw [h.total]
      omega
    have hfit' : (x :: seen).length + text.length ≤ 2 ^ s.params.wCnt - 1 := by
      rw [List.length_cons]
      omega
    obtain ⟨t, hrun, hist, hframe⟩ := ih (h.after_countSymbol hP hroom x) hP hfit'
    refine ⟨t, ?_, by simpa using hist, (congrArg (fun u : State => { u with fa := s.fa }) hframe :)⟩
    calc execAll (faText (x :: text)) s
      _ = execAll (faText text) (countSymbol x s) := execAll_cons (exec_of_clean (firstFault_faPush_of_fits h.init hroom x))
      _ = .next t := hrun

/-- Settles O45: FA_CLR gives the histogram of the empty text, and `execAll_faText` that of the reversed text, whose counts do
not depend on the order. -/
theorem histogramOfText : Obligations.HistogramOfText := by
  intro s text hP hfit
  obtain ⟨t, hrun, hist, hframe⟩ := execAll_faText (histogram_clear s) hP (text := text) (by simpa using hfit)
  rw [List.append_nil] at hist
  have hperm := text.reverse_perm
  refine ⟨t, (execAll_cons (exec_eq .faClr s)).trans hrun, fun sym => ?_, ?_, ?_, hist.init,
    (congrArg (fun u : State => { u with fa := s.fa }) hframe :)⟩
  · rw [hist.count, hperm.count_eq]
  · rw [hist.total, hperm.length_eq]
  · rw [hist.distinct, hperm.dedup.length_eq]

/-! ### No counter wraps (R105, R131, R146) -/

/-- Only the nine registers of R13 exist. -/
theorem regAt_eq_none_iff {idx : BitVec 8} {s : State} : regAt idx s = none ↔ 8 < idx.toNat := by
  refine ⟨fun h => ?_, fun h => regAt_eq_none h s⟩
  unfold regAt at h
  split at h
  case h_10 =>
    simp only [imp_false] at *
    bv_omega
  all_goals cases h

/-- The tests of the commands are the causes of R190. -/
theorem cause_of_firstFault {i : Instr} {s : State} {F : FaultKind} (h : firstFault s i = some F) : Cause s i F := by
  cases i with
  | nop | clrErr | faClr => cases h
  | _ =>
    simp only [firstFault] at h
    split_ifs at h <;> cases h <;> simp_all [Cause, Legal, ← collides_iff, regAt_eq_none_iff]

theorem eq_effect_of_noCause {i : Instr} {s t : State} (h : exec i s = .next t) (hc : ¬ ∃ F, Cause s i F) :
    firstFault s i = none ∧ t = effect s i := by
  rcases exec_cases h with ⟨F, hF, -⟩ | hclean
  · exact absurd ⟨F, cause_of_firstFault hF⟩ hc
  · exact hclean

/-- The counter of PACK after a code (R128), as a 32-bit number. -/
theorem packCode_nbits {s : State} (h : PackInv s.pack) (code : Bits) :
    (packCode code s).pack.nbits = s.pack.nbits + BitVec.ofNat 32 code.length := by
  obtain ⟨out, hpacked, -⟩ := packCode_eq code s _ (holds_pending h)
  rw [hpacked]
  rfl

theorem Inv.faPush_exact {s t : State} {sym : Symbol} (h : Inv s) (ht : exec (.faPush sym) s = .next t)
    (hc : ¬ ∃ F, Cause s (.faPush sym) F) :
    t.fa.total.toNat = s.fa.total.toNat + 1 ∧
      (readAt t.fa.count sym).toNat = (readAt s.fa.count sym).toNat + 1 ∧ t.fa.distinct.toNat ≤ 256 := by
  obtain ⟨-, rfl⟩ := eq_effect_of_noCause ht hc
  have hinit : s.fa.init = true := not_not.mp fun hseq => hc ⟨.seq, hseq⟩
  obtain ⟨hinv, htotal, hcount⟩ := countSymbol_inv h.params (h.fa hinit) (fun hovf => hc ⟨.faOvf, hovf⟩) sym
  exact ⟨htotal, hcount, hinv.distinct_le⟩

theorem Inv.encPush_exact {s t : State} {sym : Symbol} (h : Inv s) (ht : exec (.encPush sym) s = .next t)
    (hc : ¬ ∃ F, Cause s (.encPush sym) F) :
    t.pack.nbits.toNat = s.pack.nbits.toNat + (readAt s.ct.entry sym).len.toNat ∧
      t.pack.nbits.toNat ≤ 2 ^ s.params.wLen - 1 := by
  obtain ⟨-, rfl⟩ := eq_effect_of_noCause ht hc
  have henc : s.enc.state = .active := not_not.mp fun hseq => hc ⟨.seq, hseq⟩
  have hv : (readAt s.ct.entry sym).valid = true := by
    rw [← Bool.not_eq_false]
    exact fun hunknown => hc ⟨.unknownSymbol, hunknown⟩
  have hlen := length_bits (h.ct (h.enc_table henc)) hv
  have hfits := h.code_fits henc hv fun hovf => hc ⟨.lenOvf, hovf⟩
  have hnbits : (effect s (.encPush sym)).pack.nbits.toNat =
      s.pack.nbits.toNat + (readAt s.ct.entry sym).len.toNat := by
    rw [effect, packCode_nbits (h.pack henc), nbits_add_code h.params hfits, hlen]
  exact ⟨hnbits, by omega⟩

theorem decPush_exact {s t : State} {B : BitVec 8} (ht : exec (.decPush B) s = .next t) (hl : Legal s (.decPush B)) :
    t.unpack.remain.toNat = s.unpack.remain.toNat - min 8 s.unpack.remain.toNat := by
  have hclean : firstFault s (.decPush B) = none := if_neg (session_ne_idle.mpr hl)
  obtain rfl : t = deliverByte B s := by rw [exec_next_iff, hclean] at ht; exact ht
  rw [deliverByte_eq]
  exact remain_after_byte s

/-- Settles O42: without a cause each command has its effect, and the invariant bounds the counter it adds to. -/
theorem countersNeverWrap : Obligations.CountersNeverWrap := fun _ _ h =>
  ⟨fun _ ht hc => h.faPush_exact ht hc, fun _ ht hc => h.encPush_exact ht hc, fun _ ht hl => decPush_exact ht hl⟩

end Sys2Proof.Machine
end

section
/-! SUPPORT. The code table (`42_code_table.md`): the rules of CT_CLR, CT_BEGIN, CT_BIT and CT_END (O19, O20, O21, O22) and
the collision test (O30). -/

namespace Sys2Proof

/-- The bits above the one data bit make an operand of format B illegal (R61, R65). -/
theorem formatB_reserved {op : Word} (h : op >>> 1 ≠ 0#32) (o : BitVec 8) (mk : Bool → Instr) :
    formatB (cmdWord o op) mk = .error (.reservedBits o) := by
  have hfield : op.extractLsb' 1 31 ≠ 0#31 := mt (extract_high_eq_zero_iff (k := 1) (by omega) op).mp h
  rw [formatB, operandOf_cmdWord, opcodeOf_cmdWord, if_neg hfield]

/-- The word of a command of format B as a number (R60, R65). -/
theorem cmdWord_bit_toNat (o : BitVec 8) (b : Bool) :
    (cmdWord o ((BitVec.ofBool b).setWidth 32)).toNat = o.toNat * 2 ^ 32 + b.toNat := by
  rw [cmdWord_toNat, BitVec.toNat_setWidth_of_le (by omega), BitVec.toNat_ofBool]

end Sys2Proof

namespace Sys2Proof.Machine

theorem step_illegal_of_formatB {s : State} {o : BitVec 8} {op : Word} {mk : Bool → Instr}
    (hrow : decode s.params (cmdWord o op) = formatB (cmdWord o op) mk) (hop : op >>> 1 ≠ 0#32) :
    step (offerFirst (cmdWord o op) s) = .next (raised .illegalCmd s) :=
  step_illegal_of_error (hrow.trans (formatB_reserved hop o mk))

/-! ### The tests of CT's commands -/

/-- Every command tests its row of the legality table first (R203, R208). -/
theorem firstFault_of_not_legal {i : Instr} {s : State} (h : ¬ Legal s i) : firstFault s i = some .seq := by
  cases i with
  | nop | rdReg | clrErr | faClr => exact absurd trivial h
  | ctClr | ctBegin | encStart | decStart => exact if_neg h
  | faPush | faRd | ctBit | ctEnd => exact if_pos (Bool.eq_false_iff.mpr h)
  | encPush | encFlush | decPush | decEnd => exact if_pos (session_ne_active.mp h)

theorem firstFault_ctClr_eq_none_iff {s : State} : firstFault s .ctClr = none ↔ Legal s .ctClr := by
  simp [firstFault, Legal]

theorem firstFault_ctBegin_of_legal {s : State} {sym : Symbol} (h : Legal s (.ctBegin sym)) :
    firstFault s (.ctBegin sym) = if (readAt s.ct.entry sym).valid = true then some .dupSymbol else none :=
  if_pos h

theorem firstFault_ctBit_of_active {s : State} (h : s.ct.ldActive = true) (b : Bool) :
    firstFault s (.ctBit b) = if s.ct.ldCode.length = s.params.lMax then some .codeTooLong else none := by
  simp only [firstFault, h, Bool.true_eq_false, if_false]

theorem firstFault_ctEnd_of_active {s : State} (h : s.ct.ldActive = true) :
    firstFault s .ctEnd = if s.ct.ldCode = [] then some .codeEmpty
      else if collides s.ct.ldCode s.ct = true then some .prefixCollision else none := by
  simp only [firstFault, h, Bool.true_eq_false, if_false]

theorem firstFault_ctEnd_of_installable {s : State} (h : s.ct.ldActive = true) (hne : s.ct.ldCode ≠ [])
    (hc : ¬ Collides s.ct s.ct.ldCode) : firstFault s .ctEnd = none := by
  rw [firstFault_ctEnd_of_active h, if_neg hne, if_neg (mt collides_iff.mp hc)]

/-! ### What a command leaves in CT -/

/-- Of CT a fault changes the load flag only (R205). -/
theorem raised_ct_entry (F : FaultKind) (s : State) : (raised F s).ct.entry = s.ct.entry := by
  cases F <;> rfl

theorem raised_ct_init (F : FaultKind) (s : State) : (raised F s).ct.init = s.ct.init := by
  cases F <;> rfl

theorem effect_ct_init {i : Instr} (h : i ≠ .ctClr) (s : State) : (effect s i).ct.init = s.ct.init := by
  cases i with
  | ctClr => exact absurd rfl h
  | ctBegin | ctBit | ctEnd => rfl
  | _ => rw [(effect_keepsToUnit s _).ct (by simp [unitOf])]

theorem exec_ct_init {i : Instr} {s t : State} (h : exec i s = .next t) (hi : i ≠ .ctClr) : t.ct.init = s.ct.init := by
  rcases exec_cases h with ⟨F, -, rfl⟩ | ⟨-, rfl⟩
  · exact raised_ct_init F s
  · exact effect_ct_init hi s

theorem eq_ctClr_of_init_set {i : Instr} {s t : State} (h : exec i s = .next t) (hs : s.ct.init = false)
    (ht : t.ct.init = true) : i = .ctClr := by
  by_contra hi
  rw [exec_ct_init h hi, hs] at ht
  cases ht

/-- `CT_END` writes the one entry of the symbol being loaded, which has no code (R112); nothing else but `CT_CLR` writes any. -/
theorem effect_keeps_valid_entry {i : Instr} {s : State} {r : Symbol} (hload : s.ct.ldActive = true → LoadInv s)
    (hf : firstFault s i = none) (hi : i ≠ .ctClr) (hr : (readAt s.ct.entry r).valid = true) :
    readAt (effect s i).ct.entry r = readAt s.ct.entry r := by
  cases i with
  | ctClr => exact absurd rfl hi
  | ctBegin | ctBit => rfl
  | ctEnd =>
    have hl : s.ct.ldActive = true := by
      by_contra hl
      rw [firstFault_of_not_legal (i := .ctEnd) hl] at hf
      cases hf
    have hne : r ≠ s.ct.ldSym := by
      rintro rfl
      rw [(hload hl).unassigned] at hr
      cases hr
    exact readAt_writeAt_of_ne _ _ hne
  | _ => rw [(effect_keepsToUnit s _).ct (by simp [unitOf])]

theorem exec_keeps_valid_entry {i : Instr} {s t : State} {r : Symbol} (hload : s.ct.ldActive = true → LoadInv s)
    (h : exec i s = .next t) (hi : i ≠ .ctClr) (hr : (readAt s.ct.entry r).valid = true) :
    readAt t.ct.entry r = readAt s.ct.entry r := by
  rcases exec_cases h with ⟨F, -, rfl⟩ | ⟨hf, rfl⟩
  · rw [raised_ct_entry]
  · exact effect_keeps_valid_entry hload hf hi hr

/-- `CT.n` counts valid entries, of which there are at most 256 (R20 a). -/
theorem CtInv.n_le {P : Params} {ct : CT} (h : CtInv P ct) : ct.n.toNat ≤ 256 := by
  rw [h.n_eq]
  exact countP_le _ _

/-! ### The rules of the four commands (R111 to R114) -/

/-- Settles O19: CT_CLR tests the two session flags, and its effect writes the valid bits, `CT.n` and the two flags of CT. -/
theorem ctClrEmptiesTheTable : Obligations.CtClrEmptiesTheTable := by
  refine ⟨fun s => ⟨?seq, ?cleared⟩, rfl, fun _ _ _ => eq_ctClr_of_init_set,
    fun _ _ => step_illegal_of_formatN (i := .ctClr) (by simp [decode])⟩
  case seq =>
    intro hs
    refine exec_of_fault (firstFault_of_not_legal ?_)
    rintro ⟨henc, hdec⟩
    simp [henc, hdec] at hs
  case cleared =>
    intro henc hdec
    exact ⟨_, exec_of_clean (firstFault_ctClr_eq_none_iff.mpr ⟨henc, hdec⟩), fun r => readAt_mapTable _ _ r,
      rfl, rfl, rfl, rfl, rfl, rfl⟩

/-- Settles O20: the tests of CT_BEGIN in order, and `exec_keeps_valid_entry` for the clause about every command. -/
theorem ctBeginStartsALoad : Obligations.CtBeginStartsALoad := by
  refine ⟨fun s sym => ⟨?seq, ?legal⟩, fun _ _ _ _ hload h hi hr => exec_keeps_valid_entry hload h hi hr,
    fun sym => cmdWord_sym_toNat 0x21#8 sym, fun _ _ => step_illegal_of_formatS (mk := .ctBegin) (by simp [decode])⟩
  case seq =>
    intro hs
    refine exec_of_fault (firstFault_of_not_legal ?_)
    rintro ⟨hinit, hl, henc, hdec⟩
    simp [hinit, hl, henc, hdec] at hs
  case legal =>
    intro hinit hl henc hdec
    have htest := firstFault_ctBegin_of_legal (sym := sym) ⟨hinit, hl, henc, hdec⟩
    exact ⟨fun hv => exec_of_fault (by rw [htest, if_pos hv]),
      fun hv => exec_of_clean (by rw [htest, if_neg (Bool.eq_false_iff.mp hv)])⟩

/-- Settles O21: the two tests of CT_BIT, and its effect; `CODE_TOO_LONG` ends the load (R205). -/
theorem ctBitAppendsOneBit : Obligations.CtBitAppendsOneBit := by
  refine ⟨fun s b => ⟨?seq, ?tooLong, ?appended⟩, fun b => cmdWord_bit_toNat 0x22#8 b,
    fun _ _ => step_illegal_of_formatB (mk := .ctBit) (by simp [decode])⟩
  case seq => exact fun hl => exec_of_fault (firstFault_of_not_legal (Bool.eq_false_iff.mp hl))
  case tooLong =>
    intro hl hfull
    exact exec_of_fault (by rw [firstFault_ctBit_of_active hl, if_pos hfull])
  case appended =>
    intro hl hroom
    exact exec_of_clean (by rw [firstFault_ctBit_of_active hl, if_neg hroom])

/-- Settles O30: `collides_iff`. -/
theorem collisionTestIsPairwise : Obligations.CollisionTestIsPairwise := fun _ _ => collides_iff

/-- Settles O22: the tests of CT_END in order; both data faults end the load (R205), and the effect is `installEntry` after
`endLoad`. The bound on `CT.n` is R20 a in the next state. -/
theorem ctEndInstallsTheCode : Obligations.CtEndInstallsTheCode := by
  refine ⟨fun s => ⟨?seq, ?empty, ?collision, ?installed⟩, rfl, ?bound,
    fun _ _ => step_illegal_of_formatN (i := .ctEnd) (by simp [decode])⟩
  case seq => exact fun hl => exec_of_fault (firstFault_of_not_legal (Bool.eq_false_iff.mp hl))
  case empty =>
    intro hl hempty
    exact exec_of_fault (by rw [firstFault_ctEnd_of_active hl, if_pos hempty])
  case collision =>
    intro hl hne hc
    exact exec_of_fault (by rw [firstFault_ctEnd_of_active hl, if_neg hne, if_pos (collides_iff.mpr hc)])
  case installed =>
    intro hl hne hc
    exact ⟨_, exec_of_clean (firstFault_ctEnd_of_installable hl hne hc), readAt_writeAt_same _ _ _,
      fun _ hr => readAt_writeAt_of_ne _ _ hr, rfl, rfl, rfl, rfl, rfl, rfl⟩
  case bound =>
    intro s t h hl ht
    have hinit : t.ct.init = true := (exec_ct_init ht (by simp)).trans (h.load hl).init
    exact ((h.after_exec rfl ht).ct hinit).n_le

end Sys2Proof.Machine
end

section
/-! SUPPORT. A whole table load (`42_code_table.md` R110, R116): when one `CT_ENTRY` raises nothing and what it installs, when
a load does, and the table it leaves (O47), which does not depend on the order of the entries (O48). -/

namespace Sys2Proof.Machine

/-! ### One `CT_ENTRY` (R76, R112 to R114) -/

theorem effects_ctBits (c : Bits) (s : State) :
    effects (c.map .ctBit) s = { s with ct := { s.ct with ldCode := s.ct.ldCode ++ c } } := by
  induction c generalizing s with
  | nil => rw [List.append_nil]; rfl
  | cons b c ih =>
    calc effects ((b :: c).map .ctBit) s
      _ = effects (c.map .ctBit) (effect s (.ctBit b)) := rfl
      _ = { s with ct := { s.ct with ldCode := s.ct.ldCode ++ [b] ++ c } } := ih _
      _ = _ := by rw [List.append_assoc]; rfl

/-- In a load the bits raise nothing as long as they fit. -/
theorem cleanRun_ctBits_iff {c : Bits} {s : State} (hl : s.ct.ldActive = true)
    (hfit : s.ct.ldCode.length ≤ s.params.lMax) :
    CleanRun (c.map .ctBit) s ↔ s.ct.ldCode.length + c.length ≤ s.params.lMax := by
  induction c generalizing s with
  | nil => exact iff_of_true trivial hfit
  | cons b c ih =>
    rw [List.map_cons, CleanRun, firstFault_ctBit_of_active hl, List.length_cons]
    by_cases hfull : s.ct.ldCode.length = s.params.lMax
    · rw [if_pos hfull]
      exact iff_of_false (by simp) (by omega)
    · have hlen : (effect s (.ctBit b)).ct.ldCode.length = s.ct.ldCode.length + 1 := List.length_append
      have hroom : (effect s (.ctBit b)).ct.ldCode.length ≤ (effect s (.ctBit b)).params.lMax := by
        rw [hlen]
        exact Nat.lt_of_le_of_ne hfit hfull
      rw [if_neg hfull, ih (s := effect s (.ctBit b)) hl hroom, hlen, Nat.add_assoc, Nat.add_comm 1]
      exact and_iff_right rfl

/-- What the table holds for a loaded code (R114). -/
def codeEntry (c : Bits) : CtEntry := { valid := true, len := BitVec.ofNat 8 c.length, code := c }

/-- What one `CT_ENTRY` does when it raises nothing: the entry is installed, and the staging registers hold it. -/
def installed (sym : Symbol) (c : Bits) (s : State) : State :=
  { s with ct :=
    { s.ct with
      entry := writeAt s.ct.entry sym (codeEntry c), n := s.ct.n + 1, ldActive := false, ldSym := sym, ldCode := c } }

theorem effects_ctEntry (sym : Symbol) (c : Bits) (s : State) : effects (ctEntry sym c) s = installed sym c s := by
  calc effects (ctEntry sym c) s
    _ = effects [.ctEnd] (effects (c.map .ctBit) (effect s (.ctBegin sym))) := effects_append _ _ s
    _ = installed sym c s := by rw [effects_ctBits]; rfl

/-- One `CT_ENTRY` raises nothing exactly when none of the causes of R190 holds on its way. -/
theorem cleanRun_ctEntry_iff {sym : Symbol} {c : Bits} {s : State} (hs : Legal s (.ctBegin sym)) :
    CleanRun (ctEntry sym c) s ↔
      (readAt s.ct.entry sym).valid = false ∧ c.length ≤ s.params.lMax ∧ c ≠ [] ∧ ¬ Collides s.ct c := by
  have hbegin : firstFault s (.ctBegin sym) = none ↔ (readAt s.ct.entry sym).valid = false := by
    rw [firstFault_ctBegin_of_legal hs]
    simp
  have hbits : CleanRun (c.map .ctBit) (effect s (.ctBegin sym)) ↔ c.length ≤ s.params.lMax := by
    rw [cleanRun_ctBits_iff rfl (Nat.zero_le _)]
    exact iff_of_eq (congrArg (· ≤ s.params.lMax) (Nat.zero_add c.length))
  have hend : CleanRun [.ctEnd] (effects (c.map .ctBit) (effect s (.ctBegin sym))) ↔ c ≠ [] ∧ ¬ Collides s.ct c := by
    have htest : firstFault (effects (c.map .ctBit) (effect s (.ctBegin sym))) .ctEnd =
        if c = [] then some .codeEmpty else if collides c s.ct = true then some .prefixCollision else none := by
      rw [effects_ctBits]
      exact firstFault_ctEnd_of_active rfl
    rw [CleanRun, htest, ← collides_iff]
    simp [CleanRun, ite_eq_iff]
  rw [ctEntry, cleanRun_append, CleanRun, effects, hbegin, hbits, hend, and_assoc]

/-! ### The table after some entries (R110) -/

/-- Entries that can be loaded together: distinct symbols, 1 to `L_MAX` bits, and no two codes that clash (R20, R115). -/
structure Loadable (P : Params) (es : List (Symbol × Bits)) : Prop where
  distinct : (es.map Prod.fst).Nodup
  fits : ∀ e ∈ es, 1 ≤ e.2.length ∧ e.2.length ≤ P.lMax
  clash_free : es.Pairwise fun a b => ¬ a.2 <+: b.2 ∧ ¬ b.2 <+: a.2

theorem Loadable.perm {P : Params} {es es' : List (Symbol × Bits)} (h : Loadable P es) (hp : es.Perm es') :
    Loadable P es' where
  distinct := (hp.map Prod.fst).nodup_iff.mp h.distinct
  fits e he := h.fits e (hp.mem_iff.mpr he)
  clash_free := hp.pairwise h.clash_free fun hab => hab.symm

theorem loadable_cons_iff {P : Params} {e : Symbol × Bits} {es : List (Symbol × Bits)} (h : Loadable P es) :
    Loadable P (e :: es) ↔ e.1 ∉ es.map Prod.fst ∧ e.2.length ≤ P.lMax ∧ e.2 ≠ [] ∧
      ¬ ∃ d ∈ es, d.2 <+: e.2 ∨ e.2 <+: d.2 := by
  constructor
  · intro ⟨hd, hf, hp⟩
    rw [List.map_cons, List.nodup_cons] at hd
    rw [List.pairwise_cons] at hp
    obtain ⟨hpos, hle⟩ := hf e List.mem_cons_self
    refine ⟨hd.1, hle, List.length_pos_iff.mp hpos, ?_⟩
    rintro ⟨d, hmem, hde | hed⟩
    · exact (hp.1 d hmem).2 hde
    · exact (hp.1 d hmem).1 hed
  · rintro ⟨hnew, hle, hne, hclash⟩
    exact
      { distinct := List.nodup_cons.mpr ⟨hnew, h.distinct⟩
        fits := List.forall_mem_cons.mpr ⟨⟨List.length_pos_iff.mpr hne, hle⟩, h.fits⟩
        clash_free := List.pairwise_cons.mpr
          ⟨fun d hd => ⟨fun hp => hclash ⟨d, hd, .inr hp⟩, fun hp => hclash ⟨d, hd, .inl hp⟩⟩, h.clash_free⟩ }

theorem Loadable.of_append {P : Params} {es es' : List (Symbol × Bits)} (h : Loadable P (es ++ es')) : Loadable P es' where
  distinct := by
    have := h.distinct
    rw [List.map_append] at this
    exact this.of_append_right
  fits e he := h.fits e (List.mem_append_right _ he)
  clash_free := (List.pairwise_append.mp h.clash_free).2.1

/-- `t` is `s` with exactly the entries `es` in its code table and no load in progress. -/
structure TableOf (s : State) (es : List (Symbol × Bits)) (t : State) : Prop where
  frame : { t with ct := s.ct } = s
  init : t.ct.init = true
  idle : t.ct.ldActive = false
  inv : CtInv s.params t.ct
  loaded : ∀ e ∈ es, readAt t.ct.entry e.1 = codeEntry e.2
  empty : ∀ r ∉ es.map Prod.fst, readAt t.ct.entry r = { readAt s.ct.entry r with valid := false }
  n_eq : t.ct.n.toNat = es.length

theorem tableOf_ctClr (s : State) : TableOf s [] (effect s .ctClr) where
  frame := rfl
  init := rfl
  idle := rfl
  inv := ctInv_of_invalid _ rfl (by simp [effect, invalidateAll])
  loaded := by simp
  empty r _ := readAt_mapTable _ _ r
  n_eq := rfl

theorem TableOf.perm {s t : State} {es es' : List (Symbol × Bits)} (h : TableOf s es t) (hp : es.Perm es') :
    TableOf s es' t :=
  { h with
    loaded := fun e he => h.loaded e (hp.mem_iff.mpr he)
    empty := fun r hr => h.empty r (mt (hp.map Prod.fst).mem_iff.mp hr)
    n_eq := h.n_eq.trans hp.length_eq }

/-- The entries and the state before the load determine the array. -/
theorem TableOf.entry_unique {s t t' : State} {es : List (Symbol × Bits)} (h : TableOf s es t) (h' : TableOf s es t') :
    t'.ct.entry = t.ct.entry := by
  apply array_ext
  intro r
  by_cases hr : r ∈ es.map Prod.fst
  · obtain ⟨e, he, rfl⟩ := List.mem_map.mp hr
    rw [h.loaded e he, h'.loaded e he]
  · rw [h.empty r hr, h'.empty r hr]

theorem codeEntry_bits {c : Bits} (h : c.length ≤ 255) : (codeEntry c).bits = c := by
  rw [CtEntry.bits, codeEntry, BitVec.toNat_ofNat, Nat.mod_eq_of_lt (by omega), List.take_length]

section
variable {s t : State} {es : List (Symbol × Bits)} (h : TableOf s es t)
include h

theorem TableOf.valid_iff (r : Symbol) : (readAt t.ct.entry r).valid = true ↔ r ∈ es.map Prod.fst := by
  by_cases hr : r ∈ es.map Prod.fst
  · obtain ⟨e, he, rfl⟩ := List.mem_map.mp hr
    rw [h.loaded e he]
    exact iff_of_true rfl hr
  · rw [h.empty r hr]
    exact iff_of_false Bool.false_ne_true hr

theorem TableOf.codeOf_iff (hP : s.params.wf = true) (hes : Loadable s.params es) (r : Symbol) (c : Bits) :
    codeOf t.ct r = some c ↔ (r, c) ∈ es := by
  obtain ⟨⟨-, hmax⟩, -⟩ := params_bounds hP
  have hcode : ∀ d, (r, d) ∈ es → codeOf t.ct r = some d := by
    intro d hd
    have hentry := h.loaded _ hd
    have hbits := codeEntry_bits ((hes.fits _ hd).2.trans hmax)
    exact codeOf_eq_some.mpr ⟨by rw [hentry]; rfl, by rw [hentry, hbits]⟩
  refine ⟨fun hc => ?_, hcode c⟩
  obtain ⟨⟨_, d⟩, hd, rfl⟩ := List.mem_map.mp ((h.valid_iff r).mp (codeOf_eq_some.mp hc).1)
  obtain rfl : d = c := Option.some.inj ((hcode d hd).symm.trans hc)
  exact hd

theorem TableOf.collides_iff (hP : s.params.wf = true) (hes : Loadable s.params es) (c : Bits) :
    Collides t.ct c ↔ ∃ d ∈ es, d.2 <+: c ∨ c <+: d.2 := by
  constructor
  · rintro ⟨r, hv, hclash⟩
    exact ⟨_, (h.codeOf_iff hP hes r _).mp (codeOf_eq_some.mpr ⟨hv, rfl⟩), hclash⟩
  · rintro ⟨d, hd, hclash⟩
    obtain ⟨hv, hbits⟩ := codeOf_eq_some.mp ((h.codeOf_iff hP hes d.1 d.2).mpr hd)
    exact ⟨d.1, hv, hbits ▸ hclash⟩

theorem TableOf.params_eq : t.params = s.params := (congrArg State.params h.frame :)

theorem TableOf.legal_ctBegin (hs : Legal s .ctClr) (sym : Symbol) : Legal t (.ctBegin sym) := by
  have henc : t.enc = s.enc := (congrArg State.enc h.frame :)
  have hdec : t.dec = s.dec := (congrArg State.dec h.frame :)
  exact ⟨h.init, h.idle, henc ▸ hs.1, hdec ▸ hs.2⟩

/-- One more entry raises nothing exactly when it can be loaded beside the others. -/
theorem TableOf.cleanRun_ctEntry_iff (hP : s.params.wf = true) (hs : Legal s .ctClr) (hes : Loadable s.params es)
    (e : Symbol × Bits) : CleanRun (ctEntry e.1 e.2) t ↔ Loadable s.params (e :: es) := by
  rw [Machine.cleanRun_ctEntry_iff (h.legal_ctBegin hs e.1), loadable_cons_iff hes, h.collides_iff hP hes,
    h.params_eq, ← h.valid_iff, Bool.not_eq_true]

theorem TableOf.after_ctEntry (hP : s.params.wf = true) (hes : Loadable s.params es) {e : Symbol × Bits}
    (he : Loadable s.params (e :: es)) : TableOf s (e :: es) (effects (ctEntry e.1 e.2) t) := by
  obtain ⟨hnew, hle, hne, hclash⟩ := (loadable_cons_iff hes).mp he
  have hv : (readAt t.ct.entry e.1).valid = false := by
    rw [← Bool.not_eq_true, h.valid_iff]
    exact hnew
  rw [effects_ctEntry]
  exact
    { frame := h.frame
      init := h.init
      idle := rfl
      inv := (installEntry_inv hP h.inv e.1 e.2 hv hne hle (mt (h.collides_iff hP hes e.2).mp hclash)
        false).of_entry_eq rfl rfl
      loaded := by
        refine List.forall_mem_cons.mpr ⟨readAt_writeAt_same _ _ _, fun d hd => ?_⟩
        have hne : d.1 ≠ e.1 := fun hde => hnew (hde ▸ List.mem_map_of_mem hd)
        exact (readAt_writeAt_of_ne _ _ hne).trans (h.loaded d hd)
      empty := by
        intro r hr
        rw [List.map_cons, List.mem_cons, not_or] at hr
        exact (readAt_writeAt_of_ne _ _ hr.1).trans (h.empty r hr.2)
      n_eq := by
        have hn := h.inv.n_le
        have hone : (1 : BitVec 9).toNat = 1 := rfl
        rw [installed, BitVec.toNat_add, List.length_cons, ← h.n_eq, hone]
        omega }

end

/-! ### A table load (R110, R116) -/

theorem TableOf.cleanRun_entries_iff {s t : State} {es l : List (Symbol × Bits)} (h : TableOf s es t)
    (hP : s.params.wf = true) (hs : Legal s .ctClr) (hes : Loadable s.params es) :
    CleanRun (l.flatMap fun e => ctEntry e.1 e.2) t ↔ Loadable s.params (l.reverse ++ es) := by
  induction l generalizing t es with
  | nil => exact iff_of_true trivial hes
  | cons e l ih =>
    rw [List.flatMap_cons, cleanRun_append, h.cleanRun_ctEntry_iff hP hs hes, List.reverse_cons, List.append_assoc,
      List.singleton_append]
    constructor
    · rintro ⟨he, hrest⟩
      exact (ih (h.after_ctEntry hP hes he) he).mp hrest
    · intro hall
      have he : Loadable s.params (e :: es) := hall.of_append
      exact ⟨he, (ih (h.after_ctEntry hP hes he) he).mpr hall⟩

theorem TableOf.after_entries {s t : State} {es l : List (Symbol × Bits)} (h : TableOf s es t) (hP : s.params.wf = true)
    (hes : Loadable s.params es) (hall : Loadable s.params (l.reverse ++ es)) :
    TableOf s (l.reverse ++ es) (effects (l.flatMap fun e => ctEntry e.1 e.2) t) := by
  induction l generalizing t es with
  | nil => exact h
  | cons e l ih =>
    rw [List.reverse_cons, List.append_assoc, List.singleton_append] at hall ⊢
    rw [List.flatMap_cons, effects_append]
    have he : Loadable s.params (e :: es) := hall.of_append
    exact ih (h.after_ctEntry hP hes he) he hall

theorem loadable_nil (P : Params) : Loadable P [] := ⟨List.nodup_nil, by simp, .nil⟩

/-- The order of the entries is no matter, so the reversed list of the induction can be turned round. -/
theorem cleanRun_tableLoad_iff {s : State} {l : List (Symbol × Bits)} (hP : s.params.wf = true) (hs : Legal s .ctClr) :
    CleanRun (tableLoad l) s ↔ Loadable s.params l := by
  rw [tableLoad, CleanRun, firstFault_ctClr_eq_none_iff,
    (tableOf_ctClr s).cleanRun_entries_iff hP hs (loadable_nil _), List.append_nil]
  exact ⟨fun h => h.2.perm l.reverse_perm, fun h => ⟨hs, h.perm l.reverse_perm.symm⟩⟩

theorem tableOf_tableLoad {s : State} {l : List (Symbol × Bits)} (hP : s.params.wf = true) (hl : Loadable s.params l) :
    TableOf s l (effects (tableLoad l) s) := by
  have hall : Loadable s.params (l.reverse ++ []) := by
    rw [List.append_nil]
    exact hl.perm l.reverse_perm.symm
  refine ((tableOf_ctClr s).after_entries hP (loadable_nil _) hall).perm ?_
  rw [List.append_nil]
  exact l.reverse_perm

/-- Settles O47: such entries are `Loadable`, so their load raises nothing and leaves their `TableOf`. -/
theorem tableLoadInstallsEntries : Obligations.TableLoadInstallsEntries := by
  intro s entries h hs hdistinct hfits hclash
  have hl : Loadable s.params entries := ⟨hdistinct, hfits, hclash⟩
  have ht := tableOf_tableLoad h.params hl
  exact ⟨_, execAll_of_clean ((cleanRun_tableLoad_iff h.params hs).mpr hl), ht.codeOf_iff h.params hl, ht.n_eq,
    ht.init, ht.idle, ht.frame⟩

/-- Settles O48: a silent load raised nothing, so its entries are `Loadable`, in any order; both loads leave a `TableOf` the
same entries. -/
theorem loadOrderIsIrrelevant : Obligations.LoadOrderIsIrrelevant := by
  intro s t l l' h hs hperm hrun hsilent
  obtain ⟨hclean, rfl⟩ := clean_of_silent hrun hsilent
  have hl := (cleanRun_tableLoad_iff h.params hs).mp hclean
  have hl' := hl.perm hperm
  have ht := (tableOf_tableLoad h.params hl).perm hperm
  have ht' := tableOf_tableLoad h.params hl'
  have houtQ := congrArg (fun u : State => u.port.outQ) ht'.frame
  have hn : (effects (tableLoad l') s).ct.n.toNat = (effects (tableLoad l) s).ct.n.toNat := ht'.n_eq.trans ht.n_eq.symm
  exact ⟨_, execAll_of_clean ((cleanRun_tableLoad_iff h.params hs).mpr hl'), houtQ, ht.entry_unique ht',
    BitVec.eq_of_toNat_eq hn⟩

end Sys2Proof.Machine
end

section
/-! SUPPORT. The encoder and packer (`43_encoder_packer.md`): the rules of ENC_START, ENC_PUSH and ENC_FLUSH (O23, O24, O25). -/

namespace Sys2Proof.Machine

/-! ### The tests of the encoder's commands -/

theorem firstFault_encStart_of_legal {s : State} (h : Legal s .encStart) : firstFault s .encStart = none := if_pos h

theorem firstFault_encPush_of_active {s : State} (h : s.enc.state = .active) (sym : Symbol) :
    firstFault s (.encPush sym) = if (readAt s.ct.entry sym).valid = false then some .unknownSymbol
      else if 2 ^ s.params.wLen - 1 < s.pack.nbits.toNat + (readAt s.ct.entry sym).len.toNat then some .lenOvf
      else none :=
  if_neg (session_ne_idle.mpr h)

theorem firstFault_encPush_of_fits {s : State} {sym : Symbol} (h : s.enc.state = .active)
    (hv : (readAt s.ct.entry sym).valid = true)
    (hfit : s.pack.nbits.toNat + (readAt s.ct.entry sym).len.toNat ≤ 2 ^ s.params.wLen - 1) :
    firstFault s (.encPush sym) = none := by
  rw [firstFault_encPush_of_active h, if_neg (ne_false_of_eq_true hv), if_neg (Nat.not_lt.mpr hfit)]

theorem firstFault_encFlush_of_active {s : State} (h : s.enc.state = .active) : firstFault s .encFlush = none :=
  if_neg (session_ne_idle.mpr h)

theorem exec_of_not_legal {i : Instr} {s : State} (h : ¬ Legal s i) : exec i s = .next (raised .seq s) :=
  exec_of_fault (firstFault_of_not_legal h)

/-! ### What the encoder's commands leave -/

/-- The pending bits of PACK are the first `PACK.fill` of `PACK.acc` (R23). -/
theorem length_pending (p : Pack) : ((byteBits p.acc).take p.fill.toNat).length = p.fill.toNat := by
  have := p.fill.isLt
  rw [List.length_take, byteBits_length]
  omega

/-- Fewer than 8 pending bits hold no whole byte, so the bytes a code emits are the whole bytes of both. -/
theorem packCode_of_packInv {s : State} (h : PackInv s.pack) {code β : Bits}
    (hβ : β = (byteBits s.pack.acc).take s.pack.fill.toNat ++ code) :
    packCode code s = withOutput (byteWords ((payload β).take (β.length / 8)))
      { s with pack :=
        { acc := payloadByte β (β.length / 8)
          fill := BitVec.ofNat 3 (β.length % 8)
          nbits := s.pack.nbits + BitVec.ofNat 32 code.length } } := by
  obtain ⟨out, hpacked, hwhole⟩ := packCode_eq code s _ (holds_pending h)
  have hnone : wholeBytes ((byteBits s.pack.acc).take s.pack.fill.toNat) = [] := by
    rw [wholeBytes, length_pending, Nat.div_eq_of_lt s.pack.fill.isLt]
    rfl
  rw [hnone, List.nil_append, ← hβ] at hwhole
  rw [hpacked, ← hβ, payload_take_whole, hwhole]

/-- At most 7 pending bits and 255 of a code (R47). -/
theorem pending_append_bytes_le (p : Pack) (e : CtEntry) :
    ((byteBits p.acc).take p.fill.toNat ++ e.bits).length / 8 ≤ 32 := by
  have hfill := p.fill.isLt
  have hcode := length_bits_le e
  rw [List.length_append, length_pending]
  omega

theorem effect_encFlush_of_pending {s : State} (h : s.pack.fill ≠ 0) : effect s .encFlush =
    withOutput [outWord .byte (s.pack.acc.setWidth 32), outWord .len s.pack.nbits]
      { s with pack := { acc := 0, fill := 0, nbits := s.pack.nbits }, enc := { state := .idle } } := by
  rw [effect, flushWords, if_neg h, if_neg h]
  rfl

theorem effect_encFlush_of_aligned {s : State} (h : s.pack.fill = 0) : effect s .encFlush =
    withOutput [outWord .len s.pack.nbits] { s with enc := { state := .idle } } := by
  rw [effect, flushWords, if_pos h, if_pos h, ← h]
  rfl

/-- With no session the two other commands of the encoder raise `SEQ`, and no other unit's command touches ENC or PACK. -/
theorem exec_enc_of_idle {i : Instr} {s t : State} (hs : s.enc.state = .idle) (hi : i ≠ .encStart)
    (h : exec i s = .next t) : t.enc = s.enc ∧ t.pack = s.pack := by
  cases i with
  | encStart => exact absurd rfl hi
  | encPush | encFlush =>
    cases h.symm.trans (exec_of_not_legal (session_ne_active.mpr hs))
    exact ⟨rfl, rfl⟩
  | _ => exact (exec_keepsToUnit h).enc (by simp [unitOf])

/-! ### The rules of the three commands (R126, R127, R129) -/

/-- Settles O23: ENC_START tests its row of the legality table only, and its effect writes PACK and ENC. -/
theorem encStartOpensASession : Obligations.EncStartOpensASession := by
  refine ⟨fun s => ⟨?seq, ?opened⟩, rfl, fun _ _ => step_illegal_of_formatN (i := .encStart) (by simp [decode])⟩
  case seq =>
    intro hs
    refine exec_of_not_legal ?_
    rintro ⟨henc, hinit, hl⟩
    simp [henc, hinit, hl] at hs
  case opened => exact fun henc hinit hl => exec_of_clean (firstFault_encStart_of_legal ⟨henc, hinit, hl⟩)

/-- Settles O24: the three tests of ENC_PUSH in order, both data faults ending the session (R205); the effect is `packCode`,
whose output and PACK `packCode_of_packInv` gives. -/
theorem encPushPacksOneCode : Obligations.EncPushPacksOneCode := by
  refine ⟨fun s sym => ⟨?seq, ?unknown, ?overflow, ?packed⟩, fun sym => cmdWord_sym_toNat 0x31#8 sym,
    fun _ _ => step_illegal_of_formatS (mk := .encPush) (by simp [decode])⟩
  case seq => exact fun henc => exec_of_not_legal (session_ne_active.mpr henc)
  case unknown =>
    intro henc hv
    exact exec_of_fault (by rw [firstFault_encPush_of_active henc, if_pos hv])
  case overflow =>
    intro henc hv hovf
    exact exec_of_fault (by rw [firstFault_encPush_of_active henc, if_neg (ne_false_of_eq_true hv), if_pos hovf])
  case packed =>
    intro β henc hv hfit hp hβ
    have hbytes : β.length / 8 ≤ 32 := hβ ▸ pending_append_bytes_le s.pack _
    refine ⟨hbytes, ?_⟩
    rw [exec_of_clean (firstFault_encPush_of_fits henc hv hfit), effect, packCode_of_packInv hp hβ]

/-- Settles O25: the two cases of the flush's effect, and `exec_enc_of_idle` for the clause about every command. -/
theorem encFlushReportsTheLength : Obligations.EncFlushReportsTheLength := by
  refine ⟨fun s => ⟨?seq, ?pending, ?aligned⟩, rfl, fun _ _ _ hs hi h => exec_enc_of_idle hs hi h,
    fun _ _ => step_illegal_of_formatN (i := .encFlush) (by simp [decode])⟩
  case seq => exact fun henc => exec_of_not_legal (session_ne_active.mpr henc)
  case pending =>
    intro henc hfill
    rw [exec_of_clean (firstFault_encFlush_of_active henc), effect_encFlush_of_pending hfill]
  case aligned =>
    intro henc hfill
    rw [exec_of_clean (firstFault_encFlush_of_active henc), effect_encFlush_of_aligned hfill]

end Sys2Proof.Machine
end

section
/-! SUPPORT. Encode sessions (`43_encoder_packer.md`): the length of a text's stream (O46), the session law (O49), and the empty
sessions of both sides (O54). -/

namespace Sys2Proof.Machine

/-! ### The length of a stream (R74, R133) -/

/-- A text's stream is as long as its codes together. -/
theorem length_streamOf {P : Params} {ct : CT} (h : CtInv P ct) {text : List Symbol} {β : Bits}
    (hβ : streamOf ct text = some β) : β.length = (text.map fun x => (readAt ct.entry x).len.toNat).sum := by
  induction text generalizing β with
  | nil =>
    cases hβ
    rfl
  | cons x text ih =>
    obtain ⟨c, δ, hc, hδ, rfl⟩ := streamOf_cons.mp hβ
    obtain ⟨hv, rfl⟩ := codeOf_eq_some.mp hc
    rw [List.length_append, length_bits h hv, ih hδ, List.map_cons, List.sum_cons]

theorem allSymbols_nodup : allSymbols.Nodup := by
  refine List.nodup_range.map_on fun a ha b hb hab => ?_
  have ha' := List.mem_range.mp ha
  have hb' := List.mem_range.mp hb
  have := congrArg BitVec.toNat hab
  simpa [Nat.mod_eq_of_lt ha', Nat.mod_eq_of_lt hb'] using this

theorem mem_allSymbols (x : Symbol) : x ∈ allSymbols :=
  List.mem_map.mpr ⟨x.toNat, List.mem_range.mpr x.isLt, by simp⟩

/-- A sum over a text, taken symbol by symbol. -/
theorem sum_map_eq_sum_count (text : List Symbol) (f : Symbol → Nat) :
    (text.map f).sum = (allSymbols.map fun r => text.count r * f r).sum := by
  have hsub : text.toFinset ⊆ allSymbols.toFinset := fun x _ => List.mem_toFinset.mpr (mem_allSymbols x)
  have habsent : ∀ r ∈ allSymbols.toFinset, r ∉ text.toFinset → text.count r * f r = 0 := by
    intro r _ hr
    rw [List.count_eq_zero.mpr (mt List.mem_toFinset.mpr hr), Nat.zero_mul]
  calc (text.map f).sum
    _ = ∑ r ∈ text.toFinset, text.count r * f r := Finset.sum_list_map_count text f
    _ = ∑ r ∈ allSymbols.toFinset, text.count r * f r := Finset.sum_subset hsub habsent
    _ = (allSymbols.map fun r => text.count r * f r).sum := List.sum_toFinset _ allSymbols_nodup

/-- Settles O46: the run leaves CT alone and FA with the text's counts (O45); the stream is as long as its codes together. -/
theorem lengthFromHistogram : Obligations.LengthFromHistogram := by
  intro s t text β h hinit hfit hrun hβ
  obtain ⟨u, hu, hcount, -, -, -, hframe⟩ := histogramOfText s text h.params hfit
  obtain rfl : u = t := by
    rw [hrun] at hu
    cases hu
    rfl
  have hct : u.ct = s.ct := (congrArg State.ct hframe :)
  have hcode : CtInv s.params u.ct := hct ▸ h.ct hinit
  simp only [hcount]
  rw [length_streamOf hcode hβ, sum_map_eq_sum_count]

/-! ### The pushes of a text (R127, R132) -/

theorem packCode_append (β γ : Bits) (s : State) : packCode (β ++ γ) s = packCode γ (packCode β s) :=
  List.foldl_append

@[simp] theorem packCode_ct (code : Bits) (s : State) : (packCode code s).ct = s.ct :=
  (congrArg State.ct (packCode_frame code s) :)

@[simp] theorem packCode_enc (code : Bits) (s : State) : (packCode code s).enc = s.enc :=
  (congrArg State.enc (packCode_frame code s) :)

@[simp] theorem packCode_params (code : Bits) (s : State) : (packCode code s).params = s.params :=
  (congrArg State.params (packCode_frame code s) :)

/-- The push of a symbol whose code fits absorbs the code and counts its bits exactly (R127, R131). -/
theorem Inv.exec_encPush {s : State} (h : Inv s) (henc : s.enc.state = .active) {x : Symbol} {c : Bits}
    (hc : codeOf s.ct x = some c) (hfit : s.pack.nbits.toNat + c.length ≤ 2 ^ s.params.wLen - 1) :
    exec (.encPush x) s = .next (packCode c s) ∧ Inv (packCode c s) ∧
      (packCode c s).pack.nbits.toNat = s.pack.nbits.toNat + c.length := by
  obtain ⟨hv, rfl⟩ := codeOf_eq_some.mp hc
  rw [length_bits (h.ct (h.enc_table henc)) hv] at hfit
  have hlt := h.code_fits henc hv (Nat.not_lt.mpr hfit)
  exact ⟨exec_of_clean (firstFault_encPush_of_fits henc hv hfit), h.after_encPush henc hlt,
    by rw [packCode_nbits (h.pack henc), nbits_add_code h.params hlt]⟩

/-- The pushes of a text whose stream fits absorb its stream, and nothing else. -/
theorem Inv.execAll_encText {s : State} (h : Inv s) (henc : s.enc.state = .active) {text : List Symbol} {β : Bits}
    (hβ : streamOf s.ct text = some β) (hfit : s.pack.nbits.toNat + β.length ≤ 2 ^ s.params.wLen - 1) :
    execAll (encText text) s = .next (packCode β s) := by
  induction text generalizing s β with
  | nil =>
    cases hβ
    rfl
  | cons x text ih =>
    obtain ⟨c, δ, hc, hδ, rfl⟩ := streamOf_cons.mp hβ
    rw [List.length_append] at hfit
    obtain ⟨hpush, hinv, hnbits⟩ := h.exec_encPush henc hc (by omega)
    have hrest := ih hinv (β := δ) (by rw [packCode_enc, henc]) (by rw [packCode_ct, hδ])
      (by rw [packCode_params, hnbits]; omega)
    calc execAll (encText (x :: text)) s
      _ = execAll (encText text) (packCode c s) := execAll_cons hpush
      _ = .next (packCode δ (packCode c s)) := hrest
      _ = .next (packCode (c ++ δ) s) := by rw [packCode_append]

/-! ### A whole session (R125, R132) -/

/-- The state after the pushes of a session: the whole bytes of the stream are out, and PACK holds the rest. -/
def pushed (β : Bits) (s : State) : State :=
  withOutput (byteWords (wholeBytes β))
    { s with
      pack :=
        { acc := payloadByte β (β.length / 8)
          fill := BitVec.ofNat 3 (β.length % 8)
          nbits := BitVec.ofNat 32 β.length }
      enc := { state := .active } }

/-- From an empty PACK the bits absorbed are the whole stream. -/
theorem packCode_encStart (β : Bits) (s : State) : packCode β (effect s .encStart) = pushed β s := by
  have hempty : Holds (effect s .encStart).pack [] := ⟨rfl, rfl⟩
  obtain ⟨out, hpacked, hwhole⟩ := packCode_eq β (effect s .encStart) [] hempty
  rw [List.nil_append] at hpacked hwhole
  obtain rfl : wholeBytes β = out := hwhole
  have hnbits : (effect s .encStart).pack.nbits + BitVec.ofNat 32 β.length = BitVec.ofNat 32 β.length := BitVec.zero_add _
  rw [hpacked, hnbits]
  rfl

theorem Inv.execAll_encStart_encText {s : State} (h : Inv s) (hs : Legal s .encStart) {text : List Symbol} {β : Bits}
    (hβ : streamOf s.ct text = some β) (hfit : β.length ≤ 2 ^ s.params.wLen - 1) :
    execAll (.encStart :: encText text) s = .next (pushed β s) := by
  have ⟨_, hinit, hl⟩ := hs
  have hzero : (effect s .encStart).pack.nbits.toNat = 0 := rfl
  calc execAll (.encStart :: encText text) s
    _ = execAll (encText text) (effect s .encStart) := execAll_cons (exec_of_clean (firstFault_encStart_of_legal hs))
    _ = .next (packCode β (effect s .encStart)) :=
      (h.after_encStart hinit hl).execAll_encText rfl hβ (by rw [hzero, Nat.zero_add]; exact hfit)
    _ = .next (pushed β s) := by rw [packCode_encStart]

/-- The last byte of a payload is the padded one, if the stream does not end on a byte (R46, R74). -/
theorem payload_eq_wholeBytes (β : Bits) : payload β =
    wholeBytes β ++ if β.length % 8 = 0 then [] else [payloadByte β (β.length / 8)] := by
  unfold payload wholeBytes
  split
  · rw [show (β.length + 7) / 8 = β.length / 8 by omega, List.append_nil]
  · rw [show (β.length + 7) / 8 = β.length / 8 + 1 by omega, List.range_succ, List.map_append]
    rfl

/-- Past the stream's end a payload byte is zero. -/
theorem payloadByte_of_aligned {β : Bits} (h : β.length % 8 = 0) : payloadByte β (β.length / 8) = 0 := by
  apply byte_ext
  intro k hk
  rw [payloadByte_bit _ _ _ hk, List.getD_eq_getElem?_getD, List.getElem?_eq_none (by omega)]
  exact BitVec.getLsbD_zero.symm

theorem pushed_fill_eq_zero_iff (β : Bits) (s : State) : (pushed β s).pack.fill = 0 ↔ β.length % 8 = 0 := by
  rw [← BitVec.toNat_inj]
  simp [pushed, withOutput]

/-- The flush completes the payload and leaves the state as before the session, except the length in PACK (R129, R132). -/
theorem effect_encFlush_pushed (β : Bits) {s : State} (hs : s.enc.state = .idle) : effect (pushed β s) .encFlush =
    withOutput (byteWords (payload β) ++ [outWord .len (BitVec.ofNat 32 β.length)])
      { s with pack := { acc := 0, fill := 0, nbits := BitVec.ofNat 32 β.length } } := by
  have henc : s.enc = { state := .idle } := congrArg Enc.mk hs
  rw [payload_eq_wholeBytes]
  by_cases h : β.length % 8 = 0
  · rw [effect_encFlush_of_aligned ((pushed_fill_eq_zero_iff β s).mpr h), if_pos h, List.append_nil]
    simp [pushed, withOutput, payloadByte_of_aligned h, h, henc]
  · rw [effect_encFlush_of_pending (mt (pushed_fill_eq_zero_iff β s).mp h), if_neg h]
    simp [pushed, withOutput, byteWords, henc]

/-- Settles O49: the pushes absorb the stream into an empty PACK, and the flush pads its last byte. -/
theorem encodeSessionLaw : Obligations.EncodeSessionLaw := by
  intro s text β h hs hβ hfit
  have ⟨henc, hinit, _⟩ := hs
  have hpushes := h.execAll_encStart_encText hs hβ hfit
  refine ⟨length_streamOf (h.ct hinit) hβ, ⟨_, hpushes, by rw [payload_take_whole]; rfl⟩, ?_⟩
  calc execAll (encodeSession text) s
    _ = execAll [.encFlush] (pushed β s) := execAll_append hpushes
    _ = .next (effect (pushed β s) .encFlush) := execAll_cons (exec_of_clean (firstFault_encFlush_of_active rfl))
    _ = .next _ := by rw [effect_encFlush_pushed β henc]

/-! ### Empty sessions (R134, R150) -/

/-- Once no bit is due a byte does nothing (R143, R149). -/
theorem deliverByte_of_remain_zero {s : State} (h : s.unpack.remain = 0) (B : BitVec 8) : deliverByte B s = s := by
  simp [deliverByte, bitsTaken, h]

theorem firstFault_decPush_of_active {s : State} (h : s.dec.state = .active) (B : BitVec 8) :
    firstFault s (.decPush B) = none := if_neg (session_ne_idle.mpr h)

theorem execAll_decBytes_of_remain_zero {s : State} (hdec : s.dec.state = .active) (h : s.unpack.remain = 0)
    (bytes : List (BitVec 8)) : execAll (decBytes bytes) s = .next s := by
  induction bytes with
  | nil => rfl
  | cons B bytes ih =>
    have hpush : exec (.decPush B) s = .next s := by
      rw [exec_of_clean (firstFault_decPush_of_active hdec B), effect, deliverByte_of_remain_zero h]
    exact (execAll_cons hpush).trans ih

/-- Settles O54: ENC_FLUSH finds an empty PACK; in a decode session of length zero no byte does anything, and DEC_END finds
the decoder at the root with no bit due. -/
theorem emptySessions : Obligations.EmptySessions := by
  refine fun s bytes => ⟨fun hs => ?encode, fun hs => ?decode⟩
  case encode =>
    have hpushed : effect s .encStart = pushed [] s := packCode_encStart [] s
    calc execAll [.encStart, .encFlush] s
      _ = execAll [.encFlush] (pushed [] s) :=
        execAll_cons (hpushed ▸ exec_of_clean (firstFault_encStart_of_legal hs))
      _ = .next (effect (pushed [] s) .encFlush) := execAll_cons (exec_of_clean (firstFault_encFlush_of_active rfl))
      _ = .next _ := by rw [effect_encFlush_pushed [] hs.1]; rfl
  case decode =>
    have hstart : exec (.decStart 0) s = .next (effect s (.decStart 0)) := exec_of_clean (if_pos hs)
    have hbytes := execAll_decBytes_of_remain_zero (s := effect s (.decStart 0)) rfl rfl bytes
    have hclean : firstFault (effect s (.decStart 0)) .decEnd = none := by simp [firstFault, effect]
    calc execAll (decodeSession 0 bytes) s
      _ = execAll (decBytes bytes ++ [Instr.decEnd]) (effect s (.decStart 0)) := execAll_cons hstart
      _ = execAll [.decEnd] (effect s (.decStart 0)) := execAll_append hbytes
      _ = .next (effect (effect s (.decStart 0)) .decEnd) := execAll_cons (exec_of_clean hclean)

end Sys2Proof.Machine
end

section
/-! SUPPORT. The unpacker and decoder (`44_unpacker_decoder.md`): `DEC_step` case by case (O28), and the rules of DEC_START,
DEC_PUSH and DEC_END (O26, O27, O53, O29). -/

namespace Sys2Proof.Machine

/-! ### One bit (R144) -/

theorem decStep_of_dead {d : Dec} (h : d.dead = true) (lMax : Nat) (ct : CT) (b : Bool) : decStep lMax ct d b = (none, d) :=
  if_pos h

theorem decStep_of_match {ct : CT} {d : Dec} {b : Bool} {s : Symbol} (hd : d.dead = false)
    (hm : matchSym ct (d.acc ++ [b]) = some s) (lMax : Nat) : decStep lMax ct d b = (some s, { d with acc := [] }) := by
  simp [decStep, hd, hm]

theorem decStep_of_no_match {ct : CT} {d : Dec} {b : Bool} (hd : d.dead = false)
    (hm : matchSym ct (d.acc ++ [b]) = none) (lMax : Nat) : decStep lMax ct d b =
      (none, { d with acc := d.acc ++ [b], dead := decide (d.acc.length + 1 = lMax) }) := by
  simp [decStep, hd, hm]

/-- Settles O28: the three equations of `decStep`; in a table that meets R20 the match of a code is its own symbol. -/
theorem decStepTakesOneBit : Obligations.DecStepTakesOneBit := by
  refine fun P ct d b hct => ⟨fun hd => decStep_of_dead hd _ ct b, ?symbol, ?waiting⟩
  case symbol =>
    intro s hd hv hbits
    exact decStep_of_match hd (hbits ▸ matchSym_eq_of_code hct hv) _
  case waiting => exact fun hd hnone => decStep_of_no_match hd (matchSym_none.mpr hnone) _

/-! ### The bits of one byte (R143) -/

/-- The first bits of a byte, determined one by one. -/
theorem byteBits_take_eq {B : BitVec 8} {k : Nat} {bits : Bits} (hk : k ≤ 8) (hlen : bits.length = k)
    (hbits : ∀ j < k, bits[j]? = some (B.getLsbD (7 - j))) : (byteBits B).take k = bits := by
  apply List.ext_getElem?
  intro j
  by_cases hj : j < k
  · rw [List.getElem?_take_of_lt hj, byteBits_getElem? B j (by omega), hbits j hj]
  · rw [List.getElem?_take_eq_none (by omega), List.getElem?_eq_none (by omega)]

/-- A byte is read through its delivered bits only (R149). -/
theorem deliverByte_congr {s : State} {B B' : BitVec 8}
    (h : ∀ j < bitsTaken s, B.getLsbD (7 - j) = B'.getLsbD (7 - j)) : deliverByte B s = deliverByte B' s := by
  have hk : bitsTaken s ≤ 8 := Nat.min_le_left _ _
  have hsame : (byteBits B).take (bitsTaken s) = (byteBits B').take (bitsTaken s) := by
    refine byteBits_take_eq hk (by simpa using hk) fun j hj => ?_
    rw [List.getElem?_take_of_lt hj, byteBits_getElem? B' j (by omega), h j hj]
  rw [deliverByte, deliverByte, hsame]

/-! ### The rules of the three commands (R141, R142, R145, R149) -/

theorem firstFault_decStart_of_legal {s : State} {n : Word} (h : Legal s (.decStart n)) :
    firstFault s (.decStart n) = none := if_pos h

theorem firstFault_decEnd_of_active {s : State} (h : s.dec.state = .active) : firstFault s .decEnd =
    if s.unpack.remain ≠ 0 then some .payloadShort
    else if s.dec.dead = true ∨ s.dec.acc ≠ [] then some .incompleteCode else none :=
  if_neg (session_ne_idle.mpr h)

theorem firstFault_decEnd_of_root {s : State} (h : s.dec.state = .active) (hremain : s.unpack.remain = 0)
    (hdead : s.dec.dead = false) (hacc : s.dec.acc = []) : firstFault s .decEnd = none := by
  simp [firstFault_decEnd_of_active h, hremain, hdead, hacc]

theorem exec_decPush_of_active {s : State} (h : s.dec.state = .active) (B : BitVec 8) :
    exec (.decPush B) s = .next (deliverByte B s) :=
  exec_of_clean (firstFault_decPush_of_active h B)

/-- With no session the two other commands of the decoder raise `SEQ`, and no other unit's command touches UNPACK or DEC. -/
theorem exec_dec_of_idle {i : Instr} {s t : State} (hs : s.dec.state = .idle) (hi : ∀ n, i ≠ .decStart n)
    (h : exec i s = .next t) : t.dec = s.dec ∧ t.unpack = s.unpack := by
  cases i with
  | decStart n => exact absurd rfl (hi n)
  | decPush | decEnd =>
    cases h.symm.trans (exec_of_not_legal (session_ne_active.mpr hs))
    exact ⟨rfl, rfl⟩
  | _ => exact ((exec_keepsToUnit h).dec (by simp [unitOf])).symm

/-- Settles O26: DEC_START tests its row of the legality table only, and its effect writes UNPACK and DEC; at `W_LEN = 32` every
operand is well-formed. -/
theorem decStartOpensASession : Obligations.DecStartOpensASession := by
  refine ⟨fun s n => ⟨?seq, ?opened⟩, fun n => ⟨cmdWord_toNat 0x40#8 n, decode_encode (i := .decStart n) ?wf⟩⟩
  case seq =>
    intro hs
    refine exec_of_not_legal ?_
    rintro ⟨hdec, hinit, hl⟩
    simp [hdec, hinit, hl] at hs
  case opened => exact fun hdec hinit hl => exec_of_clean (firstFault_decStart_of_legal ⟨hdec, hinit, hl⟩)
  case wf => exact decide_eq_true n.isLt

/-- Settles O27: the given bits are the first ones of the byte, and `deliverByte_eq` says what they do; one symbol per bit at
most. -/
theorem decPushDeliversBits : Obligations.DecPushDeliversBits := by
  refine ⟨fun s B k bits => ⟨?seq, ?delivered⟩, fun B => cmdWord_sym_toNat 0x41#8 B,
    fun _ _ => step_illegal_of_formatS (mk := .decPush) (by simp [decode])⟩
  case seq => exact fun hdec => exec_of_not_legal (session_ne_active.mpr hdec)
  case delivered =>
    intro hdec hk hlen hbits
    have hle : k ≤ 8 := hk ▸ Nat.min_le_left _ _
    have htaken : bitsTaken s = k := hk.symm
    refine ⟨(decodeSteps_length_le _ _ _ bits).trans (hlen ▸ hle), ?_⟩
    rw [exec_decPush_of_active hdec, deliverByte_eq, htaken, byteBits_take_eq hle hlen hbits]

/-- Settles O53: the meaning of DEC_PUSH depends on the byte through `deliverByte` only. -/
theorem unpackIgnoresTheRest : Obligations.UnpackIgnoresTheRest := by
  refine fun s B B' => ⟨?padding, ?extra⟩
  case padding =>
    intro h
    have hsame : deliverByte B s = deliverByte B' s := deliverByte_congr h
    exact congrArg (fun t => require (s.dec.state = .active) .seq s (.next t)) hsame
  case extra =>
    intro hdec hremain
    rw [exec_decPush_of_active hdec, deliverByte_of_remain_zero hremain]

/-- Settles O29: the tests of DEC_END in order, both data faults ending the session (R205), and `exec_dec_of_idle` for the
clause about every command. -/
theorem decEndGivesTheVerdict : Obligations.DecEndGivesTheVerdict := by
  refine ⟨fun s => ⟨?seq, ?short, ?incomplete, ?done⟩, rfl, fun _ _ _ hs hi h => exec_dec_of_idle hs hi h,
    fun _ _ => step_illegal_of_formatN (i := .decEnd) (by simp [decode])⟩
  case seq => exact fun hdec => exec_of_not_legal (session_ne_active.mpr hdec)
  case short =>
    intro hdec hremain
    exact exec_of_fault (by rw [firstFault_decEnd_of_active hdec, if_pos hremain])
  case incomplete =>
    intro hdec hremain hleft
    exact exec_of_fault (by rw [firstFault_decEnd_of_active hdec, if_neg (not_not_intro hremain), if_pos hleft])
  case done => exact fun hdec hremain hdead hacc => exec_of_clean (firstFault_decEnd_of_root hdec hremain hdead hacc)

end Sys2Proof.Machine
end

section
/-! SUPPORT. Decoding a whole stream (`44_unpacker_decoder.md`): DEC against D0's unbounded loop (O51) and against the walk
of the code tree (O52), and a decode session of the stream of a text (O50). -/

namespace Sys2Proof.Machine

/-! ### One bit of a stream (R144, R147) -/

theorem decodeSteps_cons (lMax : Nat) (ct : CT) (d : Dec) (b : Bool) (β : Bits) : decodeSteps lMax ct d (b :: β) =
    ((decStep lMax ct d b).1.toList ++ (decodeSteps lMax ct (decStep lMax ct d b).2 β).1,
      (decodeSteps lMax ct (decStep lMax ct d b).2 β).2) := by
  rw [decodeSteps]
  rcases decStep lMax ct d b with ⟨_ | s, d1⟩ <;> rfl

theorem decodeLoop_cons_of_match {ct : CT} {acc : Bits} {b : Bool} {s : Symbol} (h : matchSym ct (acc ++ [b]) = some s)
    (β : Bits) : decodeLoop ct acc (b :: β) = (s :: (decodeLoop ct [] β).1, (decodeLoop ct [] β).2) := by
  rw [decodeLoop, h]

theorem decodeLoop_cons_of_no_match {ct : CT} {acc : Bits} {b : Bool} (h : matchSym ct (acc ++ [b]) = none) (β : Bits) :
    decodeLoop ct acc (b :: β) = decodeLoop ct (acc ++ [b]) β := by
  rw [decodeLoop, h]

/-! ### D0's unbounded accumulator (R147) -/

/-- No code is longer than `L_MAX`. -/
theorem matchSym_of_too_long {P : Params} {ct : CT} (h : CtInv P ct) {acc : Bits} (hlen : P.lMax < acc.length) :
    matchSym ct acc = none := by
  rw [matchSym_none]
  rintro s hv rfl
  rw [length_bits h hv] at hlen
  exact absurd (h.len_le s hv) (Nat.not_le.mpr hlen)

/-- An accumulator of `L_MAX` bits that matched nothing only grows. -/
theorem decodeLoop_of_full {P : Params} {ct : CT} (h : CtInv P ct) {acc : Bits} (hlen : P.lMax ≤ acc.length) (β : Bits) :
    decodeLoop ct acc β = ([], acc ++ β) := by
  induction β generalizing acc with
  | nil => rw [List.append_nil]; rfl
  | cons b β ih =>
    have hlong : P.lMax < (acc ++ [b]).length := by
      rw [List.length_append, List.length_singleton]
      omega
    rw [decodeLoop_cons_of_no_match (matchSym_of_too_long h hlong), ih hlong.le, List.append_assoc, List.singleton_append]

/-- From the same accumulator, not yet full: the same symbols, and bits left over in both or in neither. -/
theorem decodeSteps_eq_decodeLoop {P : Params} {ct : CT} (hP : P.wf = true) (h : CtInv P ct) (x : Session) (β : Bits)
    {acc : Bits} (hlen : acc.length < P.lMax) :
    (decodeSteps P.lMax ct { state := x, acc := acc, dead := false } β).1 = (decodeLoop ct acc β).1 ∧
    ((decodeSteps P.lMax ct { state := x, acc := acc, dead := false } β).2.dead = true ∨
        (decodeSteps P.lMax ct { state := x, acc := acc, dead := false } β).2.acc ≠ [] ↔
      (decodeLoop ct acc β).2 ≠ []) := by
  induction β generalizing acc with
  | nil => simp [decodeSteps, decodeLoop]
  | cons b β ih =>
    rw [decodeSteps_cons]
    cases hm : matchSym ct (acc ++ [b]) with
    | some s =>
      obtain ⟨⟨hpos, -⟩, -⟩ := params_bounds hP
      obtain ⟨hsyms, hleft⟩ := ih (acc := []) hpos
      rw [decStep_of_match rfl hm, decodeLoop_cons_of_match hm]
      exact ⟨congrArg (s :: ·) hsyms, hleft⟩
    | none =>
      rw [decStep_of_no_match rfl hm, decodeLoop_cons_of_no_match hm]
      have hsnoc : (acc ++ [b]).length = acc.length + 1 := List.length_append
      by_cases hfull : acc.length + 1 = P.lMax
      · have hdead := decodeSteps_dead P.lMax ct { state := x, acc := acc ++ [b], dead := true } rfl β
        rw [decide_eq_true hfull, hdead, decodeLoop_of_full h (by omega)]
        simp
      · rw [decide_eq_false hfull]
        exact ih (acc := acc ++ [b]) (by omega)

/-- Settles O51: `decodeSteps_eq_decodeLoop` from the empty accumulator. -/
theorem boundedAccumulatorIsExact : Obligations.BoundedAccumulatorIsExact := by
  intro P ct β x hP h
  obtain ⟨⟨hpos, -⟩, -⟩ := params_bounds hP
  exact decodeSteps_eq_decodeLoop hP h x β hpos

/-! ### The code tree (R148) -/

theorem isNode_iff {ct : CT} {p : Bits} :
    isNode ct p = true ↔ ∃ s, (readAt ct.entry s).valid = true ∧ p <+: (readAt ct.entry s).bits := by
  simp only [isNode, List.any_eq_true, mem_toList_iff_readAt, Bool.and_eq_true, isPrefix_iff]
  constructor
  · rintro ⟨_, ⟨s, rfl⟩, hs⟩
    exact ⟨s, hs⟩
  · rintro ⟨s, hs⟩
    exact ⟨_, ⟨s, rfl⟩, hs⟩

theorem isNode_of_append {ct : CT} {p q : Bits} (h : isNode ct (p ++ q) = true) : isNode ct p = true := by
  rw [isNode_iff] at h ⊢
  obtain ⟨s, hv, hp⟩ := h
  exact ⟨s, hv, (List.prefix_append p q).trans hp⟩

theorem isNode_of_match {ct : CT} {p : Bits} {s : Symbol} (h : matchSym ct p = some s) : isNode ct p = true := by
  obtain ⟨hv, hbits⟩ := matchSym_some h
  exact isNode_iff.mpr ⟨s, hv, hbits ▸ List.prefix_rfl⟩

/-- An inner node is shorter than the codes below it, so DEC is not dead there. -/
theorem length_lt_of_inner_node {P : Params} {ct : CT} (h : CtInv P ct) {p : Bits} (hnode : isNode ct p = true)
    (hm : matchSym ct p = none) : p.length < P.lMax := by
  obtain ⟨s, hv, hp⟩ := isNode_iff.mp hnode
  have hne : p.length ≠ (readAt ct.entry s).bits.length := fun e => matchSym_none.mp hm s hv (hp.eq_of_length e).symm
  calc p.length
    _ < (readAt ct.entry s).bits.length := Nat.lt_of_le_of_ne hp.length_le hne
    _ = (readAt ct.entry s).len.toNat := length_bits h hv
    _ ≤ P.lMax := h.len_le s hv

theorem walkStream_outside (ct : CT) (β : Bits) : walkStream ct .outside β = ([], .outside) := by
  induction β with
  | nil => rfl
  | cons b β ih => exact ih

/-- Off the tree DEC emits nothing and never comes back to the root. -/
theorem decodeSteps_off_tree (lMax : Nat) {ct : CT} {d : Dec} (hne : d.acc ≠ []) (hoff : isNode ct d.acc = false)
    (β : Bits) : (decodeSteps lMax ct d β).1 = [] ∧ (decodeSteps lMax ct d β).2.acc ≠ [] := by
  induction β generalizing d with
  | nil => exact ⟨rfl, hne⟩
  | cons b β ih =>
    have hoff' : isNode ct (d.acc ++ [b]) = false := by
      rw [Bool.eq_false_iff] at hoff ⊢
      exact mt isNode_of_append hoff
    rw [decodeSteps_cons]
    rcases decStep_cases lMax ct d b with ⟨-, hstep⟩ | ⟨-, s, hm, -⟩ | ⟨-, -, hstep⟩
    · rw [hstep]
      exact ih hne hoff
    · rw [isNode_of_match hm] at hoff'
      cases hoff'
    · rw [hstep]
      exact ih (d := { d with acc := d.acc ++ [b], dead := decide (d.acc.length + 1 = lMax) }) (by simp) hoff'

/-- From the node that the accumulator spells: the same symbols, and the root is reached in both or in neither. -/
theorem walkStream_eq_decodeSteps {P : Params} {ct : CT} (h : CtInv P ct) (x : Session) (β p : Bits) :
    (walkStream ct (.inside p) β).1 = (decodeSteps P.lMax ct { state := x, acc := p, dead := false } β).1 ∧
    ((walkStream ct (.inside p) β).2 = .inside [] ↔
      (decodeSteps P.lMax ct { state := x, acc := p, dead := false } β).2.dead = false ∧
      (decodeSteps P.lMax ct { state := x, acc := p, dead := false } β).2.acc = []) := by
  induction β generalizing p with
  | nil => simp [walkStream, decodeSteps]
  | cons b β ih =>
    rw [walkStream, walkStep, decodeSteps_cons]
    cases hm : matchSym ct (p ++ [b]) with
    | some s =>
      obtain ⟨hsyms, hroot⟩ := ih []
      rw [decStep_of_match rfl hm]
      exact ⟨congrArg (s :: ·) hsyms, hroot⟩
    | none =>
      rw [decStep_of_no_match rfl hm]
      cases hnode : isNode ct (p ++ [b]) with
      | true =>
        have hlt := length_lt_of_inner_node h hnode hm
        rw [List.length_append, List.length_singleton] at hlt
        rw [decide_eq_false hlt.ne]
        exact ih (p ++ [b])
      | false =>
        obtain ⟨hsyms, hacc⟩ := decodeSteps_off_tree P.lMax
          (d := { state := x, acc := p ++ [b], dead := decide (p.length + 1 = P.lMax) }) (by simp) hnode β
        simp [walkStream_outside, hsyms, hacc]

/-- Settles O52: `walkStream_eq_decodeSteps` from the root. -/
theorem treeWalkIsDecStep : Obligations.TreeWalkIsDecStep := fun _ _ β x _ h => walkStream_eq_decodeSteps h x β []

/-! ### The stream of a text (R74, R144) -/

/-- DEC gives back the text whose stream it takes, and ends at the root. -/
theorem decodeSteps_streamOf {P : Params} {ct : CT} (h : CtInv P ct) (x : Session) {text : List Symbol} {β : Bits}
    (hβ : streamOf ct text = some β) :
    decodeSteps P.lMax ct { state := x, acc := [], dead := false } β =
      (text, { state := x, acc := [], dead := false }) := by
  induction text generalizing β with
  | nil =>
    cases hβ
    rfl
  | cons s text ih =>
    obtain ⟨c, δ, hc, hδ, rfl⟩ := streamOf_cons.mp hβ
    obtain ⟨hv, rfl⟩ := codeOf_eq_some.mp hc
    have hne : (readAt ct.entry s).bits ≠ [] := by
      rw [← List.length_pos_iff, length_bits h hv]
      exact h.len_pos s hv
    rw [decodeSteps_append, decodeSteps_code h hv x [] _ hne rfl, ih hδ]
    rfl

/-! ### The bytes of a session (R142, R143) -/

/-- The bits still due are taken from the first byte, then from the rest. -/
theorem unpackStream_cons (n : Nat) (B : BitVec 8) (bytes : List (BitVec 8)) : unpackStream n (B :: bytes) =
    (byteBits B).take (min 8 n) ++ unpackStream (n - min 8 n) bytes := by
  have hfirst : (byteBits B).take n = (byteBits B).take (min 8 n) := by
    rw [Nat.min_comm, ← byteBits_length B, ← List.take_eq_take_min]
  have hrest : n - 8 = n - min 8 n := by omega
  rw [unpackStream, unpackStream, List.flatMap_cons, List.take_append, byteBits_length, hfirst, hrest]

/-- The bytes of a session deliver the unpacked stream bit after bit. -/
theorem execAll_decBytes {s : State} (hdec : s.dec.state = .active) (bytes : List (BitVec 8)) :
    execAll (decBytes bytes) s = .next ((unpackStream s.unpack.remain.toNat bytes).foldl deliverBit s) := by
  induction bytes generalizing s with
  | nil => simp [decBytes, execAll, unpackStream]
  | cons B bytes ih =>
    have hactive : (deliverByte B s).dec.state = .active := by
      rw [deliverByte_eq]
      exact (decodeSteps_state _ _ _ _).trans hdec
    have hremain : (deliverByte B s).unpack.remain.toNat = s.unpack.remain.toNat - bitsTaken s := by
      rw [deliverByte_eq]
      exact remain_after_byte s
    rw [unpackStream_cons, List.foldl_append]
    calc execAll (decBytes (B :: bytes)) s
      _ = execAll (decBytes bytes) (deliverByte B s) := execAll_cons (exec_decPush_of_active hdec B)
      _ = .next ((unpackStream (deliverByte B s).unpack.remain.toNat bytes).foldl deliverBit (deliverByte B s)) := ih hactive
      _ = _ := by rw [hremain]; rfl

/-- A decode session whose bytes unpack to the stream of a text emits the text and `DONE` (R140, R152). -/
theorem execAll_decodeSession {s : State} {n : Word} {bytes : List (BitVec 8)} {text : List Symbol} {β : Bits}
    (h : CtInv s.params s.ct) (hs : Legal s (.decStart n)) (hβ : streamOf s.ct text = some β)
    (hn : β.length = n.toNat) (hbytes : unpackStream n.toNat bytes = β) :
    execAll (decodeSession n bytes) s = .next (withOutput (symWords text ++ [outWord .done 0])
      { s with unpack := { remain := 0 }, dec := { state := .idle, acc := [], dead := false } }) := by
  have hall : n - BitVec.ofNat 32 β.length = 0 := by
    rw [hn, BitVec.ofNat_toNat, BitVec.setWidth_eq]
    exact BitVec.sub_self n
  have hdelivered : β.foldl deliverBit (effect s (.decStart n)) = withOutput (symWords text)
      { s with unpack := { remain := 0 }, dec := { state := .active, acc := [], dead := false } } := by
    rw [deliverBits_eq]
    simp only [effect, decodeSteps_streamOf h .active hβ, hall]
  have hpushes := execAll_decBytes (s := effect s (.decStart n)) rfl bytes
  rw [show (effect s (.decStart n)).unpack.remain = n from rfl, hbytes, hdelivered] at hpushes
  calc execAll (decodeSession n bytes) s
    _ = execAll (decBytes bytes ++ [Instr.decEnd]) (effect s (.decStart n)) :=
      execAll_cons (exec_of_clean (firstFault_decStart_of_legal hs))
    _ = execAll [.decEnd] _ := execAll_append hpushes
    _ = .next _ := execAll_cons (exec_of_clean (firstFault_decEnd_of_root rfl rfl rfl rfl))
    _ = .next _ := by simp [effect, emit, endDecode, withOutput]

/-- Settles O50: by the session law (O49) the encode session emits the payload and its length and leaves the table, so the
payload unpacks to the text's stream (O44) and DEC gives the text back. -/
theorem sessionRoundTrip : Obligations.SessionRoundTrip := by
  intro s text β h henc hdec hβ hfit
  have ⟨_, hinit, _⟩ := henc
  obtain ⟨-, -, hsession⟩ := encodeSessionLaw s text β h henc hβ hfit
  have hlen : (BitVec.ofNat 32 β.length).toNat = β.length := by
    obtain ⟨-, -, -, hw⟩ := params_bounds h.params
    have h32 : 2 ^ s.params.wLen ≤ 2 ^ 32 := Nat.pow_le_pow_right (by omega) hw
    exact Nat.mod_eq_of_lt (by omega)
  refine ⟨_, payload β, BitVec.ofNat 32 β.length, hsession, (List.append_assoc _ _ _).symm, ?_⟩
  exact execAll_decodeSession (h.ct hinit) hdec hβ hlen.symm (by rw [hlen, unpackStream_payload])

end Sys2Proof.Machine
end

section
/-! SUPPORT. The host's tree and its codes (`48_host_contract.md` R161 to R166): the queue yields one of its items, the
merges keep the leaves and the weights (O55), and no path to a leaf of a tree begins the path to another (O56). -/

namespace Sys2Proof.HostSide

open Sys2Proof.Machine

/-! ### The policy's choices (log 16) -/

theorem reorder_perm {α : Type} [DecidableEq α] (f : List α → List α) (l : List α) : (reorder f l).Perm l := by
  unfold reorder
  split
  · exact List.isPerm_iff.mp ‹_›
  · exact .refl l

theorem firstMin_lt {ps : List Nat} (h : ps ≠ []) : firstMin ps < ps.length := by
  induction ps with
  | nil => exact absurd rfl h
  | cons w ps ih =>
    cases ps with
    | nil => exact Nat.one_pos
    | cons v ps =>
      have hrest := ih (List.cons_ne_nil v ps)
      rw [firstMin, List.length_cons]
      split <;> omega

/-- Whatever the policy answers, an index of the queue is picked. -/
theorem pickIndex_lt (π : Policy) {ps : List Nat} (h : ps ≠ []) : pickIndex π ps < ps.length := by
  unfold pickIndex
  split
  · next hlegal =>
    rw [Bool.and_eq_true, decide_eq_true_iff] at hlegal
    exact hlegal.1
  · exact firstMin_lt h

/-! ### The queue (R161) -/

@[simp] theorem extractMin_nil (π : Policy) : Queue.extractMin π [] = none := rfl

/-- A queue that is not empty yields one of its items and keeps the others. -/
theorem extractMin_of_ne_nil (π : Policy) {q : Queue} (h : q ≠ []) :
    ∃ item rest, q.extractMin π = some (item.2, rest) ∧ (item :: rest).Perm q := by
  have hlt := pickIndex_lt π (ps := q.map Prod.fst) (by simpa using h)
  rw [List.length_map] at hlt
  refine ⟨q[pickIndex π (q.map Prod.fst)], q.eraseIdx (pickIndex π (q.map Prod.fst)), ?_,
    List.getElem_cons_eraseIdx_perm hlt⟩
  simp [Queue.extractMin, List.getElem?_eq_getElem hlt]

/-! ### Weights and leaves (R162, R163) -/

/-- The root of the tree weighs what its leaves weigh together. -/
def Tree.WeighsLeaves (t : Tree) : Prop := t.weight = (t.leaves.map Prod.snd).sum

/-- All leaves of the trees in a queue. -/
def queueLeaves (q : Queue) : List (Symbol × Nat) := q.flatMap fun item => item.2.leaves

theorem mergeNodes_leaves_perm (π : Policy) (a b : Tree) : (mergeNodes π a b).leaves.Perm (a.leaves ++ b.leaves) := by
  unfold mergeNodes
  split
  · exact .refl _
  · exact List.perm_append_comm

theorem queueLeaves_perm {item : Nat × Tree} {rest q : Queue} (h : (item :: rest).Perm q) :
    (item.2.leaves ++ queueLeaves rest).Perm (queueLeaves q) := by
  have hperm := h.flatMap_right fun item => item.2.leaves
  rwa [List.flatMap_cons] at hperm

theorem queueLeaves_insert_merged (π : Policy) (a b : Tree) (q : Queue) (priority : Nat) :
    (queueLeaves (Queue.insert q (mergeNodes π a b) priority)).Perm (a.leaves ++ (b.leaves ++ queueLeaves q)) := by
  have hinsert : queueLeaves (Queue.insert q (mergeNodes π a b) priority) =
      queueLeaves q ++ (mergeNodes π a b).leaves := by
    simp [queueLeaves, Queue.insert]
  rw [hinsert, ← List.append_assoc]
  exact List.perm_append_comm.trans ((mergeNodes_leaves_perm π a b).append_right _)

theorem Tree.WeighsLeaves.mergeNodes {a b : Tree} (ha : a.WeighsLeaves) (hb : b.WeighsLeaves) (π : Policy) :
    (mergeNodes π a b).WeighsLeaves := by
  have hweight : (HostSide.mergeNodes π a b).weight = a.weight + b.weight := by
    unfold HostSide.mergeNodes
    split <;> rfl
  have hleaves := ((mergeNodes_leaves_perm π a b).map Prod.snd).sum_nat
  rw [Tree.WeighsLeaves, hweight, hleaves, List.map_append, List.sum_append, ha, hb]

/-- With fuel for every merge the loop ends with one tree, which has the leaves of the whole queue. -/
theorem mergeLoop_eq_some (π : Policy) {k : Nat} {q : Queue} (hq : q ≠ []) (hk : q.length ≤ k + 1)
    (hweighs : ∀ item ∈ q, item.2.WeighsLeaves) :
    ∃ root, mergeLoop π k q = some root ∧ root.leaves.Perm (queueLeaves q) ∧ root.WeighsLeaves := by
  induction k generalizing q with
  | zero =>
    obtain ⟨a, rest, ha, hperm⟩ := extractMin_of_ne_nil π hq
    have hlen := hperm.length_eq
    rw [List.length_cons] at hlen
    obtain rfl : rest = [] := List.length_eq_zero_iff.mp (by omega)
    have hleaves : a.2.leaves.Perm (queueLeaves q) := by simpa [queueLeaves] using queueLeaves_perm hperm
    exact ⟨a.2, by simp [mergeLoop, ha], hleaves, hweighs a (hperm.mem_iff.mp List.mem_cons_self)⟩
  | succ k ih =>
    obtain ⟨a, q1, ha, hperm1⟩ := extractMin_of_ne_nil π hq
    have hleaves1 := queueLeaves_perm hperm1
    obtain ⟨hweighs_a, hweighs1⟩ := List.forall_mem_cons.mp fun item hitem => hweighs item (hperm1.mem_iff.mp hitem)
    have hlen1 := hperm1.length_eq
    rw [List.length_cons] at hlen1
    by_cases hq1 : q1 = []
    · subst hq1
      exact ⟨a.2, by simp [mergeLoop, ha], by simpa [queueLeaves] using hleaves1, hweighs_a⟩
    · obtain ⟨b, q2, hb, hperm2⟩ := extractMin_of_ne_nil π hq1
      obtain ⟨hweighs_b, hweighs2⟩ := List.forall_mem_cons.mp fun item hitem => hweighs1 item (hperm2.mem_iff.mp hitem)
      have hlen2 := hperm2.length_eq
      rw [List.length_cons] at hlen2
      have hlen : (Queue.insert q2 (mergeNodes π a.2 b.2) (a.2.weight + b.2.weight)).length ≤ k + 1 := by
        rw [Queue.insert, List.length_append, List.length_singleton]
        omega
      have hweighs' : ∀ item ∈ Queue.insert q2 (mergeNodes π a.2 b.2) (a.2.weight + b.2.weight),
          item.2.WeighsLeaves :=
        List.forall_mem_append.mpr ⟨hweighs2, by simpa using hweighs_a.mergeNodes hweighs_b π⟩
      obtain ⟨root, hroot, hleaves, hweighs_root⟩ := ih (by simp [Queue.insert]) hlen hweighs'
      have hmerged := queueLeaves_insert_merged π a.2 b.2 q2 (a.2.weight + b.2.weight)
      have hleaves2 := (queueLeaves_perm hperm2).append_left a.2.leaves
      exact ⟨root, by simp [mergeLoop, ha, hb, hroot], hleaves.trans (hmerged.trans (hleaves2.trans hleaves1)),
        hweighs_root⟩

/-- The leaves the loop starts from. -/
def leafQueue (table : List (Symbol × Nat)) : Queue := table.map fun e => (e.2, Tree.leaf e.1 e.2)

theorem queueLeaves_leafQueue (table : List (Symbol × Nat)) : queueLeaves (leafQueue table) = table := by
  simp [queueLeaves, leafQueue, List.flatMap_map, Tree.leaves]

/-- A table that is not empty gives a tree of its entries. -/
theorem build_of_ne_nil (π : Policy) {table : List (Symbol × Nat)} (h : table ≠ []) :
    ∃ root, build π table = some root ∧ root.leaves.Perm table ∧ root.WeighsLeaves := by
  have hperm := reorder_perm π.seed table
  have hlen : (leafQueue (reorder π.seed table)).length = table.length := by
    rw [leafQueue, List.length_map, hperm.length_eq]
  have hne : leafQueue (reorder π.seed table) ≠ [] := by
    rw [← List.length_pos_iff, hlen]
    exact List.length_pos_iff.mpr h
  obtain ⟨root, hroot, hleaves, hweighs⟩ := mergeLoop_eq_some π (k := table.length) hne (by omega) (by
    intro item hitem
    obtain ⟨e, -, rfl⟩ := List.mem_map.mp hitem
    simp [Tree.WeighsLeaves, Tree.weight, Tree.leaves])
  rw [queueLeaves_leafQueue] at hleaves
  exact ⟨root, hroot, hleaves.trans hperm, hweighs⟩

theorem build_nil (π : Policy) : build π [] = none := by
  have hseed : reorder π.seed [] = [] := (reorder_perm π.seed []).eq_nil
  rw [build, hseed]
  rfl

/-- What a tree that was built is, whatever the policy (R163). -/
theorem build_eq_some {π : Policy} {table : List (Symbol × Nat)} {root : Tree} (h : build π table = some root) :
    root.leaves.Perm table ∧ root.WeighsLeaves := by
  have hne : table ≠ [] := by
    rintro rfl
    simp [build_nil] at h
  obtain ⟨root', hroot', hspec⟩ := build_of_ne_nil π hne
  obtain rfl : root' = root := Option.some.inj (hroot'.symm.trans h)
  exact hspec

/-- Settles O55: the merges keep the leaves of the queue (`mergeLoop_eq_some`), which starts as one leaf per entry. -/
theorem buildKeepsWeights : Obligations.BuildKeepsWeights := by
  intro π table
  constructor
  · intro hne
    obtain ⟨root, hroot, -⟩ := build_of_ne_nil π hne
    exact ⟨root, hroot⟩
  · intro root hroot
    obtain ⟨hleaves, hweighs⟩ := build_eq_some hroot
    exact ⟨hleaves, hweighs.trans (hleaves.map Prod.snd).sum_nat⟩

/-! ### The paths of a tree (R166) -/

theorem paths_map_fst (t : Tree) (p : Bits) : (t.paths p).map Prod.fst = t.leaves.map Prod.fst := by
  induction t generalizing p with
  | leaf s w => rfl
  | node w l r ihl ihr => simp [Tree.paths, Tree.leaves, ihl, ihr]

theorem leaves_length_pos (t : Tree) : 0 < t.leaves.length := by
  induction t with
  | leaf s w => exact Nat.one_pos
  | node w l r ihl ihr =>
    rw [Tree.leaves, List.length_append]
    omega

/-- A path starts with the path to the root, and is shorter than the tree has leaves. -/
theorem path_bounds {t : Tree} {p : Bits} {c : Symbol × Bits} (h : c ∈ t.paths p) :
    p <+: c.2 ∧ c.2.length + 1 ≤ p.length + t.leaves.length := by
  induction t generalizing p with
  | leaf s w =>
    obtain rfl := List.mem_singleton.mp h
    exact ⟨List.prefix_rfl, le_rfl⟩
  | node w l r ihl ihr =>
    have hl := leaves_length_pos l
    have hr := leaves_length_pos r
    rw [Tree.leaves, List.length_append]
    rcases List.mem_append.mp h with hc | hc
    · obtain ⟨hp, hlen⟩ := ihl hc
      rw [List.length_append, List.length_singleton] at hlen
      exact ⟨(List.prefix_append p _).trans hp, by omega⟩
    · obtain ⟨hp, hlen⟩ := ihr hc
      rw [List.length_append, List.length_singleton] at hlen
      exact ⟨(List.prefix_append p _).trans hp, by omega⟩

/-- A path through a node goes on to one of its children. -/
theorem path_longer_of_node {w : Nat} {l r : Tree} {p : Bits} {c : Symbol × Bits} (h : c ∈ (Tree.node w l r).paths p) :
    p.length < c.2.length := by
  have hchild : ∃ b, p ++ [b] <+: c.2 := (List.mem_append.mp h).elim
    (fun hc => ⟨false, (path_bounds hc).1⟩) (fun hc => ⟨true, (path_bounds hc).1⟩)
  obtain ⟨b, hb⟩ := hchild
  simpa using hb.length_le

/-- Two sequences that part after `p` are no prefixes of each other. -/
theorem not_prefix_of_parted {p x y : Bits} {b : Bool} (hx : p ++ [b] <+: x) (hy : p ++ [!b] <+: y) : ¬ x <+: y := by
  intro hxy
  have heq : p ++ [b] = p ++ [!b] :=
    (List.prefix_of_prefix_length_le (hx.trans hxy) hy (by simp)).eq_of_length (by simp)
  simp at heq

/-- The paths to different leaves part at some node. -/
theorem paths_prefix_free (t : Tree) (p : Bits) :
    (t.paths p).Pairwise fun a b => ¬ a.2 <+: b.2 ∧ ¬ b.2 <+: a.2 := by
  induction t generalizing p with
  | leaf s w => exact List.pairwise_singleton _ _
  | node w l r ihl ihr =>
    refine List.pairwise_append.mpr ⟨ihl _, ihr _, fun a ha b hb => ?_⟩
    have hleft := (path_bounds ha).1
    have hright := (path_bounds hb).1
    exact ⟨not_prefix_of_parted hleft hright, not_prefix_of_parted hright hleft⟩

/-! ### The generated table (R166, R180) -/

theorem not_clash_iff (a b : Bits) : (!clash a b) = true ↔ ¬ a <+: b ∧ ¬ b <+: a := by
  simp [clash, ← isPrefix_iff]

theorem prefixFree_iff (l : List Bits) : prefixFree l = true ↔ l.Pairwise fun a b => ¬ a <+: b ∧ ¬ b <+: a := by
  induction l with
  | nil => exact iff_of_true rfl .nil
  | cons c l ih => simp only [prefixFree, Bool.and_eq_true, List.all_eq_true, not_clash_iff, ih, List.pairwise_cons]

theorem length_le_of_nodup {l : List Symbol} (h : l.Nodup) : l.length ≤ 256 :=
  (h.subperm fun x _ => mem_allSymbols x).length_le.trans_eq (by simp [allSymbols])

/-- The generator's check passes on every tree with inner nodes (R166). -/
theorem generate_node (w : Nat) (l r : Tree) :
    generate (some (.node w l r)) = .ok ((Tree.node w l r).paths []) := by
  have hfree : prefixFree (((Tree.node w l r).paths []).map Prod.snd) = true := by
    rw [prefixFree_iff, List.pairwise_map]
    exact paths_prefix_free _ _
  rw [generate, if_pos hfree]

/-- A tree with distinct leaves gives each of them a code of 1 to 255 bits, none of which begins another. -/
theorem generate_of_distinct {root : Tree} (h : (root.leaves.map Prod.fst).Nodup) :
    ∃ codes, generate (some root) = .ok codes ∧ codes.map Prod.fst = root.leaves.map Prod.fst ∧
      codes.Pairwise (fun a b => ¬ a.2 <+: b.2 ∧ ¬ b.2 <+: a.2) ∧
      ∀ c ∈ codes, 1 ≤ c.2.length ∧ c.2.length ≤ 255 := by
  cases root with
  | leaf s w => exact ⟨[(s, [false])], rfl, rfl, List.pairwise_singleton _ _, by simp⟩
  | node w l r =>
    refine ⟨_, generate_node w l r, paths_map_fst _ _, paths_prefix_free _ _, fun c hc => ?_⟩
    have hpos := path_longer_of_node hc
    have hbound := (path_bounds hc).2
    have hleaves := length_le_of_nodup h
    rw [List.length_map] at hleaves
    rw [List.length_nil] at hpos hbound
    omega

/-- Settles O56: the leaves of a built tree are the entries of the table (O55), so they are distinct, and
`generate_of_distinct` gives their codes. -/
theorem generatedTableIsLoadable : Obligations.GeneratedTableIsLoadable := by
  intro π table root hdistinct hroot
  have hleaves := (build_eq_some hroot).1.map Prod.fst
  obtain ⟨codes, hcodes, hfst, hfree, hlen⟩ := generate_of_distinct (hleaves.nodup_iff.mpr hdistinct)
  exact ⟨codes, hcodes, by rw [hfst]; exact hleaves, hfree, hlen⟩

end Sys2Proof.HostSide
end

section
/-! SUPPORT. The artifact's header (`48_host_contract.md` R170 to R174): the reader on each part the writer wrote, and on the
whole artifact (O57). -/

namespace Sys2Proof.HostSide

open Sys2Proof.Machine

/-! ### Splitting (R173) -/

/-- The first occurrence of a byte is where the writer put it, if the text before does not hold it. -/
theorem splitAtByte_append {b : Byte} {l : List Byte} (h : b ∉ l) (rest : List Byte) :
    splitAtByte b (l ++ b :: rest) = some (l, rest) := by
  induction l with
  | nil => simp [splitAtByte]
  | cons c l ih =>
    rw [List.mem_cons, not_or] at h
    simp [splitAtByte, Ne.symm h.1, ih h.2]

/-! ### Decimal numbers (R171) -/

theorem digitByte_ne {d : Nat} (h : d < 10) : digitByte d ≠ newline ∧ digitByte d ≠ colon := by
  interval_cases d <;> decide

theorem digitValue_digitByte {d : Nat} (h : d < 10) : digitValue (digitByte d) = some d := by
  interval_cases d <;> decide

/-- A decimal form is digits: those of the number, the last one first, or a single 0. -/
theorem decimal_eq_map (n : Nat) : ∃ ds : List Nat, decimal n = ds.reverse.map digitByte ∧ ds ≠ [] ∧
    (∀ d ∈ ds, d < 10) ∧ Nat.ofDigits 10 ds = n := by
  by_cases h : n = 0
  · exact ⟨[0], by simp [decimal, h], by simp, by simp, by simp [h]⟩
  · exact ⟨Nat.digits 10 n, by simp [decimal, h], Nat.digits_ne_nil_iff_ne_zero.mpr h,
      fun _ hd => Nat.digits_lt_base (by decide) hd, Nat.ofDigits_digits 10 n⟩

theorem separators_notMem_decimal (n : Nat) : newline ∉ decimal n ∧ colon ∉ decimal n := by
  obtain ⟨ds, hdec, -, hlt, -⟩ := decimal_eq_map n
  have hdigit : ∀ c ∈ decimal n, c ≠ newline ∧ c ≠ colon := by
    rw [hdec]
    intro c hc
    obtain ⟨d, hd, rfl⟩ := List.mem_map.mp hc
    exact digitByte_ne (hlt d (List.mem_reverse.mp hd))
  exact ⟨fun h => (hdigit _ h).1 rfl, fun h => (hdigit _ h).2 rfl⟩

/-- Digits are read as the number they denote, in the order written. -/
theorem readDigits_map_digitByte {ds : List Nat} (h : ∀ d ∈ ds, d < 10) (m : Nat) :
    readDigits m (ds.map digitByte) = some (ds.foldl (fun v d => 10 * v + d) m) := by
  induction ds generalizing m with
  | nil => rfl
  | cons d ds ih =>
    have hd := digitValue_digitByte (h d List.mem_cons_self)
    simp [readDigits, hd, ih fun e he => h e (List.mem_cons_of_mem d he)]

theorem readDecimal_of_ne_nil {l : List Byte} (h : l ≠ []) : readDecimal l = readDigits 0 l := by
  cases l with
  | nil => exact absurd rfl h
  | cons c l => rfl

@[simp] theorem readDecimal_decimal (n : Nat) : readDecimal (decimal n) = some n := by
  obtain ⟨ds, hdec, hne, hlt, hval⟩ := decimal_eq_map n
  have hvalue : ds.reverse.foldl (fun v d => 10 * v + d) 0 = n := by
    rw [List.foldl_reverse, ← hval, Nat.ofDigits_eq_foldr]
    simp [Nat.add_comm]
  rw [hdec, readDecimal_of_ne_nil (by simpa using hne), readDigits_map_digitByte (by simpa using hlt), hvalue]

/-! ### Entry lines (R170, R171) -/

@[simp] theorem readBits_bitChars (code : Bits) : readBits (bitChars code) = some code := by
  have hdistinct : digitByte 1 ≠ digitByte 0 := by decide
  induction code with
  | nil => rfl
  | cons b code ih =>
    rw [bitChars] at ih
    cases b <;> simp [readBits, bitChars, ih, hdistinct]

theorem newline_notMem_bitChars (code : Bits) : newline ∉ bitChars code := by
  rw [bitChars, List.mem_map]
  rintro ⟨b, -, hb⟩
  cases b <;> exact absurd hb (by decide)

/-- An entry line without its line end. -/
def entryText (e : Symbol × Bits) : List Byte := decimal e.1.toNat ++ colon :: bitChars e.2

theorem entryLine_eq (e : Symbol × Bits) : entryLine e = entryText e ++ [newline] := rfl

theorem newline_notMem_entryText (e : Symbol × Bits) : newline ∉ entryText e := by
  have hcolon : newline ≠ colon := by decide
  simp [entryText, (separators_notMem_decimal e.1.toNat).1, newline_notMem_bitChars, hcolon]

theorem readEntry_entryText (e : Symbol × Bits) : readEntry (entryText e) = some e := by
  have hlt : e.1.toNat < 256 := e.1.isLt
  rw [readEntry, entryText, splitAtByte_append (separators_notMem_decimal e.1.toNat).2]
  simp [hlt]

/-- The reader takes back as many lines as the writer wrote. -/
theorem readEntries_flatMap_entryLine (entries : List (Symbol × Bits)) (rest : List Byte) :
    readEntries entries.length (entries.flatMap entryLine ++ rest) = some (entries, rest) := by
  induction entries with
  | nil => rfl
  | cons e entries ih =>
    have hsplit := splitAtByte_append (newline_notMem_entryText e) (entries.flatMap entryLine ++ rest)
    have hline : (e :: entries).flatMap entryLine ++ rest =
        entryText e ++ newline :: (entries.flatMap entryLine ++ rest) := by
      simp [entryLine_eq]
    rw [hline, List.length_cons, readEntries, hsplit]
    simp [readEntry_entryText, ih]

/-! ### The whole artifact (R170, R173) -/

theorem newline_notMem_terminator : newline ∉ terminator := by decide

theorem writeArtifact_eq (entries : List (Symbol × Bits)) (n : Nat) (bytes : List Byte) :
    writeArtifact entries n bytes = decimal entries.length ++ newline ::
      (entries.flatMap entryLine ++ (terminator ++ newline :: (decimal n ++ newline :: bytes))) := by
  simp [writeArtifact, writeHeader]

theorem parseHeader_writeArtifact {P : Params} {entries : List (Symbol × Bits)} {n : Nat} (bytes : List Byte)
    (hsize : entries.length ≤ 256) (hn : n < 2 ^ P.wLen) : parseHeader P (writeArtifact entries n bytes) =
      some { entries := entries, bitLength := n, payload := bytes } := by
  have hsize' : ¬ 256 < entries.length := Nat.not_lt.mpr hsize
  rw [writeArtifact_eq, parseHeader, splitAtByte_append (separators_notMem_decimal _).1]
  simp only [readDecimal_decimal, hsize', if_false, readEntries_flatMap_entryLine,
    splitAtByte_append newline_notMem_terminator, splitAtByte_append (separators_notMem_decimal n).1, ne_eq,
    not_true_eq_false, hn, if_true]

/-- Settles O57: `parseHeader_writeArtifact`. -/
theorem headerRoundTrip : Obligations.HeaderRoundTrip := fun _ _ _ bytes => parseHeader_writeArtifact bytes

end Sys2Proof.HostSide
end

section
/-! SUPPORT. The driver's way of issuing commands (`48_host_contract.md` R177 to R179, log 19): no command reads the ports,
so taking the words after each command gives the same words and the same machine as taking them all after the run; and a
call goes on exactly when no command of it raises a fault. -/

namespace Sys2Proof.HostSide

open Sys2Proof.Machine

/-! ### The words of one kind (R62) -/

@[simp] theorem wordKind_outWord (k : OutKind) (v : Word) : wordKind (outWord k v) = k.code := by
  rw [wordKind, outWord, BitVec.extractLsb'_append_eq_left]

@[simp] theorem wordValue_outWord (k : OutKind) (v : Word) : wordValue (outWord k v) = v := by
  rw [wordValue, outWord, BitVec.extractLsb'_append_eq_right]

theorem outKind_code_inj {k k' : OutKind} : k.code = k'.code ↔ k = k' := by
  cases k <;> cases k' <;> decide

@[simp] theorem valuesOf_nil (k : OutKind) : valuesOf k [] = [] := rfl

@[simp] theorem valuesOf_append (k : OutKind) (ws ws' : List OutWord) :
    valuesOf k (ws ++ ws') = valuesOf k ws ++ valuesOf k ws' := by
  simp [valuesOf]

@[simp] theorem valuesOf_cons_outWord (k k' : OutKind) (v : Word) (ws : List OutWord) :
    valuesOf k (outWord k' v :: ws) = if k' = k then v :: valuesOf k ws else valuesOf k ws := by
  by_cases h : k' = k <;> simp [valuesOf, outKind_code_inj, h]

/-- Words of one kind, looked through for that kind or for another. -/
@[simp] theorem valuesOf_map_outWord {α : Type} (k k' : OutKind) (f : α → Word) (l : List α) :
    valuesOf k (l.map fun x => outWord k' (f x)) = if k' = k then l.map f else [] := by
  induction l with
  | nil => simp
  | cons x l ih =>
    rw [List.map_cons, valuesOf_cons_outWord, ih]
    split <;> rfl

@[simp] theorem valuesOf_byteWords (k : OutKind) (bytes : List (BitVec 8)) :
    valuesOf k (byteWords bytes) = if .byte = k then bytes.map (BitVec.setWidth 32) else [] :=
  valuesOf_map_outWord k .byte _ bytes

@[simp] theorem valuesOf_symWords (k : OutKind) (text : List Symbol) :
    valuesOf k (symWords text) = if .sym = k then text.map (BitVec.setWidth 32) else [] :=
  valuesOf_map_outWord k .sym _ text

/-- The low byte of a byte's word is the byte. -/
@[simp] theorem map_setWidth_comp (l : List (BitVec 8)) : l.map (BitVec.setWidth 8 ∘ BitVec.setWidth 32) = l := by
  rw [List.map_congr_left (g := id), List.map_id]
  intro x _
  exact BitVec.setWidth_setWidth_of_le x (by omega)

/-! ### Runs do not read the ports (R51, R63) -/

/-- The state with other ports. -/
def withPort (p : Port) (s : State) : State := { s with port := p }

/-- The ports with more words pending. -/
def pend (p : Port) (ws : List OutWord) : Port := { p with outQ := p.outQ ++ ws }

theorem pend_nil (p : Port) : pend p [] = p := by
  rw [pend, List.append_nil]

theorem pend_pend (p : Port) (ws ws' : List OutWord) : pend (pend p ws) ws' = pend p (ws ++ ws') := by
  simp [pend]

/-- From `s`, whatever the ports hold, `f` appends the words `ws` and does the same to everything else. -/
def Appends (f : State → State) (s : State) (ws : List OutWord) : Prop :=
  ∀ p, f (withPort p s) = withPort (pend p ws) (f s)

theorem Appends.outQ {f : State → State} {s : State} {ws : List OutWord} (h : Appends f s ws) :
    (f s).port.outQ = s.port.outQ ++ ws :=
  (congrArg (fun u : State => u.port.outQ) (h s.port) :)

theorem Appends.comp {f g : State → State} {s : State} {ws ws' : List OutWord} (hf : Appends f s ws)
    (hg : Appends g (f s) ws') : Appends (fun u => g (f u)) s (ws ++ ws') := by
  intro p
  calc g (f (withPort p s))
    _ = g (withPort (pend p ws) (f s)) := by rw [hf p]
    _ = withPort (pend (pend p ws) ws') (g (f s)) := hg _
    _ = withPort (pend p (ws ++ ws')) (g (f s)) := by rw [pend_pend]

/-- What leaves the ports out of account appends nothing. -/
theorem appends_nil {f : State → State} {s : State} (h : ∀ p, f (withPort p s) = withPort p (f s)) : Appends f s [] := by
  intro p
  rw [h p, pend_nil]

theorem firstFault_withPort (p : Port) (s : State) (i : Instr) : firstFault (withPort p s) i = firstFault s i := by
  cases i <;> rfl

theorem packAbsorb_appends (s : State) (b : Bool) :
    ∃ ws, valuesOf .err ws = [] ∧ Appends (fun u => packAbsorb u b) s ws := by
  by_cases h : s.pack.fill = 7#3
  · refine ⟨[outWord .byte ((setBit s.pack.acc (7 - s.pack.fill.toNat) b).setWidth 32)], by simp, fun p => ?_⟩
    simp only [packAbsorb_eq]
    rw [if_pos h, if_pos (show (withPort p s).pack.fill = 7#3 from h)]
    rfl
  · refine ⟨[], rfl, appends_nil fun p => ?_⟩
    simp only [packAbsorb_eq]
    rw [if_neg h, if_neg (show (withPort p s).pack.fill ≠ 7#3 from h)]
    rfl

theorem packCode_appends (code : Bits) (s : State) : ∃ ws, valuesOf .err ws = [] ∧ Appends (packCode code) s ws := by
  induction code generalizing s with
  | nil => exact ⟨[], rfl, appends_nil fun _ => rfl⟩
  | cons b code ih =>
    obtain ⟨ws, herr, hbit⟩ := packAbsorb_appends s b
    obtain ⟨ws', herr', hcode⟩ := ih (packAbsorb s b)
    exact ⟨ws ++ ws', by simp [herr, herr'], hbit.comp hcode⟩

theorem deliverByte_appends (B : BitVec 8) (s : State) :
    ∃ ws, valuesOf .err ws = [] ∧ Appends (deliverByte B) s ws := by
  refine ⟨symWords (decodeSteps s.params.lMax s.ct s.dec ((byteBits B).take (bitsTaken s))).1, by simp, fun p => ?_⟩
  rw [deliverByte_eq, deliverByte_eq]
  rfl

/-- A command that raises nothing appends words other than `ERR`, the same whatever the ports hold. -/
theorem effect_appends (i : Instr) (s : State) :
    ∃ ws, valuesOf .err ws = [] ∧ Appends (fun u => effect u i) s ws := by
  cases i with
  | encPush sym =>
    obtain ⟨ws, herr, happ⟩ := packCode_appends (readAt s.ct.entry sym).bits s
    exact ⟨ws, herr, happ⟩
  | decPush B => exact deliverByte_appends B s
  | rdReg idx => exact ⟨[outWord .data ((regAt idx s).getD 0)], by simp, fun _ => rfl⟩
  | faRd sym => exact ⟨[outWord .data (readAt s.fa.count sym)], by simp, fun _ => rfl⟩
  | encFlush =>
    refine ⟨flushWords s.pack, ?_, fun _ => rfl⟩
    unfold flushWords
    split <;> simp
  | decEnd => exact ⟨[outWord .done 0], by simp, fun _ => rfl⟩
  | _ => exact ⟨[], rfl, appends_nil fun _ => rfl⟩

theorem effects_appends (l : List Instr) (s : State) : ∃ ws, valuesOf .err ws = [] ∧ Appends (effects l) s ws := by
  induction l generalizing s with
  | nil => exact ⟨[], rfl, appends_nil fun _ => rfl⟩
  | cons i l ih =>
    obtain ⟨ws, herr, hone⟩ := effect_appends i s
    obtain ⟨ws', herr', hrest⟩ := ih (effect s i)
    exact ⟨ws ++ ws', by simp [herr, herr'], hone.comp hrest⟩

theorem cleanRun_withPort (p : Port) (l : List Instr) (s : State) : CleanRun l (withPort p s) ↔ CleanRun l s := by
  induction l generalizing p s with
  | nil => exact Iff.rfl
  | cons i l ih =>
    obtain ⟨ws, -, hone⟩ := effect_appends i s
    rw [CleanRun, CleanRun, firstFault_withPort, show effect (withPort p s) i = _ from hone p, ih]

/-! ### Taking the words (R63, log 19) -/

/-- The state after the host has taken every pending word. -/
def takeAll (s : State) : State :=
  withPort { s.port with outQ := [], delivered := s.port.delivered ++ s.port.outQ } s

@[simp] theorem takeAll_params (s : State) : (takeAll s).params = s.params := rfl
@[simp] theorem takeAll_fa (s : State) : (takeAll s).fa = s.fa := rfl
@[simp] theorem takeAll_ct (s : State) : (takeAll s).ct = s.ct := rfl
@[simp] theorem takeAll_enc (s : State) : (takeAll s).enc = s.enc := rfl
@[simp] theorem takeAll_dec (s : State) : (takeAll s).dec = s.dec := rfl
@[simp] theorem takeAll_outQ (s : State) : (takeAll s).port.outQ = [] := rfl

theorem takeAll_of_outQ_nil {s : State} (h : s.port.outQ = []) : takeAll s = s := by
  have hport : ({ s.port with outQ := [], delivered := s.port.delivered ++ s.port.outQ } : Port) = s.port := by
    rw [h, List.append_nil, ← h]
  rw [takeAll, hport]
  rfl

/-- Words taken before a run are the first of those pending after it. -/
theorem effects_takeAll (l : List Instr) (s : State) :
    (effects l s).port.outQ = s.port.outQ ++ (effects l (takeAll s)).port.outQ ∧
      takeAll (effects l (takeAll s)) = takeAll (effects l s) := by
  obtain ⟨ws, -, happ⟩ := effects_appends l s
  have htaken := happ { s.port with outQ := [], delivered := s.port.delivered ++ s.port.outQ }
  have hport := congrArg State.port (happ s.port)
  rw [show withPort s.port s = s from rfl] at hport
  rw [takeAll, htaken]
  constructor
  · rw [hport]
    simp [withPort, pend]
  · simp [takeAll, withPort, pend, hport]

/-! ### Issuing commands (R177, R178, R232) -/

theorem issue_eq {i : Instr} {s t : State} (hwf : WellFormed s.params i = true) (h : exec i s = .next t) :
    issue i s = (t.port.outQ, takeAll t) := by
  rw [issue, step_offerFirst, acceptWord_encode hwf, h]
  rfl

theorem issueAll_cons_of_err {err : Word → HostError} {i : Instr} {l : List Instr} {s : State} {code : Word}
    (h : valuesOf .err (issue i s).1 = [code]) : issueAll err (i :: l) s = (.error (err code), (issue i s).2) := by
  simp [issueAll, h]

theorem issueAll_cons_eq_ok_iff {err : Word → HostError} {i : Instr} {l : List Instr} {s t : State} {ws : List OutWord}
    (h : valuesOf .err (issue i s).1 = []) : issueAll err (i :: l) s = (.ok ws, t) ↔
      ∃ ws', issueAll err l (issue i s).2 = (.ok ws', t) ∧ (issue i s).1 ++ ws' = ws := by
  simp only [issueAll, h]
  rcases issueAll err l (issue i s).2 with ⟨_ | _, _⟩ <;> simp [and_comm]

/-- The words the host can take after a command that raises nothing. -/
theorem issue_of_clean {i : Instr} {s : State} (hq : s.port.outQ = []) (hwf : WellFormed s.params i = true)
    (hf : firstFault s i = none) :
    issue i s = ((effect s i).port.outQ, takeAll (effect s i)) ∧ valuesOf .err (issue i s).1 = [] := by
  obtain ⟨ws, herr, happ⟩ := effect_appends i s
  have hissue := issue_eq hwf (exec_of_clean hf)
  refine ⟨hissue, ?_⟩
  rw [hissue, happ.outQ, hq, List.nil_append, herr]

/-- A command that raises a fault gives the host its `ERR` word (R202). -/
theorem issue_of_fault {i : Instr} {s : State} {F : FaultKind} (hq : s.port.outQ = []) (hwf : WellFormed s.params i = true)
    (hf : firstFault s i = some F) : valuesOf .err (issue i s).1 = [BitVec.ofNat 32 F.code] := by
  rw [issue_eq hwf (exec_of_fault hf), raised_eq, hq]
  simp [errWord]

/-- A run in which nothing is raised gives the host all its words. -/
theorem issueAll_of_clean (err : Word → HostError) {l : List Instr} {s : State} (hq : s.port.outQ = [])
    (hwf : ∀ i ∈ l, WellFormed s.params i = true) (hclean : CleanRun l s) :
    issueAll err l s = (.ok (effects l s).port.outQ, takeAll (effects l s)) := by
  induction l generalizing s with
  | nil =>
    rw [effects, takeAll_of_outQ_nil hq, hq]
    rfl
  | cons i l ih =>
    obtain ⟨hf, hrest⟩ := hclean
    obtain ⟨hwfi, hwfl⟩ := List.forall_mem_cons.mp hwf
    obtain ⟨hissue, herr⟩ := issue_of_clean hq hwfi hf
    have hparams : (effect s i).params = s.params := (effect_keepsToUnit s i).params
    have hih := ih (s := takeAll (effect s i)) rfl (by rwa [takeAll_params, hparams]) ((cleanRun_withPort _ l _).mpr hrest)
    obtain ⟨hwords, hstate⟩ := effects_takeAll l (effect s i)
    rw [issueAll_cons_eq_ok_iff herr, hissue, effects, hwords, ← hstate]
    exact ⟨_, hih, rfl⟩

/-- The driver gets through a list of commands only if none of them raises a fault. -/
theorem cleanRun_of_issueAll {err : Word → HostError} {l : List Instr} {s t : State} {ws : List OutWord}
    (hq : s.port.outQ = []) (hwf : ∀ i ∈ l, WellFormed s.params i = true) (h : issueAll err l s = (.ok ws, t)) :
    CleanRun l s := by
  induction l generalizing s t ws with
  | nil => trivial
  | cons i l ih =>
    obtain ⟨hwfi, hwfl⟩ := List.forall_mem_cons.mp hwf
    cases hf : firstFault s i with
    | some F =>
      rw [issueAll_cons_of_err (issue_of_fault hq hwfi hf)] at h
      cases h
    | none =>
      obtain ⟨hissue, herr⟩ := issue_of_clean hq hwfi hf
      have hparams : (effect s i).params = s.params := (effect_keepsToUnit s i).params
      rw [issueAll_cons_eq_ok_iff herr, hissue] at h
      obtain ⟨_, hrest, -⟩ := h
      have hclean := ih (s := takeAll (effect s i)) rfl (by rwa [takeAll_params, hparams]) hrest
      exact ⟨hf, (cleanRun_withPort _ l _).mp hclean⟩

/-! ### Runs whose output is known (R6) -/

theorem execAll_outQ {l : List Instr} {s t : State} (h : execAll l s = .next t) :
    ∃ ws, t.port.outQ = s.port.outQ ++ ws := by
  induction l generalizing s with
  | nil =>
    cases h
    exact ⟨[], (List.append_nil _).symm⟩
  | cons i l ih =>
    obtain ⟨ws, hport⟩ := exec_port (exec_eq i s)
    rw [execAll_cons (exec_eq i s)] at h
    obtain ⟨ws', hq⟩ := ih h
    exact ⟨ws ++ ws', by rw [hq, hport, List.append_assoc]⟩

/-- A run that leaves no `ERR` word pending raised nothing, since every fault emits one (R202). -/
theorem cleanRun_of_noErr {l : List Instr} {s t : State} (h : execAll l s = .next t)
    (herr : valuesOf .err t.port.outQ = []) : CleanRun l s := by
  induction l generalizing s with
  | nil => trivial
  | cons i l ih =>
    rw [execAll_cons (exec_eq i s)] at h
    obtain ⟨ws, hq⟩ := execAll_outQ h
    rw [hq, valuesOf_append, List.append_eq_nil_iff] at herr
    cases hf : firstFault s i with
    | some F =>
      rw [hf] at herr
      simp [raised_eq, errWord] at herr
    | none =>
      rw [hf] at h
      exact ⟨hf, ih h⟩

/-- The driver gets exactly the words of a run without `ERR` word. -/
theorem issueAll_of_execAll (err : Word → HostError) {l : List Instr} {s t : State} (hq : s.port.outQ = [])
    (hwf : ∀ i ∈ l, WellFormed s.params i = true) (h : execAll l s = .next t) (herr : valuesOf .err t.port.outQ = []) :
    issueAll err l s = (.ok t.port.outQ, takeAll t) := by
  have hclean := cleanRun_of_noErr h herr
  obtain rfl : effects l s = t := by
    rw [execAll_of_clean hclean] at h
    cases h
    rfl
  exact issueAll_of_clean err hq hwf hclean

end Sys2Proof.HostSide
end

section
/-! SUPPORT. Calls of the drivers (`48_host_contract.md` R177, R178): what they keep of the machine, and the first call of
compress, which counts the text and reads the frequency table (R104), with the condition under which it goes through. -/

namespace Sys2Proof.HostSide

open Sys2Proof.Machine

/-! ### The machine between calls -/

theorem inv_takeAll {s : State} (h : Inv s) : Inv (takeAll s) :=
  { h with
    load := fun hl => (h.load hl).of_eq rfl rfl rfl rfl
    pending := by simp
    delivered := fun w hw => (List.mem_append.mp hw).elim (h.delivered w) (h.pending w) }

theorem inv_effects {l : List Instr} {s : State} (h : Inv s) (hwf : ∀ i ∈ l, WellFormed s.params i = true)
    (hclean : CleanRun l s) : Inv (effects l s) := by
  induction l generalizing s with
  | nil => exact h
  | cons i l ih =>
    obtain ⟨hf, hrest⟩ := hclean
    obtain ⟨hwfi, hwfl⟩ := List.forall_mem_cons.mp hwf
    have hparams : (effect s i).params = s.params := (effect_keepsToUnit s i).params
    exact ih (h.after_effect hwfi hf) (by rwa [hparams]) hrest

theorem effects_params (l : List Instr) (s : State) : (effects l s).params = s.params := by
  induction l generalizing s with
  | nil => rfl
  | cons i l ih => rw [effects, ih, (effect_keepsToUnit s i).params]

theorem withOutput_outQ {s : State} (h : s.port.outQ = []) (ws : List OutWord) : (withOutput ws s).port.outQ = ws := by
  simp [withOutput, h]

/-- The machine as a driver's call expects it (R177, R178): no session active, no word pending. -/
structure Ready (s : State) : Prop where
  inv : Inv s
  idle : Legal s .ctClr
  empty : s.port.outQ = []

/-- A call leaves the machine ready if its commands end with no session active. -/
theorem Ready.after_issueAll {err : Word → HostError} {l : List Instr} {s t : State} {ws : List OutWord} (h : Ready s)
    (hwf : ∀ i ∈ l, WellFormed s.params i = true) (hrun : issueAll err l s = (.ok ws, t))
    (hidle : t.enc = s.enc ∧ t.dec = s.dec) : Ready t ∧ t.params = s.params := by
  have hclean := cleanRun_of_issueAll h.empty hwf hrun
  rw [issueAll_of_clean err h.empty hwf hclean] at hrun
  cases hrun
  obtain ⟨henc, hdec⟩ := hidle
  exact ⟨⟨inv_takeAll (inv_effects h.inv hwf hclean), ⟨henc ▸ h.idle.1, hdec ▸ h.idle.2⟩, rfl⟩, effects_params l s⟩

/-! ### The analysis (R104, R177) -/

/-- The commands of the analysis: FA counts the text, and the driver reads the total. -/
def analysis (text : List Symbol) : List Instr := .faClr :: faText text ++ [.rdReg 3#8]

theorem analysis_eq (text : List Symbol) : Instr.faClr :: faText text ++ [.rdReg 3#8] = analysis text := rfl

theorem wellFormed_analysis (P : Params) (text : List Symbol) : ∀ i ∈ analysis text, WellFormed P i = true := by
  simp [analysis, faText, WellFormed, or_imp, forall_and]

/-- A text that fits is counted, and the driver gets its length. -/
theorem issueAll_analysis (err : Word → HostError) {s : State} {text : List Symbol} (hP : s.params.wf = true)
    (hq : s.port.outQ = []) (hfit : text.length ≤ 2 ^ s.params.wCnt - 1) :
    ∃ t, issueAll err (analysis text) s = (.ok [outWord .data t.fa.total], t) ∧ t.fa.total.toNat = text.length ∧
      (∀ x, (readAt t.fa.count x).toNat = text.count x) ∧ t.fa.init = true ∧ t.port.outQ = [] ∧
      t.enc = s.enc ∧ t.dec = s.dec := by
  obtain ⟨u, hrun, hcount, htotal, -, hinit, hframe⟩ := histogramOfText s text hP hfit
  have hu : u.port.outQ = [] := (congrArg (fun v : State => v.port.outQ) hframe :).trans hq
  have hread : exec (.rdReg 3#8) u = .next (withOutput [outWord .data u.fa.total] u) := rfl
  have hall : execAll (analysis text) s = .next (withOutput [outWord .data u.fa.total] u) :=
    (execAll_append hrun).trans (execAll_cons hread)
  have hout := withOutput_outQ hu [outWord .data u.fa.total]
  have hissue := issueAll_of_execAll err hq (wellFormed_analysis _ text) hall (by simp [hout])
  rw [hout] at hissue
  exact ⟨takeAll (withOutput [outWord .data u.fa.total] u), hissue, htotal, hcount, hinit, rfl,
    (congrArg State.enc hframe :), (congrArg State.dec hframe :)⟩

/-- FA counts no more symbols than its total can hold (R102, R105). -/
theorem length_lt_of_cleanRun_faText {text seen : List Symbol} {s : State} (h : Histogram s seen)
    (hP : s.params.wf = true) (hclean : CleanRun (faText text) s) : seen.length + text.length < 2 ^ s.params.wCnt := by
  induction text generalizing s seen with
  | nil =>
    rw [← h.total]
    exact h.inv.total_lt
  | cons x text ih =>
    obtain ⟨hf, hrest⟩ := hclean
    have hroom : s.fa.total.toNat ≠ 2 ^ s.params.wCnt - 1 := by
      intro hfull
      rw [firstFault_faPush_of_full h.init hfull] at hf
      cases hf
    have hlt : (x :: seen).length + text.length < 2 ^ s.params.wCnt :=
      ih (s := countSymbol x s) (h.after_countSymbol hP hroom x) hP hrest
    rw [List.length_cons] at hlt ⊢
    omega

theorem length_lt_of_issueAll_analysis {err : Word → HostError} {s t : State} {text : List Symbol} {ws : List OutWord}
    (hP : s.params.wf = true) (hq : s.port.outQ = []) (h : issueAll err (analysis text) s = (.ok ws, t)) :
    text.length < 2 ^ s.params.wCnt := by
  have hclean := cleanRun_of_issueAll hq (wellFormed_analysis _ text) h
  rw [analysis, cleanRun_append] at hclean
  obtain ⟨⟨-, hpushes⟩, -⟩ := hclean
  have := length_lt_of_cleanRun_faText (histogram_clear s) hP hpushes
  rwa [List.length_nil, Nat.zero_add] at this

/-! ### The frequency table (R104, R177) -/

theorem effects_faRd (l : List Symbol) (s : State) :
    effects (l.map .faRd) s = withOutput (l.map fun x => outWord .data (readAt s.fa.count x)) s := by
  induction l generalizing s with
  | nil => simp [effects, withOutput]
  | cons x l ih =>
    rw [List.map_cons, effects, ih]
    simp [effect, emit, withOutput]

theorem cleanRun_faRd {s : State} (h : s.fa.init = true) (l : List Symbol) : CleanRun (l.map .faRd) s := by
  induction l generalizing s with
  | nil => trivial
  | cons x l ih => exact ⟨firstFault_faRd_of_init h x, ih h⟩

/-- The driver reads one counter per symbol, and nothing in the units changes. -/
theorem issueAll_faRd (err : Word → HostError) {s : State} (hq : s.port.outQ = []) (h : s.fa.init = true)
    (l : List Symbol) : ∃ t, issueAll err (l.map .faRd) s =
      (.ok (l.map fun x => outWord .data (readAt s.fa.count x)), t) ∧ t.enc = s.enc ∧ t.dec = s.dec := by
  have hissue := issueAll_of_clean err hq (by simp [WellFormed]) (cleanRun_faRd h l)
  rw [effects_faRd, withOutput_outQ hq] at hissue
  exact ⟨_, hissue, rfl, rfl⟩

/-- The table lists the symbols whose count is not 0. -/
theorem tableOf_map_fst (f : Symbol → Word) :
    (tableOf (allSymbols.map f)).map Prod.fst = allSymbols.filter fun x => f x ≠ 0 := by
  rw [tableOf, ← List.map_prod_left_eq_zip, List.filter_map, List.map_map, List.map_map]
  exact List.map_id _

end Sys2Proof.HostSide
end

section
/-! SUPPORT. Compress (`48_host_contract.md` R177): the entries the host loads (R166, R180), the table load and the encode
session, each in both directions (what it gives when everything fits, and that everything fits when it goes through), and the
artifact compress writes. -/

namespace Sys2Proof.HostSide

open Sys2Proof.Machine

/-! ### The entries the host loads (R166, R172, R180) -/

/-- The codes of a table with distinct symbols, in whatever order, can be loaded where `L_MAX` is 255 (O56). -/
theorem generate_build (π : Policy) {table : List (Symbol × Nat)} (hne : table ≠ [])
    (hdistinct : (table.map Prod.fst).Nodup) : ∃ codes, generate (build π table) = .ok codes ∧
      Loadable Config.params (reorder π.order codes) ∧
      ∀ x, x ∈ (reorder π.order codes).map Prod.fst ↔ x ∈ table.map Prod.fst := by
  obtain ⟨root, hroot, -⟩ := build_of_ne_nil π hne
  obtain ⟨codes, hcodes, hperm, hfree, hlen⟩ := generatedTableIsLoadable π table root hdistinct hroot
  have horder := reorder_perm π.order codes
  have hload : Loadable Config.params codes := ⟨hperm.nodup_iff.mpr hdistinct, hlen, hfree⟩
  exact ⟨codes, hroot ▸ hcodes, hload.perm horder.symm, fun x => ((horder.map Prod.fst).trans hperm).mem_iff⟩

/-- A table that holds exactly the codes of some entries. -/
def HasCodes (ct : CT) (entries : List (Symbol × Bits)) : Prop := ∀ x c, codeOf ct x = some c ↔ (x, c) ∈ entries

/-- The stream of a text under some entries, in any table that holds exactly them (R74). -/
def StreamUnder (entries : List (Symbol × Bits)) (text : List Symbol) (β : Bits) : Prop :=
  ∀ ct, HasCodes ct entries → streamOf ct text = some β

theorem streamUnder_nil (entries : List (Symbol × Bits)) : StreamUnder entries [] [] := fun _ _ => rfl

theorem StreamUnder.cons {entries : List (Symbol × Bits)} {text : List Symbol} {β c : Bits} {x : Symbol}
    (h : StreamUnder entries text β) (hx : (x, c) ∈ entries) : StreamUnder entries (x :: text) (c ++ β) :=
  fun ct hct => streamOf_cons.mpr ⟨c, β, (hct x c).mpr hx, h ct hct, rfl⟩

/-- What one table with the entries gives, every table with them gives. -/
theorem HasCodes.streamUnder {ct : CT} {entries : List (Symbol × Bits)} (h : HasCodes ct entries) {text : List Symbol}
    {β : Bits} (hβ : streamOf ct text = some β) : StreamUnder entries text β := by
  induction text generalizing β with
  | nil =>
    cases hβ
    exact streamUnder_nil entries
  | cons x text ih =>
    obtain ⟨c, δ, hc, hδ, rfl⟩ := streamOf_cons.mp hβ
    exact (ih hδ).cons ((h x c).mp hc)

/-- A text whose symbols all have entries has a stream, of at most 255 bits per symbol. -/
theorem exists_streamUnder {P : Params} (hP : P.wf = true) {entries : List (Symbol × Bits)} (hload : Loadable P entries)
    {text : List Symbol} (h : ∀ x ∈ text, x ∈ entries.map Prod.fst) :
    ∃ β, StreamUnder entries text β ∧ β.length ≤ 255 * text.length := by
  induction text with
  | nil => exact ⟨[], streamUnder_nil entries, Nat.zero_le _⟩
  | cons x text ih =>
    obtain ⟨hx, hrest⟩ := List.forall_mem_cons.mp h
    obtain ⟨δ, hδ, hlen⟩ := ih hrest
    obtain ⟨⟨_, c⟩, hc, rfl⟩ := List.mem_map.mp hx
    have hcode : c.length ≤ P.lMax := (hload.fits _ hc).2
    obtain ⟨⟨-, hmax⟩, -⟩ := params_bounds hP
    refine ⟨c ++ δ, hδ.cons hc, ?_⟩
    rw [List.length_append, List.length_cons]
    omega

/-! ### The load (R110, R177, R178) -/

theorem wellFormed_tableLoad (P : Params) (entries : List (Symbol × Bits)) :
    ∀ i ∈ tableLoad entries, WellFormed P i = true := by
  intro i hi
  simp only [tableLoad, ctEntry, List.mem_cons, List.mem_flatMap, List.mem_append, List.mem_map,
    List.not_mem_nil, or_false] at hi
  obtain rfl | ⟨e, -, (rfl | ⟨b, -, rfl⟩) | rfl⟩ := hi <;> rfl

/-- Entries that can be loaded are, and no session starts. -/
theorem Ready.issueAll_tableLoad (err : Word → HostError) {s : State} (h : Ready s) {entries : List (Symbol × Bits)}
    (hload : Loadable s.params entries) : ∃ ws t, issueAll err (tableLoad entries) s = (.ok ws, t) ∧ Ready t ∧
      t.params = s.params ∧ t.ct.init = true ∧ t.ct.ldActive = false ∧ HasCodes t.ct entries := by
  have htable := tableOf_tableLoad h.inv.params hload
  have hrun := issueAll_of_clean err h.empty (wellFormed_tableLoad _ entries)
    ((cleanRun_tableLoad_iff h.inv.params h.idle).mpr hload)
  have hsessions : (effects (tableLoad entries) s).enc = s.enc ∧ (effects (tableLoad entries) s).dec = s.dec :=
    ⟨(congrArg State.enc htable.frame :), (congrArg State.dec htable.frame :)⟩
  obtain ⟨hready, hparams⟩ := h.after_issueAll (wellFormed_tableLoad _ entries) hrun hsessions
  exact ⟨_, _, hrun, hready, hparams, htable.init, htable.idle, htable.codeOf_iff h.inv.params hload⟩

theorem Ready.loadable_of_issueAll {err : Word → HostError} {s t : State} (h : Ready s) {entries : List (Symbol × Bits)}
    {ws : List OutWord} (hrun : issueAll err (tableLoad entries) s = (.ok ws, t)) : Loadable s.params entries :=
  (cleanRun_tableLoad_iff h.inv.params h.idle).mp
    (cleanRun_of_issueAll h.empty (wellFormed_tableLoad _ entries) hrun)

/-! ### The encode session (R125, R132, R177) -/

theorem wellFormed_encodeSession (P : Params) (text : List Symbol) :
    ∀ i ∈ encodeSession text, WellFormed P i = true := by
  simp [encodeSession, encText, WellFormed, or_imp, forall_and]

/-- The length of a stream that fits is its `LEN` value (R129, R131). -/
theorem toNat_ofNat_of_fits {P : Params} (hP : P.wf = true) {n : Nat} (h : n < 2 ^ P.wLen) :
    (BitVec.ofNat 32 n).toNat = n := by
  obtain ⟨-, -, -, hw⟩ := params_bounds hP
  have h32 : 2 ^ P.wLen ≤ 2 ^ 32 := Nat.pow_le_pow_right (by omega) hw
  exact Nat.mod_eq_of_lt (by omega)

theorem Ready.issueAll_encodeSession (err : Word → HostError) {s : State} (h : Ready s) (hinit : s.ct.init = true)
    (hload : s.ct.ldActive = false) {text : List Symbol} {β : Bits} (hβ : streamOf s.ct text = some β)
    (hfit : β.length < 2 ^ s.params.wLen) : ∃ t, issueAll err (encodeSession text) s =
      (.ok (byteWords (payload β) ++ [outWord .len (BitVec.ofNat 32 β.length)]), t) ∧ Ready t ∧
      t.params = s.params := by
  obtain ⟨-, -, hsession⟩ := encodeSessionLaw s text β h.inv ⟨h.idle.1, hinit, hload⟩ hβ
    (Nat.le_sub_one_of_lt hfit)
  have hout : ∀ p : Pack, (withOutput (byteWords (payload β) ++ [outWord .len (BitVec.ofNat 32 β.length)])
      { s with pack := p }).port.outQ = byteWords (payload β) ++ [outWord .len (BitVec.ofNat 32 β.length)] :=
    fun p => withOutput_outQ (s := { s with pack := p }) h.empty _
  have hrun := issueAll_of_execAll err h.empty (wellFormed_encodeSession _ text) hsession (by rw [hout]; simp)
  rw [hout] at hrun
  exact ⟨_, hrun, h.after_issueAll (wellFormed_encodeSession _ text) hrun ⟨rfl, rfl⟩⟩

/-- The pushes of a text raise nothing only if each symbol has a code and the whole stream fits (R127). -/
theorem stream_of_cleanRun_encText {text : List Symbol} {s : State} (h : Inv s) (henc : s.enc.state = .active)
    (hclean : CleanRun (encText text) s) :
    ∃ β, streamOf s.ct text = some β ∧ s.pack.nbits.toNat + β.length < 2 ^ s.params.wLen := by
  induction text generalizing s with
  | nil => exact ⟨[], rfl, h.nbits_lt⟩
  | cons x text ih =>
    obtain ⟨hf, hrest⟩ := hclean
    obtain ⟨hv, hfit⟩ : (readAt s.ct.entry x).valid = true ∧
        ¬ 2 ^ s.params.wLen - 1 < s.pack.nbits.toNat + (readAt s.ct.entry x).len.toNat := by
      rw [firstFault_encPush_of_active henc] at hf
      simpa [ite_eq_iff] using hf
    have hcode : codeOf s.ct x = some (readAt s.ct.entry x).bits := codeOf_eq_some.mpr ⟨hv, rfl⟩
    have hlen := length_bits (h.ct (h.enc_table henc)) hv
    obtain ⟨-, hinv, hnbits⟩ := h.exec_encPush henc hcode (by omega)
    obtain ⟨δ, hδ, hfits⟩ := ih (s := packCode (readAt s.ct.entry x).bits s) hinv (by rw [packCode_enc, henc]) hrest
    rw [packCode_ct] at hδ
    rw [packCode_params, hnbits] at hfits
    exact ⟨_, streamOf_cons.mpr ⟨_, δ, hcode, hδ, rfl⟩, by rw [List.length_append]; omega⟩

theorem Ready.stream_of_issueAll {err : Word → HostError} {s t : State} (h : Ready s) {text : List Symbol}
    {ws : List OutWord} (hrun : issueAll err (encodeSession text) s = (.ok ws, t)) :
    ∃ β, streamOf s.ct text = some β ∧ β.length < 2 ^ s.params.wLen := by
  have hclean := cleanRun_of_issueAll h.empty (wellFormed_encodeSession _ text) hrun
  rw [encodeSession, cleanRun_append] at hclean
  obtain ⟨⟨hstart, hpushes⟩, -⟩ := hclean
  have hinv : Inv (effect s .encStart) := h.inv.after_effect rfl hstart
  obtain ⟨β, hβ, hfit⟩ := stream_of_cleanRun_encText hinv rfl hpushes
  have hzero : (effect s .encStart).pack.nbits.toNat = 0 := rfl
  rw [hzero, Nat.zero_add] at hfit
  exact ⟨β, hβ, hfit⟩

/-! ### Compress from the table on (R177) -/

/-- What makes an artifact readable again (R170, R180): its entries can be loaded, its payload is packed from the text's stream
under them, and the declared length fits `W_LEN`. -/
structure ArtifactOf (P : Params) (entries : List (Symbol × Bits)) (text : List Symbol) (β : Bits) : Prop where
  loadable : Loadable P entries
  stream : StreamUnder entries text β
  fits : β.length < 2 ^ P.wLen

/-- With codes that can be loaded and a stream that fits, compress writes the artifact. -/
theorem Ready.compressWith_eq {π : Policy} {table : List (Symbol × Nat)} {codes : List (Symbol × Bits)} {s : State}
    (h : Ready s) (hcodes : generate (build π table) = .ok codes) {text : List Symbol} {β : Bits}
    (hart : ArtifactOf s.params (reorder π.order codes) text β) : ∃ t, compressWith π table text s =
      (.ok (writeArtifact (reorder π.order codes) β.length (payload β)), t) ∧ Ready t ∧ t.params = s.params := by
  obtain ⟨hload, hstream, hfit⟩ := hart
  obtain ⟨_, t, hrun, ht, hparams, hinit, hidle, hhas⟩ := h.issueAll_tableLoad compressError hload
  obtain ⟨u, hsession, hu, huparams⟩ := ht.issueAll_encodeSession compressError hinit hidle (hstream _ hhas)
    (hparams ▸ hfit)
  have hlen := toNat_ofNat_of_fits h.inv.params hfit
  refine ⟨u, ?_, hu, huparams.trans hparams⟩
  simp [compressWith, hcodes, hrun, hsession, hlen]

/-- If compress gets through, its codes could be loaded and its stream fits. -/
theorem Ready.artifactOf_of_compressWith {π : Policy} {table : List (Symbol × Nat)} {codes : List (Symbol × Bits)}
    {s t : State} {text : List Symbol} {bytes : List Byte} (h : Ready s) (hcodes : generate (build π table) = .ok codes)
    (hrun : compressWith π table text s = (.ok bytes, t)) :
    ∃ β, ArtifactOf s.params (reorder π.order codes) text β := by
  rcases hload : issueAll compressError (tableLoad (reorder π.order codes)) s with ⟨_ | ws, u⟩
  · simp [compressWith, hcodes, hload] at hrun
  · have hloadable := h.loadable_of_issueAll hload
    obtain ⟨_, u', hload', hu, hparams, -, -, hhas⟩ := h.issueAll_tableLoad compressError hloadable
    obtain ⟨-, rfl⟩ := Prod.mk.inj (hload'.symm.trans hload)
    rcases hsession : issueAll compressError (encodeSession text) u' with ⟨_ | ws', v⟩
    · simp [compressWith, hcodes, hload, hsession] at hrun
    · obtain ⟨β, hβ, hfit⟩ := hu.stream_of_issueAll hsession
      exact ⟨β, hloadable, hhas.streamUnder hβ, hparams ▸ hfit⟩

/-! ### Compress (R177) -/

theorem compress_nil (π : Policy) {s : State} (hP : s.params.wf = true) (hq : s.port.outQ = []) :
    ∃ t, compress π [] s = (.ok emptyArtifact, t) ∧ (Ready s → Ready t ∧ t.params = s.params) := by
  obtain ⟨t, hrun, htotal, -, -, -, hsessions⟩ := issueAll_analysis compressError (text := []) hP hq (Nat.zero_le _)
  have hzero : t.fa.total = 0 := BitVec.eq_of_toNat_eq htotal
  refine ⟨t, ?_, fun h => h.after_issueAll (wellFormed_analysis _ []) hrun hsessions⟩
  rw [compress, analysis_eq, hrun]
  simp [hzero]

/-- A text that fits FA is compressed with the table of its symbols. -/
theorem Ready.compress_eq_compressWith (π : Policy) {s : State} (h : Ready s) {text : List Symbol} (hne : text ≠ [])
    (hfit : text.length < 2 ^ s.params.wCnt) : ∃ table u, compress π text s = compressWith π table text u ∧ Ready u ∧
      u.params = s.params ∧ table ≠ [] ∧ (table.map Prod.fst).Nodup ∧ ∀ x, x ∈ table.map Prod.fst ↔ x ∈ text := by
  obtain ⟨t, hrun, htotal, hcount, hinit, hq, hsessions⟩ :=
    issueAll_analysis compressError (text := text) h.inv.params h.empty (Nat.le_sub_one_of_lt hfit)
  obtain ⟨ht, hparams⟩ := h.after_issueAll (wellFormed_analysis _ text) hrun hsessions
  obtain ⟨u, hread, hsessions'⟩ := issueAll_faRd compressError hq hinit allSymbols
  obtain ⟨hu, huparams⟩ := ht.after_issueAll (by simp [WellFormed]) hread hsessions'
  have hnonzero : t.fa.total ≠ 0#32 := by
    intro hzero
    rw [hzero] at htotal
    exact hne (List.length_eq_zero_iff.mp htotal.symm)
  have hmem : ∀ x, x ∈ (tableOf (allSymbols.map fun x => readAt t.fa.count x)).map Prod.fst ↔ x ∈ text := by
    intro x
    rw [tableOf_map_fst, List.mem_filter, ← List.count_pos_iff (l := text), ← hcount, Nat.pos_iff_ne_zero,
      decide_eq_true_iff]
    exact (and_iff_right (mem_allSymbols x)).trans (not_congr BitVec.toNat_eq)
  refine ⟨tableOf (allSymbols.map fun x => readAt t.fa.count x), u, ?_, hu, huparams.trans hparams, ?_, ?_, hmem⟩
  · rw [compress, analysis_eq, hrun]
    simp [hnonzero, hread]
  · intro hnil
    exact hne (List.eq_nil_iff_forall_not_mem.mpr fun x hx => by simpa [hnil] using (hmem x).mpr hx)
  · rw [tableOf_map_fst]
    exact allSymbols_nodup.filter _

theorem Ready.length_lt_of_compress {π : Policy} {s t : State} (h : Ready s) {text : List Symbol} {bytes : List Byte}
    (hrun : compress π text s = (.ok bytes, t)) : text.length < 2 ^ s.params.wCnt := by
  rcases hcount : issueAll compressError (analysis text) s with ⟨_ | ws, u⟩
  · rw [compress, analysis_eq, hcount] at hrun
    cases hrun
  · exact length_lt_of_issueAll_analysis h.inv.params h.empty hcount

end Sys2Proof.HostSide
end

section
/-! SUPPORT. Decompress (`48_host_contract.md` R178) on the artifact of a text, the empty text both ways (O58), and the round trip
of the pipeline (O59). -/

namespace Sys2Proof.HostSide

open Sys2Proof.Machine

/-! ### Decompress (R178) -/

/-- Only the empty text has an empty stream: every code has a bit (R20). -/
theorem ArtifactOf.eq_nil_of_stream_nil {P : Params} {entries : List (Symbol × Bits)} {text : List Symbol} {ct : CT}
    (h : ArtifactOf P entries text []) (hct : HasCodes ct entries) : text = [] := by
  cases text with
  | nil => rfl
  | cons x text =>
    obtain ⟨c, δ, hc, -, hnil⟩ := streamOf_cons.mp (h.stream ct hct)
    obtain ⟨rfl, -⟩ := List.append_eq_nil_iff.mp hnil.symm
    exact absurd (h.loadable.fits _ ((hct x []).mp hc)).1 (by simp)

theorem wellFormed_decodeSession {P : Params} {n : Word} (h : n.toNat < 2 ^ P.wLen) (bytes : List Byte) :
    ∀ i ∈ decodeSession n bytes, WellFormed P i = true := by
  simp [decodeSession, decBytes, WellFormed, or_imp, forall_and, h]

/-- The decode session on the payload of a text's stream gives the text (R140, R152). -/
theorem Ready.issueAll_decodeSession (err : Word → HostError) {s : State} (h : Ready s) (hinit : s.ct.init = true)
    (hload : s.ct.ldActive = false) {text : List Symbol} {β : Bits} (hβ : streamOf s.ct text = some β)
    (hfit : β.length < 2 ^ s.params.wLen) : ∃ t, issueAll err (decodeSession (BitVec.ofNat 32 β.length) (payload β)) s =
      (.ok (symWords text ++ [outWord .done 0]), t) := by
  have hlen := toNat_ofNat_of_fits h.inv.params hfit
  have hrun := execAll_decodeSession (h.inv.ct hinit) (n := BitVec.ofNat 32 β.length) (bytes := payload β)
    ⟨h.idle.2, hinit, hload⟩ hβ hlen.symm (by rw [hlen, unpackStream_payload])
  have hout := withOutput_outQ (s := { s with
    unpack := { remain := 0 }, dec := { state := .idle, acc := [], dead := false } }) h.empty
    (symWords text ++ [outWord .done 0])
  have hissue := issueAll_of_execAll err h.empty (wellFormed_decodeSession (by rw [hlen]; exact hfit) _) hrun
    (by rw [hout]; simp)
  rw [hout] at hissue
  exact ⟨_, hissue⟩

/-- Decompress gives back the text of an artifact. -/
theorem Ready.decompress_writeArtifact {s : State} (h : Ready s) {entries : List (Symbol × Bits)} {text : List Symbol}
    {β : Bits} (hart : ArtifactOf s.params entries text β) :
    ∃ t, decompress (writeArtifact entries β.length (payload β)) s = (.ok text, t) := by
  have hsize := length_le_of_nodup hart.loadable.distinct
  rw [List.length_map] at hsize
  have hparse := parseHeader_writeArtifact (payload β) hsize hart.fits
  obtain ⟨_, t, hrun, ht, hparams, hinit, hidle, hhas⟩ := h.issueAll_tableLoad decompressError hart.loadable
  rw [decompress, hparse]
  by_cases hβ : β.length = 0
  · obtain rfl := List.length_eq_zero_iff.mp hβ
    obtain rfl := hart.eq_nil_of_stream_nil hhas
    exact ⟨t, by simp [hrun]⟩
  · obtain ⟨u, hsession⟩ := ht.issueAll_decodeSession decompressError hinit hidle (hart.stream _ hhas)
      (hparams ▸ hart.fits)
    exact ⟨u, by simp only [hrun, hβ, if_false, hsession]; simp⟩

/-! ### The empty text (R176) and the round trip (R180) -/

theorem emptyArtifact_eq : emptyArtifact = writeArtifact [] ([] : Bits).length (payload []) := by decide

theorem artifactOf_nil (P : Params) : ArtifactOf P [] [] [] :=
  ⟨loadable_nil P, streamUnder_nil [], Nat.two_pow_pos _⟩

theorem Ready.decompress_emptyArtifact {s : State} (h : Ready s) : ∃ t, decompress emptyArtifact s = (.ok [], t) := by
  rw [emptyArtifact_eq]
  exact h.decompress_writeArtifact (artifactOf_nil s.params)

/-- Settles O58: FA counts no symbol of the empty text, and the empty artifact is that of the empty text without entries. -/
theorem emptyArtifactBothWays : Obligations.EmptyArtifactBothWays := by
  refine ⟨by decide, by decide, fun π s h hq => ⟨?_, fun hs => Ready.decompress_emptyArtifact ⟨h, hs, hq⟩⟩⟩
  obtain ⟨t, ht, -⟩ := compress_nil π h.params hq
  exact ⟨t, ht⟩

/-- Decompress undoes compress. -/
theorem Ready.decompress_of_compress {π : Policy} {s t : State} (h : Ready s) {text : List Symbol} {bytes : List Byte}
    (hrun : compress π text s = (.ok bytes, t)) : ∃ u, decompress bytes t = (.ok text, u) := by
  by_cases hne : text = []
  · subst hne
    obtain ⟨t', hrun', hready⟩ := compress_nil π h.inv.params h.empty
    obtain ⟨hbytes, rfl⟩ := Prod.mk.inj (hrun'.symm.trans hrun)
    obtain rfl := Except.ok.inj hbytes
    exact (hready h).1.decompress_emptyArtifact
  · obtain ⟨table, u, heq, hu, -, htable, hdistinct, -⟩ :=
      h.compress_eq_compressWith π hne (h.length_lt_of_compress hrun)
    rw [heq] at hrun
    obtain ⟨codes, hcodes, -, -⟩ := generate_build π htable hdistinct
    obtain ⟨β, hart⟩ := hu.artifactOf_of_compressWith hcodes hrun
    obtain ⟨v, hrun', hv, hparams⟩ := hu.compressWith_eq hcodes hart
    obtain ⟨hbytes, rfl⟩ := Prod.mk.inj (hrun'.symm.trans hrun)
    obtain rfl := Except.ok.inj hbytes
    exact hv.decompress_writeArtifact (hparams ▸ hart)

/-- Compress writes an artifact for every text short enough for the counters. -/
theorem Ready.compress_completes (π : Policy) {s : State} (h : Ready s) (hmax : s.params.lMax = 255) {text : List Symbol}
    (hcnt : text.length < 2 ^ s.params.wCnt) (hlen : 255 * text.length < 2 ^ s.params.wLen) :
    ∃ bytes t, compress π text s = (.ok bytes, t) := by
  by_cases hne : text = []
  · subst hne
    obtain ⟨t, hrun, -⟩ := compress_nil π h.inv.params h.empty
    exact ⟨_, t, hrun⟩
  · obtain ⟨table, u, heq, hu, hparams, htable, hdistinct, hmem⟩ := h.compress_eq_compressWith π hne hcnt
    obtain ⟨codes, hcodes, hload, hsyms⟩ := generate_build π htable hdistinct
    have hload' : Loadable u.params (reorder π.order codes) :=
      { hload with fits := by rw [hparams, hmax]; exact hload.fits }
    obtain ⟨β, hstream, hβ⟩ := exists_streamUnder hu.inv.params hload' (text := text)
      fun x hx => (hsyms x).mpr ((hmem x).mpr hx)
    obtain ⟨t, hrun, -⟩ := hu.compressWith_eq hcodes ⟨hload', hstream, by rw [hparams]; omega⟩
    exact ⟨_, t, heq.trans hrun⟩

/-- Settles O59: what compress writes is the artifact of the text, which decompress reads back; where nothing can overflow
compress gets through. -/
theorem pipelineRoundTrip : Obligations.PipelineRoundTrip := by
  intro π text s hinv hidle hempty
  have h : Ready s := ⟨hinv, hidle, hempty⟩
  have hcnt := Nat.two_pow_pos s.params.wCnt
  have hlen := Nat.two_pow_pos s.params.wLen
  exact ⟨fun _ _ hrun => h.decompress_of_compress hrun,
    fun hmax hfit hbits => h.compress_completes π hmax (by omega) (by omega)⟩

end Sys2Proof.HostSide
end

section
/-! SUPPORT. Faults and sequencing (`60_exceptions.md`): of the causes that hold the first is raised (O31), and without one
nothing is (O32); a command out of sequence (O33); all the ways the sequencing flags change (O34). First the idle step and the
taking of a word (O8). -/

namespace Sys2Proof.Machine

open Sys2Proof.HostSide

/-! ### Idle and delivery (R51, R63, R216) -/

theorem takeWord_of_pending {s : State} {w : OutWord} {ws : List OutWord} (h : s.port.outQ = w :: ws) :
    takeWord s = { s with port := { s.port with outQ := ws, delivered := s.port.delivered ++ [w] } } := by
  simp [takeWord, h]

theorem takeWord_of_none {s : State} (h : s.port.outQ = []) : takeWord s = s := by
  simp [takeWord, h]

/-- Settles O8: the step of each of the two events, and `takeWord` with and without a word pending. -/
theorem idleAndDelivery : Obligations.IdleAndDelivery := by
  refine fun s => ⟨step_of_idle, ?pending, ?none⟩
  case pending =>
    intro rest w ws hin hq
    rw [step_of_take hin, takeWord_of_pending (s := withInbox rest s) hq]
    rfl
  case none =>
    intro rest hin hq
    rw [step_of_take hin, takeWord_of_none (s := withInbox rest s) hq]
    rfl

/-! ### The order of faults (R203) -/

/-- The one command with an illegal operand is legal in every state (R92, R208). -/
theorem legal_of_cause_illegalCmd {s : State} {i : Instr} (h : Cause s i .illegalCmd) : Legal s i := by
  cases i with
  | rdReg => trivial
  | _ => exact False.elim h

/-- Only `ILLEGAL_CMD` comes before `SEQ`. -/
theorem seq_first {G : FaultKind} (h : G ≠ .illegalCmd) : .seq = G ∨ FaultKind.seq.priority < G.priority := by
  cases G with
  | illegalCmd => exact absurd rfl h
  | seq => exact .inl rfl
  | _ => exact .inr (by decide)

/-- In sequence, a cause that holds is raised unless the command tests an earlier one that holds too (R114, R127,
R145). The cases are the rows of `Cause`, in their order. -/
theorem firstFault_of_cause_of_legal {s : State} {i : Instr} {G : FaultKind} (hl : Legal s i) (h : Cause s i G) :
    ∃ F, firstFault s i = some F ∧ (F = G ∨ F.priority < G.priority) := by
  unfold Cause at h
  split at h
  case h_1 => exact ⟨_, by rw [firstFault, regAt_eq_none h]; rfl, .inl rfl⟩
  case h_2 => exact ⟨_, firstFault_faPush_of_full hl h _, .inl rfl⟩
  case h_3 => exact ⟨_, by rw [firstFault_ctBegin_of_legal hl, if_pos h], .inl rfl⟩
  case h_4 => exact ⟨_, by rw [firstFault_ctBit_of_active hl, if_pos h], .inl rfl⟩
  case h_5 => exact ⟨_, by rw [firstFault_ctEnd_of_active hl, if_pos h], .inl rfl⟩
  case h_6 =>
    by_cases hempty : s.ct.ldCode = []
    · exact ⟨_, by rw [firstFault_ctEnd_of_active hl, if_pos hempty], .inr (by decide)⟩
    · exact ⟨_, by rw [firstFault_ctEnd_of_active hl, if_neg hempty, if_pos (collides_iff.mpr h)], .inl rfl⟩
  case h_7 => exact ⟨_, by rw [firstFault_encPush_of_active hl, if_pos h], .inl rfl⟩
  case h_8 sym =>
    by_cases hv : (readAt s.ct.entry sym).valid = false
    · exact ⟨_, by rw [firstFault_encPush_of_active hl, if_pos hv], .inr (by decide)⟩
    · exact ⟨_, by rw [firstFault_encPush_of_active hl, if_neg hv, if_pos h], .inl rfl⟩
  case h_9 => exact ⟨_, by rw [firstFault_decEnd_of_active hl, if_pos h], .inl rfl⟩
  case h_10 =>
    by_cases hremain : s.unpack.remain ≠ 0
    · exact ⟨_, by rw [firstFault_decEnd_of_active hl, if_pos hremain], .inr (by decide)⟩
    · exact ⟨_, by rw [firstFault_decEnd_of_active hl, if_neg hremain, if_pos h], .inl rfl⟩
  case h_11 => exact absurd hl h
  case h_12 => exact h.elim

/-- A cause that holds is raised, or one before it is. -/
theorem firstFault_of_cause {s : State} {i : Instr} {G : FaultKind} (h : Cause s i G) :
    ∃ F, firstFault s i = some F ∧ (F = G ∨ F.priority < G.priority) := by
  by_cases hl : Legal s i
  · exact firstFault_of_cause_of_legal hl h
  · refine ⟨.seq, firstFault_of_not_legal hl, seq_first ?_⟩
    rintro rfl
    exact hl (legal_of_cause_illegalCmd h)

/-- Settles O31: what the command raises is itself a cause that holds, so it is not before the least one. -/
theorem firstCauseIsRaised : Obligations.FirstCauseIsRaised := by
  intro s i F hF hleast
  obtain ⟨F', hraised, rfl | hlt⟩ := firstFault_of_cause hF
  · exact exec_of_fault hraised
  · exact absurd (hleast F' (cause_of_firstFault hraised)) (Nat.not_le.mpr hlt)

/-! ### Without a cause (R190, R202) -/

theorem firstFault_eq_none_of_noCause {s : State} {i : Instr} (h : ∀ F, ¬ Cause s i F) : firstFault s i = none :=
  (eq_effect_of_noCause (exec_eq i s) (not_exists.mpr h)).1

theorem effect_err_eq (s : State) (i : Instr) : (effect s i).err = if i = .clrErr then 0 else s.err := by
  split
  case isTrue h =>
    subst h
    rfl
  case isFalse h => exact effect_err h s

theorem kind_ne_of_valuesOf_eq_nil {k : OutKind} {ws : List OutWord} (h : valuesOf k ws = []) :
    ∀ w ∈ ws, w.extractLsb' 32 8 ≠ k.code := by
  simpa [valuesOf, wordKind] using h

/-- Settles O32: the command has its effect, whose words are none of kind `ERR` (`effect_appends`). -/
theorem noCauseNoFault : Obligations.NoCauseNoFault := by
  intro s i h
  obtain ⟨ws, herr, happ⟩ := effect_appends i s
  exact ⟨effect s i, ws, exec_of_clean (firstFault_eq_none_of_noCause h), happ.outQ, kind_ne_of_valuesOf_eq_nil herr,
    effect_err_eq s i⟩

/-! ### Out of sequence (R192) -/

/-- Settles O33: the test of the legality table comes first, and `SEQ` has no additional change (R205). -/
theorem illegalSequencingRaisesSeq : Obligations.IllegalSequencingRaisesSeq := fun _ _ h => exec_of_not_legal h

/-! ### The sequencing flags (R208) -/

theorem raised_fa (F : FaultKind) (s : State) : (raised F s).fa = s.fa := by
  cases F <;> rfl

theorem effect_fa_init {i : Instr} (h : i ≠ .faClr) (s : State) : (effect s i).fa.init = s.fa.init := by
  cases i with
  | faClr => exact absurd rfl h
  | faPush | faRd => rfl
  | _ => rw [(effect_keepsToUnit s _).fa (by simp [unitOf])]

theorem exec_fa_init_iff {i : Instr} {s t : State} (h : exec i s = .next t) :
    t.fa.init = true ↔ s.fa.init = true ∨ i = .faClr := by
  rcases exec_cases h with ⟨F, hF, rfl⟩ | ⟨-, rfl⟩
  · have hi : i ≠ .faClr := by
      rintro rfl
      cases hF
    simp [raised_fa, hi]
  · by_cases hi : i = .faClr
    · subst hi
      simp [effect]
    · simp [effect_fa_init hi, hi]

theorem exec_ct_init_iff {i : Instr} {s t : State} (h : exec i s = .next t) :
    t.ct.init = true ↔ s.ct.init = true ∨ (i = .ctClr ∧ Legal s i) := by
  by_cases hi : i = .ctClr
  · subst hi
    rcases exec_cases h with ⟨F, hF, rfl⟩ | ⟨hclean, rfl⟩
    · have hl : ¬ Legal s .ctClr := fun hl => by simp [firstFault_ctClr_eq_none_iff.mpr hl] at hF
      simp [raised_ct_init, hl]
    · simp [effect, firstFault_ctClr_eq_none_iff.mp hclean]
  · simp [exec_ct_init h hi, hi]

theorem eq_ctEnd_of_cause {i : Instr} {s : State} {F : FaultKind} (h : Cause s i F)
    (hF : F = .codeEmpty ∨ F = .prefixCollision) : i = .ctEnd := by
  cases i with
  | ctEnd => rfl
  | _ => rcases hF with rfl | rfl <;> exact False.elim h

theorem eq_decEnd_of_cause {i : Instr} {s : State} {F : FaultKind} (h : Cause s i F)
    (hF : F = .incompleteCode ∨ F = .payloadShort) : i = .decEnd := by
  cases i with
  | decEnd => rfl
  | _ => rcases hF with rfl | rfl <;> exact False.elim h

/-- A fault starts no load, and of the effects only that of `CT_BEGIN` does. -/
theorem eq_ctBegin_of_load_starts {i : Instr} {s t : State} (h : exec i s = .next t) (hs : s.ct.ldActive = false)
    (ht : t.ct.ldActive = true) : ∃ sym, i = .ctBegin sym := by
  rcases exec_cases h with ⟨F, -, rfl⟩ | ⟨-, rfl⟩
  · cases F with
    | codeEmpty | codeTooLong | prefixCollision => cases ht
    | _ => cases hs.symm.trans ht
  · cases i with
    | ctBegin sym => exact ⟨sym, rfl⟩
    | ctClr | ctEnd => cases ht
    | ctBit => cases hs.symm.trans ht
    | _ =>
      rw [(effect_keepsToUnit s _).ct (by simp [unitOf]), hs] at ht
      cases ht

/-- The two other faults that end a load are raised by `CT_END` (R205). -/
theorem load_end_cases {i : Instr} {s t : State} (h : exec i s = .next t) (hs : s.ct.ldActive = true)
    (ht : t.ct.ldActive = false) : i = .ctEnd ∨ Cause s i .codeTooLong ∨ i = .ctClr := by
  rcases exec_cases h with ⟨F, hF, rfl⟩ | ⟨-, rfl⟩
  · have hc := cause_of_firstFault hF
    cases F with
    | codeTooLong => exact .inr (.inl hc)
    | codeEmpty | prefixCollision => exact .inl (eq_ctEnd_of_cause hc (by simp))
    | _ => cases hs.symm.trans ht
  · cases i with
    | ctEnd => exact .inl rfl
    | ctClr => exact .inr (.inr rfl)
    | ctBegin => cases ht
    | ctBit => cases hs.symm.trans ht
    | _ =>
      rw [(effect_keepsToUnit s _).ct (by simp [unitOf]), hs] at ht
      cases ht

theorem eq_encStart_of_session_starts {i : Instr} {s t : State} (h : exec i s = .next t) (hs : s.enc.state = .idle)
    (ht : t.enc.state = .active) : i = .encStart := by
  by_contra hi
  rw [(exec_enc_of_idle hs hi h).1, hs] at ht
  cases ht

theorem encode_end_cases {i : Instr} {s t : State} (h : exec i s = .next t) (hs : s.enc.state = .active)
    (ht : t.enc.state = .idle) : i = .encFlush ∨ Cause s i .unknownSymbol ∨ Cause s i .lenOvf := by
  rcases exec_cases h with ⟨F, hF, rfl⟩ | ⟨-, rfl⟩
  · have hc := cause_of_firstFault hF
    cases F with
    | unknownSymbol => exact .inr (.inl hc)
    | lenOvf => exact .inr (.inr hc)
    | _ => cases hs.symm.trans ht
  · cases i with
    | encFlush => exact .inl rfl
    | encStart => cases ht
    | encPush sym =>
      rw [effect, packCode_enc, hs] at ht
      cases ht
    | _ =>
      rw [((effect_keepsToUnit s _).enc (by simp [unitOf])).1, hs] at ht
      cases ht

theorem eq_decStart_of_session_starts {i : Instr} {s t : State} (h : exec i s = .next t) (hs : s.dec.state = .idle)
    (ht : t.dec.state = .active) : ∃ n, i = .decStart n := by
  by_contra hi
  rw [(exec_dec_of_idle hs (not_exists.mp hi) h).1, hs] at ht
  cases ht

theorem eq_decEnd_of_session_ends {i : Instr} {s t : State} (h : exec i s = .next t) (hs : s.dec.state = .active)
    (ht : t.dec.state = .idle) : i = .decEnd := by
  rcases exec_cases h with ⟨F, hF, rfl⟩ | ⟨-, rfl⟩
  · have hc := cause_of_firstFault hF
    cases F with
    | incompleteCode | payloadShort => exact eq_decEnd_of_cause hc (by simp)
    | _ => cases hs.symm.trans ht
  · cases i with
    | decEnd => rfl
    | decStart => cases ht
    | decPush B =>
      rw [effect, deliverByte_eq] at ht
      cases hs.symm.trans ((decodeSteps_state _ _ _ _).symm.trans ht)
    | _ =>
      rw [((effect_keepsToUnit s _).dec (by simp [unitOf])).2, hs] at ht
      cases ht

/-- Settles O34: one lemma per flag and direction. A change is the effect of a command of the flag's unit, or the side effect of
a fault (R205), whose cause then holds. -/
theorem sequencingFlagTransitions : Obligations.SequencingFlagTransitions := fun _ _ _ h =>
  ⟨exec_fa_init_iff h, exec_ct_init_iff h, eq_ctBegin_of_load_starts h, load_end_cases h,
    eq_encStart_of_session_starts h, encode_end_cases h, eq_decStart_of_session_starts h, eq_decEnd_of_session_ends h⟩

end Sys2Proof.Machine
end

section
/-! SUPPORT. Reset (`70_reset_and_hazards.md`): what the nine registers read right after it (O10), and that the arrays it leaves
unspecified are read by no command before `FA_CLR` and `CT_CLR` (O11). -/

namespace Sys2Proof.Machine

/-! ### The registers after reset (R224) -/

/-- Settles O10: each of the nine rows of `regAt`, evaluated at `State.reset`. -/
theorem registersAfterReset : Obligations.RegistersAfterReset := by
  intro idx v h
  refine exec_rdReg_of_some ?_
  simp only [List.mem_cons, Prod.mk.injEq, List.not_mem_nil, or_false] at h
  obtain ⟨rfl, rfl⟩ | ⟨rfl, rfl⟩ | ⟨rfl, rfl⟩ | ⟨rfl, rfl⟩ | ⟨rfl, rfl⟩ | ⟨rfl, rfl⟩ | ⟨rfl, rfl⟩ | ⟨rfl, rfl⟩ |
    ⟨rfl, rfl⟩ := h
  all_goals rfl

/-! ### The histogram before `FA_CLR` (R221) -/

/-- The state with other contents of `FA.count`. -/
def withCount (c : Vector (BitVec 32) 256) (s : State) : State := { s with fa := { s.fa with count := c } }

/-- No command tests a counter. -/
theorem firstFault_withCount (c : Vector (BitVec 32) 256) (s : State) (i : Instr) :
    firstFault (withCount c s) i = firstFault s i := by
  cases i <;> rfl

theorem raised_withCount (F : FaultKind) (c : Vector (BitVec 32) 256) (s : State) :
    raised F (withCount c s) = withCount c (raised F s) := by
  cases F <;> rfl

/-- The only effects that read or write the counters are those of the commands of FA; two of them need `FA.init`. -/
theorem effect_withCount {i : Instr} {s : State} (hinit : s.fa.init = false) (hf : firstFault s i = none) (hi : i ≠ .faClr)
    (c : Vector (BitVec 32) 256) : effect (withCount c s) i = withCount c (effect s i) := by
  cases i with
  | faClr => exact absurd rfl hi
  | faPush sym => cases (firstFault_faPush_of_uninit hinit sym).symm.trans hf
  | faRd sym => cases (firstFault_faRd_of_uninit hinit sym).symm.trans hf
  | rdReg idx => rfl
  | _ =>
    rw [withCount, effect_withFa (by simp [unitOf]) (by simp), withCount, (effect_keepsToUnit s _).fa (by simp [unitOf])]

theorem exec_withCount {i : Instr} {s t : State} (hinit : s.fa.init = false) (h : exec i s = .next t) (hi : i ≠ .faClr)
    (c : Vector (BitVec 32) 256) : exec i (withCount c s) = .next (withCount c t) := by
  rcases exec_cases h with ⟨F, hF, rfl⟩ | ⟨hf, rfl⟩
  · rw [exec_of_fault ((firstFault_withCount c s i).trans hF), raised_withCount]
  · rw [exec_of_clean ((firstFault_withCount c s i).trans hf), effect_withCount hinit hf hi]

/-! ### The code table before `CT_CLR` (R221) -/

/-- The state with other contents of the CT array. -/
def withEntries (e : Vector CtEntry 256) (s : State) : State := { s with ct := { s.ct with entry := e } }

/-- Of the commands that read the CT array only `CT_CLR` is legal (R208): CT is not initialised, no load is in progress and no
session is active. -/
structure TableUnused (s : State) : Prop where
  init : s.ct.init = false
  noLoad : s.ct.ldActive = false
  encIdle : s.enc.state = .idle
  decIdle : s.dec.state = .idle

theorem TableUnused.withEntries {s : State} (h : TableUnused s) (e : Vector CtEntry 256) :
    TableUnused (withEntries e s) :=
  ⟨h.init, h.noLoad, h.encIdle, h.decIdle⟩

theorem TableUnused.firstFault_ctBegin {s : State} (h : TableUnused s) (sym : Symbol) :
    firstFault s (.ctBegin sym) = some .seq :=
  firstFault_of_not_legal (by simp [Legal, h.init])

theorem TableUnused.firstFault_ctEnd {s : State} (h : TableUnused s) : firstFault s .ctEnd = some .seq :=
  firstFault_of_not_legal (by simp [Legal, h.noLoad])

theorem TableUnused.firstFault_encPush {s : State} (h : TableUnused s) (sym : Symbol) :
    firstFault s (.encPush sym) = some .seq :=
  firstFault_of_not_legal (by simp [Legal, h.encIdle])

theorem TableUnused.firstFault_decPush {s : State} (h : TableUnused s) (B : Symbol) :
    firstFault s (.decPush B) = some .seq :=
  firstFault_of_not_legal (by simp [Legal, h.decIdle])

/-- The three commands with a test that reads the array raise `SEQ` before it. -/
theorem firstFault_withEntries {s : State} (h : TableUnused s) (e : Vector CtEntry 256) (i : Instr) :
    firstFault (withEntries e s) i = firstFault s i := by
  cases i with
  | ctBegin sym => rw [h.firstFault_ctBegin, (h.withEntries e).firstFault_ctBegin]
  | ctEnd => rw [h.firstFault_ctEnd, (h.withEntries e).firstFault_ctEnd]
  | encPush sym => rw [h.firstFault_encPush, (h.withEntries e).firstFault_encPush]
  | _ => rfl

theorem raised_withEntries (F : FaultKind) (e : Vector CtEntry 256) (s : State) :
    raised F (withEntries e s) = withEntries e (raised F s) := by
  cases F <;> rfl

/-- The effects that read or write the array are those of `CT_CLR`, `CT_END`, `ENC_PUSH` and `DEC_PUSH`. -/
theorem effect_withEntries {i : Instr} {s : State} (h : TableUnused s) (hf : firstFault s i = none) (hi : i ≠ .ctClr)
    (e : Vector CtEntry 256) : effect (withEntries e s) i = withEntries e (effect s i) := by
  cases i with
  | ctClr => exact absurd rfl hi
  | ctEnd => cases h.firstFault_ctEnd.symm.trans hf
  | encPush sym => cases (h.firstFault_encPush sym).symm.trans hf
  | decPush B => cases (h.firstFault_decPush B).symm.trans hf
  | _ => rfl

theorem exec_withEntries {i : Instr} {s t : State} (hu : TableUnused s) (h : exec i s = .next t) (hi : i ≠ .ctClr)
    (e : Vector CtEntry 256) : exec i (withEntries e s) = .next (withEntries e t) := by
  rcases exec_cases h with ⟨F, hF, rfl⟩ | ⟨hf, rfl⟩
  · rw [exec_of_fault ((firstFault_withEntries hu e i).trans hF), raised_withEntries]
  · rw [exec_of_clean ((firstFault_withEntries hu e i).trans hf), effect_withEntries hu hf hi]

/-- Settles O11: the faults and the effects of a command commute with the replacement; `FA_CLR` overwrites the counters. -/
theorem unspecifiedArraysAreUnread : Obligations.UnspecifiedArraysAreUnread := by
  refine fun i s t => ⟨?count, fun hinit hl henc hdec hi e h => exec_withEntries ⟨hinit, hl, henc, hdec⟩ h hi e⟩
  case count =>
    intro hinit c h
    split
    case isTrue hclr =>
      subst hclr
      exact h
    case isFalse hi => exact exec_withCount hinit h hi c

end Sys2Proof.Machine
end
